-- ==== Sys2Proof/Errors.lean ====
section
/-! DEFINITION. The closed list of error names (60_exceptions.md R170, R171). An error carries no payload; the state a
failed step leaves is kept beside it in Machine.Fault. -/

namespace Sys2Proof

/-- The 26 error names of R171, in the order of their codes. Each is the spec's own result for the condition named, so
stopping with it is safe. -/
inductive ErrorKind where
  /-- Code 1. The cell at pc is Empty, a pc in an unallocated segment included. Raised by fetch (R111). -/
  | endOfInstructions
  /-- Code 2. The cell at pc holds a Ptr, or a Field of 2^64 or more (D7). Raised by fetch (R111). -/
  | instructionEncodingError
  /-- Code 3. Bit 63 of the instruction word is 1. Raised by decode (R61). -/
  | highBitSet
  /-- Code 4. `w[52:50]` is 3, 5, 6 or 7. Raised by decode (R54, R61). -/
  | invalidOp1Src
  /-- Code 5. `w[54:53]` is 3. Raised by decode (R55, R61). -/
  | invalidResLogic
  /-- Code 6. `w[57:55]` is 3, 5, 6 or 7. Raised by decode (R56, R61). -/
  | invalidPcUpdate
  /-- Code 7. `w[59:58]` is 3. Raised by decode (R57, R61). -/
  | invalidApUpdate
  /-- Code 8. `w[62:60]` is 3, 5, 6 or 7. Raised by decode (R58, R61). -/
  | invalidOpcode
  /-- Code 9. Ptr − Field with the Field's value above the offset. Raised by the word ALU (R89), the address unit (R101)
  and deduction (R115, R117). -/
  | offsetUnderflow
  /-- Code 10. Ptr − Ptr with different segments. Raised by the word ALU (R90), in a step only by deduction. -/
  | segmentMismatch
  /-- Code 11. A Word operation on an illegal variant pair (R93), op1_src = Op0 whose op0 cell holds no Ptr (R104), or
  ap_update = Add with a Ptr res (R142). -/
  | typeMismatch
  /-- Code 12. `insert` to a segment index at or above NSEG. Raised by the memory controller (R34). -/
  | segmentOutOfBounds
  /-- Code 13. `insert` of an unequal word into a Filled cell. Raised by the memory controller (R34). -/
  | writeOnce
  /-- Code 14. AssertEq with res undefined (R131), or ap_update = Add with res undefined (R142). -/
  | unconstrainedRes
  /-- Code 15. AssertEq with dst and res unequal as Words (R131). -/
  | diffAssertValues
  /-- Code 16. Call with op0 other than pc + size (R132). -/
  | invalidOp0ForCall
  /-- Code 17. Call with dst other than fp (R132). -/
  | invalidDstForCall
  /-- Code 18. pc_update = Jnz with dst undefined (R139). -/
  | unconstrainedJnzDst
  /-- Code 19. pc_update = Jump with a res that is no Ptr (R137). -/
  | invalidJumpTarget
  /-- Code 20. pc_update = JumpRel with a res that is no Field (R138). -/
  | invalidJumpRelTarget
  /-- Code 21. A taken Jnz with an op1 that is no Field (R139). -/
  | invalidJnzOp1
  /-- Code 22. Ret with a dst that is no Ptr (R147). -/
  | invalidFpUpdate
  /-- Code 23. Field division by zero, at the interfaces of units U1 and U1b only (R75, R76, R92, R125). -/
  | divisionByZero
  /-- Code 24, the spec's own. op1_src = Imm with off_op1 other than 1 (R105). -/
  | invalidImmOffset
  /-- Code 25, the spec's own. With STRICT_OPERANDS only: dst, op0 or op1 undefined at the commit (R123, R148). -/
  | undefinedOperand
  /-- Code 26, the spec's own. With a finite MAX_OFFSET or MAX_SEGMENTS only: a result does not fit (R32, R88). -/
  | capacityExceeded
deriving DecidableEq, Repr

/-- The result of a fallible operation: `Ok v` or `Err E` (R10, R170). -/
abbrev Result (α : Type) := Except ErrorKind α

end Sys2Proof
end

