-- ==== Sys2Proof/Word.lean ====
section
/-! DEFINITION. The words of the machine: field elements, segmented pointers and the tagged union of the two
(00_scope.md R7, R10; 10_state.md R26 to R28; 40_field_alu.md R71). -/

namespace Sys2Proof

/-- The field modulus P = 2^251 + 17·2^192 + 1, written as the hexadecimal literal of R7 (R7, R71). -/
def P : Nat := 0x800000000000011000000000000000000000000000000000000000000000001

/-- The literal is the formula of R7 and R71. -/
theorem P_eq : P = 2 ^ 251 + 17 * 2 ^ 192 + 1 := by decide +kernel

theorem P_pos : 0 < P := by decide +kernel

/-- Every 64-bit unsigned value is below the modulus, so an instruction word is a field element. -/
theorem two_pow_64_lt_P : 2 ^ 64 < P := by decide +kernel

/-- A field element: an integer `e` with `0 <= e < P`, always reduced (R10, R70). -/
abbrev Felt := Fin P

/-- A segmented pointer `(seg, off)` of two unbounded naturals; D0's Relocatable (R10, R27). -/
structure Ptr where
  /-- The segment index. -/
  seg : Nat
  /-- The offset within the segment, counted in cells. -/
  off : Nat
deriving DecidableEq, Repr

/-- The contents of a cell: a field element or a pointer, exactly one of the two; D0's MaybeRelocatable (R10, R28).
Equality is that of R10: the same variant with the same contents. -/
inductive Word where
  /-- `Field(e)`. -/
  | field (e : Felt)
  /-- `Ptr(seg, off)`. -/
  | ptr (p : Ptr)
deriving DecidableEq, Repr

end Sys2Proof
end

