-- ==== Sys2Proof/Syntax.lean ====
section
/-! DEFINITION. The instruction set as syntax: the selectors of 30_encoding.md R52 to R59 and the sixteen instructions of
R64, in the order of spec/opcode_table.json. -/

namespace Sys2Proof

/-- A base register selector: `dst_reg`, `op0_reg` (R53). -/
inductive Reg where
  | ap | fp
deriving DecidableEq, Repr

/-- `op1_src`: where op1's address comes from (R54). -/
inductive Op1Src where
  | op0 | imm | fp | ap
deriving DecidableEq, Repr

/-- The decoded `res_logic` (R55). -/
inductive ResLogic where
  | op1 | add | mul | unconstrained
deriving DecidableEq, Repr

/-- `pc_update` (R56). -/
inductive PcUpdate where
  | regular | jump | jumpRel | jnz
deriving DecidableEq, Repr

/-- The decoded `ap_update` (R57). -/
inductive ApUpdate where
  | regular | add | add1 | add2
deriving DecidableEq, Repr

/-- `fp_update`, which has no bits of its own (R58). -/
inductive FpUpdate where
  | regular | apPlus2 | dst
deriving DecidableEq, Repr

/-- `opcode` (R58). -/
inductive Opcode where
  | noOp | call | ret | assertEq
deriving DecidableEq, Repr

/-- The operand and modifier fields that every instruction has: the record of R59 without `opcode` and `pc_update`,
which name the instruction (R64), and without `fp_update`, which follows from the opcode (R58). -/
structure Fields where
  /-- `off_dst`, signed (R52). -/
  offDst : Int
  /-- `off_op0`, signed (R52). -/
  offOp0 : Int
  /-- `off_op1`, signed (R52). -/
  offOp1 : Int
  /-- `dst_reg` (R53). -/
  dstReg : Reg
  /-- `op0_reg` (R53). -/
  op0Reg : Reg
  /-- `op1_src` (R54). -/
  op1Src : Op1Src
  /-- `res_logic`, decoded (R55). -/
  resLogic : ResLogic
  /-- `ap_update`, decoded (R57). -/
  apUpdate : ApUpdate
deriving DecidableEq, Repr

/-- The sixteen instructions, one constructor per row of spec/opcode_table.json (R64). -/
inductive Instr where
  /-- NOP.REG (R150). -/
  | nopReg (f : Fields)
  /-- NOP.JMP (R151). -/
  | nopJmp (f : Fields)
  /-- NOP.JREL (R152). -/
  | nopJrel (f : Fields)
  /-- NOP.JNZ (R153). -/
  | nopJnz (f : Fields)
  /-- CALL.REG (R154). -/
  | callReg (f : Fields)
  /-- CALL.JMP (R155). -/
  | callJmp (f : Fields)
  /-- CALL.JREL (R156). -/
  | callJrel (f : Fields)
  /-- CALL.JNZ (R157). -/
  | callJnz (f : Fields)
  /-- RET.REG (R158). -/
  | retReg (f : Fields)
  /-- RET.JMP (R159). -/
  | retJmp (f : Fields)
  /-- RET.JREL (R160). -/
  | retJrel (f : Fields)
  /-- RET.JNZ (R161). -/
  | retJnz (f : Fields)
  /-- AEQ.REG (R162). -/
  | aeqReg (f : Fields)
  /-- AEQ.JMP (R163). -/
  | aeqJmp (f : Fields)
  /-- AEQ.JREL (R164). -/
  | aeqJrel (f : Fields)
  /-- AEQ.JNZ (R165). -/
  | aeqJnz (f : Fields)
deriving DecidableEq, Repr

/-- The decoded instruction record `Instr` of R59, the sequencer's view of an instruction. -/
structure Decoded extends Fields where
  /-- `pc_update` (R56). -/
  pcUpdate : PcUpdate
  /-- `fp_update` (R58). -/
  fpUpdate : FpUpdate
  /-- `opcode` (R58). -/
  opcode : Opcode
deriving DecidableEq, Repr

/-- The opcode that the instruction's name carries (R64). -/
def Instr.opcode : Instr → Opcode
  | .nopReg _ | .nopJmp _ | .nopJrel _ | .nopJnz _ => .noOp
  | .callReg _ | .callJmp _ | .callJrel _ | .callJnz _ => .call
  | .retReg _ | .retJmp _ | .retJrel _ | .retJnz _ => .ret
  | .aeqReg _ | .aeqJmp _ | .aeqJrel _ | .aeqJnz _ => .assertEq

/-- The pc update that the instruction's name carries (R64). -/
def Instr.pcUpdate : Instr → PcUpdate
  | .nopReg _ | .callReg _ | .retReg _ | .aeqReg _ => .regular
  | .nopJmp _ | .callJmp _ | .retJmp _ | .aeqJmp _ => .jump
  | .nopJrel _ | .callJrel _ | .retJrel _ | .aeqJrel _ => .jumpRel
  | .nopJnz _ | .callJnz _ | .retJnz _ | .aeqJnz _ => .jnz

/-- The operand and modifier fields of an instruction. -/
def Instr.fields : Instr → Fields
  | .nopReg f | .nopJmp f | .nopJrel f | .nopJnz f => f
  | .callReg f | .callJmp f | .callJrel f | .callJnz f => f
  | .retReg f | .retJmp f | .retJrel f | .retJnz f => f
  | .aeqReg f | .aeqJmp f | .aeqJrel f | .aeqJnz f => f

end Sys2Proof
end

