-- ==== Sys2Proof/WellFormed.lean ====
section
/-! DEFINITION. Which instruction terms decoding can produce (30_encoding.md R59): the offsets are 16-bit signed,
`Unconstrained` occurs exactly where raw res_logic 0 meets Jnz, `Add2` exactly where raw ap_update 0 meets Call. The rule
that an immediate needs off_op1 = 1 is the address unit's (R105), not a condition of being well-formed (R62). -/

namespace Sys2Proof

/-- A decoded offset lies in `[-2^15, 2^15 - 1]` (R52, R59). -/
def offsetInRange (k : Int) : Bool := decide (-32768 ≤ k ∧ k ≤ 32767)

/-- Raw res_logic 0 decodes to `Op1`, and to `Unconstrained` under Jnz (R55). -/
def resLogicFits (u : PcUpdate) (r : ResLogic) : Bool :=
  match r with
  | .op1 => decide (u ≠ .jnz)
  | .unconstrained => decide (u = .jnz)
  | .add | .mul => true

/-- Raw ap_update 0 decodes to `Regular`, and to `Add2` under Call (R57). -/
def apUpdateFits (o : Opcode) (a : ApUpdate) : Bool :=
  match a with
  | .regular => decide (o ≠ .call)
  | .add2 => decide (o = .call)
  | .add | .add1 => true

/-- The instruction is one that decoding can produce (R59, R62). -/
def Instr.wf (i : Instr) : Bool :=
  offsetInRange i.fields.offDst && offsetInRange i.fields.offOp0 && offsetInRange i.fields.offOp1 &&
    resLogicFits i.pcUpdate i.fields.resLogic && apUpdateFits i.opcode i.fields.apUpdate

end Sys2Proof
end

