-- ==== Sys2Proof/Decode.lean ====
section
/-! DEFINITION. Unit U2, the decoder, and the encoder that is its inverse on legal words (30_encoding.md R50 to R64;
unbias16 is 42_address_unit.md R100). The decoder works on the 64-bit unsigned path, never on field elements (R61). -/

namespace Sys2Proof

/-- `w[hi:lo]`, the unsigned integer `(w >> lo) mod 2^(hi-lo+1)` (R9). -/
def bits (w : BitVec 64) (hi lo : Nat) : Nat := (w.toNat >>> lo) % 2 ^ (hi - lo + 1)

/-- `unbias16(u) = u - 2^15` (R52, R100). -/
def unbias16 (u : Nat) : Int := (u : Int) - 32768

/-- The base register selector of a one-bit field: 0 is ap, 1 is fp (R53). -/
def decodeReg (u : Nat) : Reg := if u = 0 then .ap else .fp

/-- `w[52:50]` (R54). -/
def decodeOp1Src (u : Nat) : Result Op1Src :=
  match u with
  | 0 => .ok .op0
  | 1 => .ok .imm
  | 2 => .ok .fp
  | 4 => .ok .ap
  | _ => .error .invalidOp1Src

/-- `w[54:53]` by its raw meaning, before the Jnz substitution of R55. -/
def decodeRawRes (u : Nat) : Result ResLogic :=
  match u with
  | 0 => .ok .op1
  | 1 => .ok .add
  | 2 => .ok .mul
  | _ => .error .invalidResLogic

/-- `w[57:55]` (R56). -/
def decodePcUpdate (u : Nat) : Result PcUpdate :=
  match u with
  | 0 => .ok .regular
  | 1 => .ok .jump
  | 2 => .ok .jumpRel
  | 4 => .ok .jnz
  | _ => .error .invalidPcUpdate

/-- `w[59:58]` by its raw meaning, before the Call substitution of R57. -/
def decodeRawAp (u : Nat) : Result ApUpdate :=
  match u with
  | 0 => .ok .regular
  | 1 => .ok .add
  | 2 => .ok .add1
  | _ => .error .invalidApUpdate

/-- `w[62:60]` (R58). -/
def decodeOpcode (u : Nat) : Result Opcode :=
  match u with
  | 0 => .ok .noOp
  | 1 => .ok .call
  | 2 => .ok .ret
  | 4 => .ok .assertEq
  | _ => .error .invalidOpcode

/-- Raw res_logic 0 means `Unconstrained` under Jnz, and only raw 0 changes its meaning (R55). -/
def substRes (u : PcUpdate) (r : ResLogic) : ResLogic :=
  if r = .op1 ∧ u = .jnz then .unconstrained else r

/-- Raw ap_update 0 means `Add2` under Call, and only raw 0 changes its meaning (R57). -/
def substAp (o : Opcode) (a : ApUpdate) : ApUpdate :=
  if a = .regular ∧ o = .call then .add2 else a

/-- `fp_update` is derived from the opcode (R58). -/
def fpUpdateOf (o : Opcode) : FpUpdate :=
  match o with
  | .call => .apPlus2
  | .ret => .dst
  | .noOp | .assertEq => .regular

/-- The instruction named by an opcode and a pc update (R64). -/
def Instr.ofParts (o : Opcode) (u : PcUpdate) (f : Fields) : Instr :=
  match o, u with
  | .noOp, .regular => .nopReg f
  | .noOp, .jump => .nopJmp f
  | .noOp, .jumpRel => .nopJrel f
  | .noOp, .jnz => .nopJnz f
  | .call, .regular => .callReg f
  | .call, .jump => .callJmp f
  | .call, .jumpRel => .callJrel f
  | .call, .jnz => .callJnz f
  | .ret, .regular => .retReg f
  | .ret, .jump => .retJmp f
  | .ret, .jumpRel => .retJrel f
  | .ret, .jnz => .retJnz f
  | .assertEq, .regular => .aeqReg f
  | .assertEq, .jump => .aeqJmp f
  | .assertEq, .jumpRel => .aeqJrel f
  | .assertEq, .jnz => .aeqJnz f

/-- The record of R59 for fields under an opcode and a pc update. -/
def Fields.decoded (f : Fields) (o : Opcode) (u : PcUpdate) : Decoded where
  toFields := f
  pcUpdate := u
  fpUpdate := fpUpdateOf o
  opcode := o

/-- The record of R59 for an instruction. -/
def Instr.decoded (i : Instr) : Decoded := i.fields.decoded i.opcode i.pcUpdate

/-- `size(instr)`: 2 cells with op1_src = Imm, else 1 (R60). -/
def Fields.size (f : Fields) : Nat := if f.op1Src = .imm then 2 else 1

/-- `decode(w)`: total on 64-bit words; the first bad field in the order of R61 gives the error (R61, D10). -/
def decode (w : BitVec 64) : Result Instr :=
  if bits w 63 63 = 1 then .error .highBitSet
  else do
    let op1Src ← decodeOp1Src (bits w 52 50)
    let rawRes ← decodeRawRes (bits w 54 53)
    let pcUpdate ← decodePcUpdate (bits w 57 55)
    let rawAp ← decodeRawAp (bits w 59 58)
    let opcode ← decodeOpcode (bits w 62 60)
    .ok (Instr.ofParts opcode pcUpdate
      { offDst := unbias16 (bits w 15 0)
        offOp0 := unbias16 (bits w 31 16)
        offOp1 := unbias16 (bits w 47 32)
        dstReg := decodeReg (bits w 48 48)
        op0Reg := decodeReg (bits w 49 49)
        op1Src := op1Src
        resLogic := substRes pcUpdate rawRes
        apUpdate := substAp opcode rawAp })

/-- A word is legal when bit 63 is 0 and every selector field holds one of its values (R62). -/
def legalWord (w : BitVec 64) : Bool :=
  decide (bits w 63 63 = 0) && [0, 1, 2, 4].contains (bits w 52 50) && [0, 1, 2, 4].contains (bits w 57 55) &&
    [0, 1, 2, 4].contains (bits w 62 60) && [0, 1, 2].contains (bits w 54 53) && [0, 1, 2].contains (bits w 59 58)

/-! The encoder of R63. -/

/-- The biased raw value of an offset, `k + 2^15` (R63). -/
def bias16 (k : Int) : Nat := (k + 32768).toNat

/-- regbit (R63). -/
def Reg.code : Reg → Nat
  | .ap => 0
  | .fp => 1

/-- op1code (R63). -/
def Op1Src.code : Op1Src → Nat
  | .op0 => 0
  | .imm => 1
  | .fp => 2
  | .ap => 4

/-- rescode: `Unconstrained` encodes back to raw 0 (R63). -/
def ResLogic.code : ResLogic → Nat
  | .op1 => 0
  | .add => 1
  | .mul => 2
  | .unconstrained => 0

/-- pccode (R63). -/
def PcUpdate.code : PcUpdate → Nat
  | .regular => 0
  | .jump => 1
  | .jumpRel => 2
  | .jnz => 4

/-- apcode: `Add2` encodes back to raw 0 (R63). -/
def ApUpdate.code : ApUpdate → Nat
  | .regular => 0
  | .add => 1
  | .add1 => 2
  | .add2 => 0

/-- opcode (R63). -/
def Opcode.code : Opcode → Nat
  | .noOp => 0
  | .call => 1
  | .ret => 2
  | .assertEq => 4

/-- `encode(instr)` (R63). The fields do not overlap in a well-formed instruction, so the sum of the shifted fields is
their `|`. -/
def encode (i : Instr) : BitVec 64 :=
  BitVec.ofNat 64 (bias16 i.fields.offDst + bias16 i.fields.offOp0 * 2 ^ 16 + bias16 i.fields.offOp1 * 2 ^ 32
    + i.fields.dstReg.code * 2 ^ 48 + i.fields.op0Reg.code * 2 ^ 49 + i.fields.op1Src.code * 2 ^ 50
    + i.fields.resLogic.code * 2 ^ 53 + i.pcUpdate.code * 2 ^ 55 + i.fields.apUpdate.code * 2 ^ 58
    + i.opcode.code * 2 ^ 60)

/-! From the fetched cell to the instruction. -/

/-- `to_small_uint(a)`: the element as a 64-bit unsigned integer, if it fits (R77). -/
def toSmallUint (a : Felt) : Option (BitVec 64) :=
  if a.val < 2 ^ 64 then some (BitVec.ofNat 64 a.val) else none

/-- The instruction that a Word read at pc stands for: a Ptr and a Field of 2^64 or more are no encoding (R111, D7). -/
def decodeCell (v : Word) : Result Instr :=
  match v with
  | .ptr _ => .error .instructionEncodingError
  | .field e =>
    match toSmallUint e with
    | none => .error .instructionEncodingError
    | some w => decode w

/-- The cell that stores an instruction whose bits are `w`: the field element of that value (R50). -/
def instructionCell (w : Nat) : Word := .field ⟨w % P, Nat.mod_lt _ P_pos⟩

/-- What the decoder reads from an instruction whose `nbits` bits are `w`, numbered as spec/opcode_table.json numbers
them: the whole first cell is one 64-bit word, and bits above `nbits` are 0. A width above 64 describes no
instruction. -/
def decodeTableWord (nbits w : Nat) : Option Instr :=
  if nbits ≤ 64 then (decodeCell (instructionCell (w % 2 ^ nbits))).toOption else none

end Sys2Proof
end

