-- ==== Sys2Proof/Config.lean ====
section
/-! DEFINITION. The parameters an implementation fixes (00_scope.md R8; decisions D2 and D15). The spec leaves no value of
a step open (R206), so there is no free value here. -/

namespace Sys2Proof

/-- The parameters of R8 that are no launch argument, with the defaults R8 gives them. -/
structure Config where
  /-- MAX_OFFSET: the largest offset a Ptr may hold; `none` means unbounded (R8, D2). -/
  maxOffset : Option Nat := none
  /-- MAX_SEGMENTS: the largest number of segments; `none` means unbounded (R8, D2). -/
  maxSegments : Option Nat := none
  /-- STRICT_OPERANDS: whether a step that ends with dst, op0 or op1 undefined faults (R8, R123, D15). -/
  strictOperands : Bool := false
deriving DecidableEq, Repr

/-- The machine that `exec` and `step` run: every parameter at the default of R8. Log 3 (DESIGN CHOICE, unsafe for a
realisation with other values); the shared operations take any `Config`. -/
def Config.standard : Config where
  maxOffset := none
  maxSegments := none
  strictOperands := false

/-- Does the offset `n` fit a Ptr of this realisation? (R88, D2) -/
def Config.offsetFits (c : Config) (n : Nat) : Bool :=
  match c.maxOffset with
  | none => true
  | some m => decide (n ≤ m)

/-- Can one more segment be allocated when `n` are? (R32, D2) -/
def Config.segmentFits (c : Config) (n : Nat) : Bool :=
  match c.maxSegments with
  | none => true
  | some m => decide (n < m)

end Sys2Proof
end

