-- ==== Sys2Proof/Machine/State.lean ====
section
/-! DEFINITION. The architectural state (10_state.md R13 to R29), the state after reset (R29, R190) and the reasons a step
stops (60_exceptions.md R170 to R176). -/

namespace Sys2Proof.Machine

/-- A filled cell of the memory: its address and the Word it holds (R26). The machine has no bytes (R44), so a cell
pairs an address with a whole Word. -/
abbrev Cell := Ptr × Word

/-- The memory: the filled cells, by strictly rising address; an address not listed is an Empty cell (R13, R26, R33). -/
abbrev Memory := List Cell

/-- The complete architectural state `(R, MEM, NSEG, STEPS)` of R13, and the one thing R29 distinguishes beside it:
whether the registers were written. -/
structure State where
  /-- The program counter (R15). -/
  pc : Ptr
  /-- The allocation pointer (R16). -/
  ap : Ptr
  /-- The frame pointer (R17). -/
  fp : Ptr
  /-- MEM, the filled cells (R26). -/
  mem : Memory
  /-- NSEG, the number of allocated segments (R23). -/
  nseg : Nat
  /-- STEPS, the number of successful steps (R24). -/
  steps : Nat
  /-- Whether the host has made its register write (R29, R193). The model's own field: nothing in the block reads it
  as data; it tells the states from which no step exists (R29, R196) and ends the host's right to write registers
  (R193). Log 8. -/
  launched : Bool
deriving DecidableEq, Repr

/-- The machine right after reset (R29, R190): MEM empty, NSEG and STEPS zero, the registers not written. The spec
states no reset value for the three registers: `Ptr(0,0)` is the model's, log 1 (DESIGN CHOICE); no step reads it,
since none exists before the launch. -/
def State.reset : State where
  pc := ⟨0, 0⟩
  ap := ⟨0, 0⟩
  fp := ⟨0, 0⟩
  mem := []
  nseg := 0
  steps := 0
  launched := false

/-- Why a step stops: it ended with `Err E` (R170). The spec gives the state a failed step leaves (R176), so it is kept
beside the error: the host may inspect it or step again from it (R179, R200). Log 2. -/
inductive Fault where
  /-- Raised by every stage of a step through the one operation `abort`: the error name of R171 and the state R176
  leaves, with every field but the memory as the step found it, and the memory holding every insert that had returned
  Ok. Safe: the spec ends the step here, and the host's run loop treats it as fatal (D19). -/
  | raised (error : ErrorKind) (left : State)
deriving DecidableEq, Repr

/-- Why there is no transition. -/
inductive Refusal where
  /-- Raised by an arm of `exec` whose instruction has no meaning yet, by its mnemonic; safe. No arm does so. -/
  | notModelled (mnemonic : String)
  /-- Raised by `step` in a state whose registers the host has not written: "a model has no such transition" (R29,
  R196, D16). Safe: the spec defines no behaviour there. -/
  | notLaunched
deriving DecidableEq, Repr

end Sys2Proof.Machine
end

