-- ==== Sys2Proof/Machine/Ops.lean ====
section
/-! DEFINITION. The named operations over memory and registers: unit U4 with its four operations (20_memory.md R30 to R37),
taking a fault (60_exceptions.md R176), the commit (44_assert_update.md R148) and the launch (70_reset_and_hazards.md
R193). -/

namespace Sys2Proof.Machine

/-- The order in which the memory lists its addresses: by segment, then by offset. -/
def ptrBefore (a b : Ptr) : Bool := decide (a.seg < b.seg ∨ (a.seg = b.seg ∧ a.off < b.off))

/-- The canonical form of the memory: addresses strictly rising, so that equal maps are equal lists. Every listed cell
is Filled and an unlisted one is Empty, so no entry equals what an unlisted address reads as. Log 5. -/
abbrev Memory.wf (m : Memory) : Prop := m.Pairwise (fun x y => ptrBefore x.1 y.1 = true)

/-- `get(addr)`: the stored word, or `none` for an Empty cell, one beyond NSEG included; it never fails (R36). Cells are
identified by value (R31). -/
def Memory.get : Memory → Ptr → Option Word
  | [], _ => none
  | (b, v) :: rest, a => if a = b then some v else Memory.get rest a

/-- The memory with the cell at `a` mapped to `w`, kept in rising order. -/
def Memory.put : Memory → Ptr → Word → Memory
  | [], a, w => [(a, w)]
  | (b, v) :: rest, a, w =>
    if a = b then (a, w) :: rest
    else if ptrBefore a b then (a, w) :: (b, v) :: rest
    else (b, v) :: Memory.put rest a w

/-- `insert(addr, word)`: the segment bound is checked first, then the write-once rule; an equal word succeeds and
changes nothing (R34, C1). -/
def insert (s : State) (a : Ptr) (w : Word) : Result State :=
  if s.nseg ≤ a.seg then .error .segmentOutOfBounds
  else
    match Memory.get s.mem a with
    | some v => if v = w then .ok s else .error .writeOnce
    | none => .ok { s with mem := Memory.put s.mem a w }

/-- `add_segment()`: the fresh pointer `(NSEG, 0)` and NSEG + 1; CapacityExceeded only with a finite MAX_SEGMENTS
(R32). -/
def addSegment (c : Config) (s : State) : Result (Ptr × State) :=
  if c.segmentFits s.nseg then .ok (⟨s.nseg, 0⟩, { s with nseg := s.nseg + 1 })
  else .error .capacityExceeded

/-- `load_data(addr, words)`: insert the words at consecutive offsets, ascending; the first error ends it and the words
already inserted stay, so the state after is returned beside the result (R37, D18). -/
def loadData (s : State) (a : Ptr) : List Word → Result Ptr × State
  | [] => (.ok a, s)
  | w :: rest =>
    match insert s a w with
    | .error e => (.error e, s)
    | .ok s' => loadData s' ⟨a.seg, a.off + 1⟩ rest

/-- The launch-time register write: pc is PC0, and ap and fp are both AP0 (R193, D17). It happens once: after it the
host never writes a register again (R18, R191, R193), so there is no second one. Log 8. -/
def launch (s : State) (pc0 ap0 : Ptr) : Option State :=
  if s.launched then none else some { s with pc := pc0, ap := ap0, fp := ap0, launched := true }

/-- A step exists only from a state whose registers were written (R29, R196, D16). -/
def whenLaunched (s : State) (o : Host.Outcome State Fault Refusal) : Host.Outcome State Fault Refusal :=
  if s.launched then o else .refused .notLaunched

/-- TAKING A FAULT (R176): the step ends with the error's name. `s` is the state at the failing point: its memory
holds the inserts that had returned Ok, its registers, NSEG and STEPS are those the step began with. Nothing is saved,
no handler is entered, and there is no return from a fault (R174, R181). -/
def abort {α : Type} (s : State) (e : ErrorKind) : Except Fault α := .error (.raised e s)

/-- An operation's result inside a step: an error ends the step at `s` (the `?` of R110, R175). -/
def orAbort {α : Type} (s : State) (r : Result α) : Except Fault α :=
  match r with
  | .ok v => .ok v
  | .error e => abort s e

/-- The write-back of a deduced value: an insert when there is one (R116, R118, R121). -/
def writeBack (s : State) (a : Ptr) (v : Option Word) : Except Fault State :=
  match v with
  | none => .ok s
  | some w => orAbort s (insert s a w)

/-- The commit: the three registers together, then STEPS + 1 (R148); the only place where a step changes a register, so
exactly one transition holds (R149, R208). -/
def commit (s : State) (pc ap fp : Ptr) : State := { s with pc := pc, ap := ap, fp := fp, steps := s.steps + 1 }

end Sys2Proof.Machine
end

