-- ==== Sys2Proof/Machine/FieldAlu.lean ====
section
/-! DEFINITION. Unit U1, the field-element arithmetic unit (40_field_alu.md R70 to R81). Every operation is a pure
function on reduced elements; to_small_uint (R77) stands with the decoder. -/

namespace Sys2Proof.Machine

/-- `felt(i)`: the element congruent to the integer `i` modulo P (R70). -/
def felt (i : Int) : Felt :=
  ⟨(i % (P : Int)).toNat, by
    have hpos : (0 : Int) < (P : Int) := Int.ofNat_lt.mpr P_pos
    have h1 := Int.emod_nonneg i (ne_of_gt hpos)
    have h2 := Int.emod_lt_of_pos i hpos
    omega⟩

/-- `fadd(a, b) = (a + b) mod P` (R72). -/
def fadd (a b : Felt) : Felt := ⟨(a.val + b.val) % P, Nat.mod_lt _ P_pos⟩

/-- `fsub(a, b) = (a - b) mod P` (R73). -/
def fsub (a b : Felt) : Felt := felt ((a.val : Int) - (b.val : Int))

/-- `fmul(a, b) = (a · b) mod P`, the product taken over the integers (R74). -/
def fmul (a b : Felt) : Felt := ⟨(a.val * b.val) % P, Nat.mod_lt _ P_pos⟩

/-- `base ^ e mod P` by squaring, for an exponent of at most `fuel` bits. -/
def powMod (base : Nat) : (fuel : Nat) → (e : Nat) → Nat
  | 0, _ => 1 % P
  | fuel + 1, e =>
    let half := powMod (base * base % P) fuel (e / 2)
    if e % 2 = 1 then base * half % P else half

/-- `finv(a)`: the unique inverse, computed as `a^(P-2) mod P` (R75; the method is free, G2). Log 6. -/
def finv (a : Felt) : Result Felt :=
  if a.val = 0 then .error .divisionByZero
  else .ok ⟨powMod a.val 252 (P - 2) % P, Nat.mod_lt _ P_pos⟩

/-- `fdiv(a, b) = fmul(a, finv(b))`, failing on a zero divisor (R76). -/
def fdiv (a b : Felt) : Result Felt := (finv b).map (fmul a)

end Sys2Proof.Machine
end

