-- ==== Sys2Proof/Machine/WordAlu.lean ====
section
/-! DEFINITION. Unit U1b, arithmetic on Words (41_word_alu.md R85 to R96): dispatch on the two variants first, then the
chosen arm's own check (R94). No operation changes a segment index (R95). -/

namespace Sys2Proof.Machine

/-- `Ptr + n`: the integer sum on the offset, never reduced, same segment; CapacityExceeded above a finite MAX_OFFSET
(R88, D2, D3). It is the Ptr + Field arm of `wadd` for `Field(n)`. -/
def ptrAdd (c : Config) (p : Ptr) (n : Nat) : Result Ptr :=
  if c.offsetFits (p.off + n) then .ok ⟨p.seg, p.off + n⟩ else .error .capacityExceeded

/-- `Ptr - n`: fails when the offset would be negative (R89). -/
def ptrSub (p : Ptr) (n : Nat) : Result Ptr :=
  if n > p.off then .error .offsetUnderflow else .ok ⟨p.seg, p.off - n⟩

/-- `wadd(a, b)` (R86, R88, R93). -/
def wadd (c : Config) (a b : Word) : Result Word :=
  match a, b with
  | .field x, .field y => .ok (.field (fadd x y))
  | .ptr p, .field y => (ptrAdd c p y.val).map .ptr
  | .ptr _, .ptr _ => .error .typeMismatch
  | .field _, .ptr _ => .error .typeMismatch

/-- `wsub(a, b)` (R87, R89, R90, R93). -/
def wsub (a b : Word) : Result Word :=
  match a, b with
  | .field x, .field y => .ok (.field (fsub x y))
  | .ptr p, .field y => (ptrSub p y.val).map .ptr
  | .ptr p, .ptr q =>
    if p.seg ≠ q.seg then .error .segmentMismatch else .ok (.field (felt ((p.off : Int) - (q.off : Int))))
  | .field _, .ptr _ => .error .typeMismatch

/-- `wmul(a, b)`: both must be Fields (R91, R93). -/
def wmul (a b : Word) : Result Word :=
  match a, b with
  | .field x, .field y => .ok (.field (fmul x y))
  | .ptr _, .field _ => .error .typeMismatch
  | .ptr _, .ptr _ => .error .typeMismatch
  | .field _, .ptr _ => .error .typeMismatch

/-- `wdiv(a, b)`: the variants are tested before the zero divisor (R92, R94, D6). -/
def wdiv (a b : Word) : Result Word :=
  match a, b with
  | .field x, .field y => (fdiv x y).map .field
  | .ptr _, .field _ => .error .typeMismatch
  | .ptr _, .ptr _ => .error .typeMismatch
  | .field _, .ptr _ => .error .typeMismatch

end Sys2Proof.Machine
end

