-- ==== Sys2Proof/Machine/Operands.lean ====
section
/-! DEFINITION. Unit U3, the effective-address calculator, every operand form (42_address_unit.md R100 to R109), and the
three operand reads (43_step_resolution.md R113, R114). -/

namespace Sys2Proof.Machine

/-- The three operand addresses of a step (R113). -/
structure Addrs where
  /-- `dst_addr`. -/
  dst : Ptr
  /-- `op0_addr`. -/
  op0 : Ptr
  /-- `op1_addr`. -/
  op1 : Ptr
deriving DecidableEq, Repr

/-- The step's locals; `none` is an absent operand (R25, R114). -/
structure Locals where
  /-- The local `dst`. -/
  dst : Option Word
  /-- The local `op0`. -/
  op0 : Option Word
  /-- The local `op1`. -/
  op1 : Option Word
  /-- The local `res`. -/
  res : Option Word
deriving DecidableEq, Repr

/-- `offset_by(base, k)`: a negative offset is the subtraction of its absolute value (R101). -/
def offsetBy (c : Config) (base : Ptr) (k : Int) : Result Ptr :=
  if 0 ≤ k then ptrAdd c base k.toNat else ptrSub base (-k).toNat

/-- The base register a selector names (R53, R101). -/
def baseOf (s : State) (r : Reg) : Ptr :=
  match r with
  | .ap => s.ap
  | .fp => s.fp

/-- `compute_address(reg, k)` (R101). -/
def computeAddress (c : Config) (s : State) (r : Reg) (k : Int) : Result Ptr := offsetBy c (baseOf s r) k

/-- `dst_addr` (R102). -/
def dstAddress (c : Config) (f : Fields) (s : State) : Result Ptr := computeAddress c s f.dstReg f.offDst

/-- `op0_addr` (R102). -/
def op0Address (c : Config) (f : Fields) (s : State) : Result Ptr := computeAddress c s f.op0Reg f.offOp0

/-- `op1_addr` by op1_src (R103): Op0 uses the pointer held in the op0 cell at the start of the step and raises
TypeMismatch on anything else, an Empty cell included (R104, D9); Imm needs off_op1 = 1 (R105, D8); FP and AP offset the
register (R106, R107). -/
def op1Address (c : Config) (f : Fields) (s : State) (op0Addr : Ptr) : Result Ptr :=
  match f.op1Src with
  | .op0 =>
    match Memory.get s.mem op0Addr with
    | some (.ptr b) => offsetBy c b f.offOp1
    | some (.field _) => .error .typeMismatch
    | none => .error .typeMismatch
  | .imm => if f.offOp1 = 1 then ptrAdd c s.pc 1 else .error .invalidImmOffset
  | .fp => offsetBy c s.fp f.offOp1
  | .ap => offsetBy c s.ap f.offOp1

/-- The three operand addresses, in the order dst, op0, op1; the first error ends the step (R108, R113, D13). -/
def operandAddresses (c : Config) (f : Fields) (s : State) : Result Addrs := do
  let dst ← dstAddress c f s
  let op0 ← op0Address c f s
  let op1 ← op1Address c f s op0
  .ok { dst := dst, op0 := op0, op1 := op1 }

/-- The three read attempts; res starts absent (R114). -/
def readOperands (s : State) (x : Addrs) : Locals where
  dst := Memory.get s.mem x.dst
  op0 := Memory.get s.mem x.op0
  op1 := Memory.get s.mem x.op1
  res := none

end Sys2Proof.Machine
end

