-- ==== Sys2Proof/Machine/Cascade.lean ====
section
/-! DEFINITION. Stage 4 of a step, the deduction cascade: op0, op1, res, dst, in this order (43_step_resolution.md R115 to
R127). The locals are read once and change only by adopting a deduced value (R122). -/

namespace Sys2Proof.Machine

/-- `deduce_op0(instr, dst, op1)`: the pair (deduced op0, deduced res). A zero Field divisor yields nothing; a Ptr
divisor goes on to `wdiv` (R115, R124, D11). -/
def deduceOp0 (c : Config) (d : Decoded) (pc : Ptr) (dst op1 : Option Word) :
    Result (Option Word × Option Word) :=
  match d.opcode with
  | .call => (ptrAdd c pc d.size).map (fun p => (some (.ptr p), none))
  | .assertEq =>
    match d.resLogic, dst, op1 with
    | .add, some x, some b => (wsub x b).map (fun v => (some v, some x))
    | .mul, some x, some b =>
      if b = .field (felt 0) then .ok (none, none) else (wdiv x b).map (fun v => (some v, some x))
    | _, _, _ => .ok (none, none)
  | .noOp => .ok (none, none)
  | .ret => .ok (none, none)

/-- `deduce_op1(instr, dst, op0)`: the pair (deduced op1, deduced res); only for AssertEq (R117). -/
def deduceOp1 (d : Decoded) (dst op0 : Option Word) : Result (Option Word × Option Word) :=
  match d.opcode with
  | .assertEq =>
    match d.resLogic, dst, op0 with
    | .op1, x, _ => .ok (x, x)
    | .add, some x, some a => (wsub x a).map (fun v => (some v, some x))
    | .mul, some x, some a =>
      if a = .field (felt 0) then .ok (none, none) else (wdiv x a).map (fun v => (some v, some x))
    | _, _, _ => .ok (none, none)
  | .call => .ok (none, none)
  | .noOp => .ok (none, none)
  | .ret => .ok (none, none)

/-- `compute_res(instr, op0, op1)` on defined operands (R119). -/
def computeRes (c : Config) (r : ResLogic) (a b : Word) : Result (Option Word) :=
  match r with
  | .op1 => .ok (some b)
  | .add => (wadd c a b).map some
  | .mul => (wmul a b).map some
  | .unconstrained => .ok none

/-- `deduce_dst(instr, res)`; it cannot fail (R120). -/
def deduceDst (o : Opcode) (fp : Ptr) (res : Option Word) : Option Word :=
  match o with
  | .assertEq => res
  | .call => some (.ptr fp)
  | .noOp => none
  | .ret => none

/-- Stage 4a: an absent op0 is deduced, written back and adopted, and res is set (R116). -/
def resolveOp0 (c : Config) (d : Decoded) (x : Addrs) (l : Locals) (s : State) : Except Fault (Locals × State) :=
  match l.op0 with
  | some _ => .ok (l, s)
  | none => do
    let vr ← orAbort s (deduceOp0 c d s.pc l.dst l.op1)
    let s' ← writeBack s x.op0 vr.1
    .ok ({ l with op0 := vr.1, res := vr.2 }, s')

/-- Stage 4b: an absent op1 likewise; a res that stage 4a set is kept (R118). -/
def resolveOp1 (d : Decoded) (x : Addrs) (l : Locals) (s : State) : Except Fault (Locals × State) :=
  match l.op1 with
  | some _ => .ok (l, s)
  | none => do
    let vr ← orAbort s (deduceOp1 d l.dst l.op0)
    let s' ← writeBack s x.op1 vr.1
    .ok ({ l with op1 := vr.1, res := l.res.or vr.2 }, s')

/-- res computed forward: only when both operands are defined, whatever res_logic is (R119, D29). -/
def forwardRes (c : Config) (r : ResLogic) (op0 op1 : Option Word) : Result (Option Word) :=
  match op0, op1 with
  | some a, some b => computeRes c r a b
  | _, _ => .ok none

/-- Stage 4c: a res that is still absent is computed forward (R119). -/
def resolveRes (c : Config) (d : Decoded) (l : Locals) (s : State) : Except Fault Locals :=
  match l.res with
  | some _ => .ok l
  | none => do
    let r ← orAbort s (forwardRes c d.resLogic l.op0 l.op1)
    .ok { l with res := r }

/-- Stage 4d: an absent dst is deduced, written back and adopted (R121). -/
def resolveDst (d : Decoded) (x : Addrs) (l : Locals) (s : State) : Except Fault (Locals × State) :=
  match l.dst with
  | some _ => .ok (l, s)
  | none => do
    let v := deduceDst d.opcode s.fp l.res
    let s' ← writeBack s x.dst v
    .ok ({ l with dst := v }, s')

/-- The cascade, stages 4a to 4d, from the operands as read (R110). -/
def resolve (c : Config) (d : Decoded) (x : Addrs) (l : Locals) (s : State) : Except Fault (Locals × State) := do
  let a ← resolveOp0 c d x l s
  let b ← resolveOp1 d x a.1 a.2
  let l' ← resolveRes c d b.1 b.2
  resolveDst d x l' b.2

end Sys2Proof.Machine
end

