-- ==== Sys2Proof/Machine/Flags.lean ====
section
/-! DEFINITION. The machine has no flags (10_state.md R20): its one condition is the zero test of Jnz, made on the memory
operand dst itself (44_assert_update.md R140). -/

namespace Sys2Proof.Machine

/-- `is_zero(w)`: exactly `Field(0)` and `Ptr(0,0)` (R140). -/
def isZero (w : Word) : Bool :=
  match w with
  | .field e => decide (e.val = 0)
  | .ptr p => decide (p = ⟨0, 0⟩)

end Sys2Proof.Machine
end

