-- ==== Sys2Proof/Machine/Update.lean ====
section
/-! DEFINITION. Stages 5 and 6 of a step: the opcode assertion and the next register values, all computed from the
registers the step began with (44_assert_update.md R130 to R149). -/

namespace Sys2Proof.Machine

/-- The assertion of AssertEq: res defined, then dst equal to it as Words (R131). -/
def assertEqual (l : Locals) : Result Unit :=
  match l.res with
  | none => .error .unconstrainedRes
  | some r => if l.dst = some r then .ok () else .error .diffAssertValues

/-- The assertion of Call: op0 is pc + size, then dst is fp (R132). -/
def assertCall (c : Config) (d : Decoded) (s : State) (l : Locals) : Result Unit := do
  let ret ← ptrAdd c s.pc d.size
  if l.op0 ≠ some (.ptr ret) then .error .invalidOp0ForCall
  else if l.dst ≠ some (.ptr s.fp) then .error .invalidDstForCall
  else .ok ()

/-- `assert_opcode` (R130, R133). -/
def assertOpcode (c : Config) (d : Decoded) (s : State) (l : Locals) : Result Unit :=
  match d.opcode with
  | .assertEq => assertEqual l
  | .call => assertCall c d s l
  | .ret => .ok ()
  | .noOp => .ok ()

/-- The next pc: Regular, Jump, JumpRel, Jnz (R136 to R139). An undefined operand takes the "else" error (D14); op1 is
looked at only when Jnz is taken. -/
def nextPc (c : Config) (d : Decoded) (s : State) (l : Locals) : Result Ptr :=
  match d.pcUpdate with
  | .regular => ptrAdd c s.pc d.size
  | .jump =>
    match l.res with
    | some (.ptr p) => .ok p
    | some (.field _) => .error .invalidJumpTarget
    | none => .error .invalidJumpTarget
  | .jumpRel =>
    match l.res with
    | some (.field e) => ptrAdd c s.pc e.val
    | some (.ptr _) => .error .invalidJumpRelTarget
    | none => .error .invalidJumpRelTarget
  | .jnz =>
    match l.dst with
    | none => .error .unconstrainedJnzDst
    | some v =>
      if isZero v then ptrAdd c s.pc d.size
      else
        match l.op1 with
        | some (.field e) => ptrAdd c s.pc e.val
        | some (.ptr _) => .error .invalidJnzOp1
        | none => .error .invalidJnzOp1

/-- The next ap: Regular, Add, Add1, Add2 (R141 to R144); Add needs a Field res (D12). -/
def nextAp (c : Config) (a : ApUpdate) (s : State) (res : Option Word) : Result Ptr :=
  match a with
  | .regular => .ok s.ap
  | .add =>
    match res with
    | none => .error .unconstrainedRes
    | some (.ptr _) => .error .typeMismatch
    | some (.field e) => ptrAdd c s.ap e.val
  | .add1 => ptrAdd c s.ap 1
  | .add2 => ptrAdd c s.ap 2

/-- The next fp: Regular, ApPlus2, Dst (R145 to R147). -/
def nextFp (c : Config) (u : FpUpdate) (s : State) (dst : Option Word) : Result Ptr :=
  match u with
  | .regular => .ok s.fp
  | .apPlus2 => ptrAdd c s.ap 2
  | .dst =>
    match dst with
    | some (.ptr p) => .ok p
    | some (.field _) => .error .invalidFpUpdate
    | none => .error .invalidFpUpdate

/-- With STRICT_OPERANDS, a step that reaches the commit with dst, op0 or op1 undefined faults (R123, R148, D15). -/
def strictCheck (c : Config) (l : Locals) : Result Unit :=
  if c.strictOperands && (l.dst.isNone || l.op0.isNone || l.op1.isNone) then .error .undefinedOperand else .ok ()

end Sys2Proof.Machine
end

