-- ==== Sys2Proof/Machine/Sequencer.lean ====
section
/-! DEFINITION. Unit U5: the stages of a step after decoding, in the order of 43_step_resolution.md R110. -/

namespace Sys2Proof.Machine

/-- Stages 2 to 7 of `step` for a decoded instruction (R110, R149): addresses, reads, cascade, assertion, pc', ap',
fp', the strict check, the commit. An error before the cascade leaves memory untouched; later ones leave the cascade's
inserts in place (R126, R176). The properties of R208 are properties of this function. -/
def sequence (c : Config) (d : Decoded) (s : State) : Except Fault State := do
  let x ← orAbort s (operandAddresses c d.toFields s)
  let r ← resolve c d x (readOperands s x) s
  orAbort r.2 (assertOpcode c d s r.1)
  let pc ← orAbort r.2 (nextPc c d s r.1)
  let ap ← orAbort r.2 (nextAp c d.apUpdate s r.1.res)
  let fp ← orAbort r.2 (nextFp c d.fpUpdate s r.1.dst)
  orAbort r.2 (strictCheck c r.1)
  .ok (commit r.2 pc ap fp)

/-- The outcome of a step's stages as the host reads it. -/
def toOutcome (r : Except Fault State) : Host.Outcome State Fault Refusal :=
  match r with
  | .ok s => .next s
  | .error e => .fault e

/-- What an instruction does, for any configuration (R110 stages 2 to 7). -/
def runDecoded (c : Config) (d : Decoded) (s : State) : Host.Outcome State Fault Refusal :=
  toOutcome (sequence c d s)

end Sys2Proof.Machine
end

