-- ==== Sys2Proof/Machine/AssertEq.lean ====
section
/-! DEFINITION. The four AssertEq instructions (45_instructions.md R162 to R165): dst = res(op0, op1) is enforced, the one absent cell
that can be deduced is written, fp is kept. -/

namespace Sys2Proof.Machine

/-- AEQ.REG (R162): assert or assign, then fall through. -/
def execAeqReg (f : Fields) (s : State) : Host.Outcome State Fault Refusal :=
  runDecoded Config.standard (f.decoded .assertEq .regular) s

/-- AEQ.JMP (R163): assert, then jump to res, which must be a Ptr. -/
def execAeqJmp (f : Fields) (s : State) : Host.Outcome State Fault Refusal :=
  runDecoded Config.standard (f.decoded .assertEq .jump) s

/-- AEQ.JREL (R164): assert, then jump relative by res, which must be a Field. -/
def execAeqJrel (f : Fields) (s : State) : Host.Outcome State Fault Refusal :=
  runDecoded Config.standard (f.decoded .assertEq .jumpRel) s

/-- AEQ.JNZ (R165): assert, then a relative transfer by op1 unless dst is zero; with res_logic Unconstrained it always
fails (R134). -/
def execAeqJnz (f : Fields) (s : State) : Host.Outcome State Fault Refusal :=
  runDecoded Config.standard (f.decoded .assertEq .jnz) s

end Sys2Proof.Machine
end

