-- ==== Sys2Proof/Machine/Call.lean ====
section
/-! DEFINITION. The four Call instructions (45_instructions.md R154 to R157): op0 is forced to the return address pc + size and dst to
the current fp, each written if its cell is Empty and checked if it is Filled; fp becomes ap + 2. -/

namespace Sys2Proof.Machine

/-- CALL.REG (R154): call that falls through. -/
def execCallReg (f : Fields) (s : State) : Host.Outcome State Fault Refusal :=
  runDecoded Config.standard (f.decoded .call .regular) s

/-- CALL.JMP (R155): call to the absolute address res, which must be a Ptr. -/
def execCallJmp (f : Fields) (s : State) : Host.Outcome State Fault Refusal :=
  runDecoded Config.standard (f.decoded .call .jump) s

/-- CALL.JREL (R156): call to the relative address pc + res; res must be a Field. -/
def execCallJrel (f : Fields) (s : State) : Host.Outcome State Fault Refusal :=
  runDecoded Config.standard (f.decoded .call .jumpRel) s

/-- CALL.JNZ (R157): call with a relative transfer by op1, taken unless fp is `Ptr(0,0)`. -/
def execCallJnz (f : Fields) (s : State) : Host.Outcome State Fault Refusal :=
  runDecoded Config.standard (f.decoded .call .jnz) s

end Sys2Proof.Machine
end

