-- ==== Sys2Proof/Machine/NoOp.lean ====
section
/-! DEFINITION. The four NoOp instructions (45_instructions.md R150 to R153): no deduction, so memory is not written; no assertion; fp is
kept. -/

namespace Sys2Proof.Machine

/-- NOP.REG (R150): no operation, with an optional ap adjustment; pc moves past the instruction. -/
def execNopReg (f : Fields) (s : State) : Host.Outcome State Fault Refusal :=
  runDecoded Config.standard (f.decoded .noOp .regular) s

/-- NOP.JMP (R151): absolute jump to res, which must be a Ptr. -/
def execNopJmp (f : Fields) (s : State) : Host.Outcome State Fault Refusal :=
  runDecoded Config.standard (f.decoded .noOp .jump) s

/-- NOP.JREL (R152): relative jump by res, which must be a Field; forward only. -/
def execNopJrel (f : Fields) (s : State) : Host.Outcome State Fault Refusal :=
  runDecoded Config.standard (f.decoded .noOp .jumpRel) s

/-- NOP.JNZ (R153): conditional relative jump: dst is tested, op1 is the displacement. -/
def execNopJnz (f : Fields) (s : State) : Host.Outcome State Fault Refusal :=
  runDecoded Config.standard (f.decoded .noOp .jnz) s

end Sys2Proof.Machine
end

