-- ==== Sys2Proof/Machine/Ret.lean ====
section
/-! DEFINITION. The four Ret instructions (45_instructions.md R158 to R161): no deduction, no assertion; fp becomes dst, which must be a
Ptr. -/

namespace Sys2Proof.Machine

/-- RET.REG (R158): restore fp and fall through. -/
def execRetReg (f : Fields) (s : State) : Host.Outcome State Fault Refusal :=
  runDecoded Config.standard (f.decoded .ret .regular) s

/-- RET.JMP (R159): return: restore fp and jump to res, which must be a Ptr. -/
def execRetJmp (f : Fields) (s : State) : Host.Outcome State Fault Refusal :=
  runDecoded Config.standard (f.decoded .ret .jump) s

/-- RET.JREL (R160): restore fp and jump relative by res, which must be a Field. -/
def execRetJrel (f : Fields) (s : State) : Host.Outcome State Fault Refusal :=
  runDecoded Config.standard (f.decoded .ret .jumpRel) s

/-- RET.JNZ (R161): restore fp with a relative transfer by op1, taken unless dst is zero. -/
def execRetJnz (f : Fields) (s : State) : Host.Outcome State Fault Refusal :=
  runDecoded Config.standard (f.decoded .ret .jnz) s

end Sys2Proof.Machine
end

