-- ==== Sys2Proof/Machine/Dispatch.lean ====
section
/-! DEFINITION. One arm per instruction of spec/opcode_table.json, in the table's order. -/

namespace Sys2Proof.Machine

def exec (i : Instr) (s : State) : Host.Outcome State Fault Refusal :=
  match i with
  | .nopReg f => Sys2Proof.Machine.execNopReg f s
  | .nopJmp f => Sys2Proof.Machine.execNopJmp f s
  | .nopJrel f => Sys2Proof.Machine.execNopJrel f s
  | .nopJnz f => Sys2Proof.Machine.execNopJnz f s
  | .callReg f => Sys2Proof.Machine.execCallReg f s
  | .callJmp f => Sys2Proof.Machine.execCallJmp f s
  | .callJrel f => Sys2Proof.Machine.execCallJrel f s
  | .callJnz f => Sys2Proof.Machine.execCallJnz f s
  | .retReg f => Sys2Proof.Machine.execRetReg f s
  | .retJmp f => Sys2Proof.Machine.execRetJmp f s
  | .retJrel f => Sys2Proof.Machine.execRetJrel f s
  | .retJnz f => Sys2Proof.Machine.execRetJnz f s
  | .aeqReg f => Sys2Proof.Machine.execAeqReg f s
  | .aeqJmp f => Sys2Proof.Machine.execAeqJmp f s
  | .aeqJrel f => Sys2Proof.Machine.execAeqJrel f s
  | .aeqJnz f => Sys2Proof.Machine.execAeqJnz f s

end Sys2Proof.Machine
end

