-- ==== Sys2Proof/Machine/Fetch.lean ====
section
/-! DEFINITION. Stage 1 of a step, the fetch (43_step_resolution.md R111, R112), and the placing of an instruction where
the next fetch reads it. -/

namespace Sys2Proof.Machine

/-- Fetch and decode: the Word at pc; an Empty cell is EndOfInstructions, a Ptr or a Field of 2^64 or more is
InstructionEncodingError, then the decoder's own errors (R111, R112). -/
def fetch (s : State) : Result Instr :=
  match Memory.get s.mem s.pc with
  | none => .error .endOfInstructions
  | some v => decodeCell v

/-- `s` with the instruction of bits `w` in the cell at pc, and with a zero immediate in the next cell when bits 52:50
ask for one (R50, R60, R66). A Filled cell exists only in an allocated segment (R33), so pc's segment counts as
allocated, and a fetch happens only after the launch (R196), so the registers count as written. Log 7. -/
def placeInstruction (s : State) (w : Nat) : State :=
  let m := Memory.put s.mem s.pc (instructionCell w)
  { s with
    mem := if bits (BitVec.ofNat 64 w) 52 50 = 1 then Memory.put m ⟨s.pc.seg, s.pc.off + 1⟩ (instructionCell 0) else m
    nseg := max s.nseg (s.pc.seg + 1)
    launched := true }

end Sys2Proof.Machine
end

