-- ==== Sys2Proof/Machine/Step.lean ====
section
/-! DEFINITION. The block's one run-time operation (43_step_resolution.md R110). -/

namespace Sys2Proof.Machine

/-- `step()`: fetch and decode, then run the instruction (R110). A fetch or decode error leaves the state as it is
(R112, R176). Before the launch there is no step (R196). -/
def step (s : State) : Host.Outcome State Fault Refusal :=
  whenLaunched s
    (match fetch s with
    | .error e => toOutcome (abort s e)
    | .ok i => exec i s)

/-- `s` with the instruction of bits `w`, `nbits` of them, where `step` fetches next. Log 7. -/
def State.withFetchWord (s : State) (nbits w : Nat) : State := placeInstruction s (w % 2 ^ nbits)

end Sys2Proof.Machine
end

