-- ==== Sys2Proof/Machine/HostOps.lean ====
section
/-! DEFINITION. The host surface (70_reset_and_hazards.md R191): everything the outside world can do to the block, each call
between steps (D28). At this level the block keeps no fault latch: after a failed step the next call sees the state the
fault left (60_exceptions.md R176, R179, D19). -/

namespace Sys2Proof.Machine

/-- Stages 1 to 7 of a step for any configuration (R110); for the standard one it is `step`. -/
def stepUnder (c : Config) (s : State) : Host.Outcome State Fault Refusal :=
  whenLaunched s
    (match fetch s with
    | .error e => toOutcome (abort s e)
    | .ok i => runDecoded c i.decoded s)

/-- A host call (the rows of the table of R191). -/
inductive HostCall where
  /-- `add_segment()` (R32). -/
  | addSegment
  /-- `load_data(addr, words)` (R37). -/
  | loadData (addr : Ptr) (words : List Word)
  /-- `insert(addr, word)` (R34). -/
  | insert (addr : Ptr) (word : Word)
  /-- `get(addr)` (R36). -/
  | get (addr : Ptr)
  /-- The register write, once, at launch, with PC0 and AP0 = FP0 (R191, R193). -/
  | launch (pc0 ap0 : Ptr)
  /-- Read pc. -/
  | readPc
  /-- Read ap. -/
  | readAp
  /-- Read fp. -/
  | readFp
  /-- Read STEPS. -/
  | readSteps
  /-- Read NSEG. -/
  | readNseg
  /-- `step()` (R110). -/
  | step
deriving DecidableEq, Repr

/-- What a host call returns. -/
inductive HostReply where
  /-- Ok with no value. -/
  | done
  /-- A pointer. -/
  | pointer (p : Ptr)
  /-- The contents of a cell, `none` for Empty. -/
  | contents (w : Option Word)
  /-- A counter. -/
  | count (n : Nat)
  /-- An error name (R170, R182). -/
  | failed (e : ErrorKind)
  /-- No such operation: a second register write (R191, R193) or a step before the first (R196). Nothing changes. -/
  | refused
deriving DecidableEq, Repr

/-- One host call: its reply and the state after it (R191). A failing call changes nothing except what `load_data` or
the cascade of a step had already inserted (R173, R176). -/
def hostCall (c : Config) (q : HostCall) (s : State) : HostReply × State :=
  match q with
  | .addSegment =>
    match Sys2Proof.Machine.addSegment c s with
    | .ok r => (.pointer r.1, r.2)
    | .error e => (.failed e, s)
  | .loadData a ws =>
    match Sys2Proof.Machine.loadData s a ws with
    | (.ok p, s') => (.pointer p, s')
    | (.error e, s') => (.failed e, s')
  | .insert a w =>
    match Sys2Proof.Machine.insert s a w with
    | .ok s' => (.done, s')
    | .error e => (.failed e, s)
  | .get a => (.contents (Memory.get s.mem a), s)
  | .launch pc0 ap0 =>
    match Sys2Proof.Machine.launch s pc0 ap0 with
    | some s' => (.done, s')
    | none => (.refused, s)
  | .readPc => (.pointer s.pc, s)
  | .readAp => (.pointer s.ap, s)
  | .readFp => (.pointer s.fp, s)
  | .readSteps => (.count s.steps, s)
  | .readNseg => (.count s.nseg, s)
  | .step =>
    match stepUnder c s with
    | .next s' => (.done, s')
    | .fault (.raised e s') => (.failed e, s')
    | .refused _ => (.refused, s)

/-- The state after a sequence of host calls, failed ones included (R207). -/
def hostCalls (c : Config) : List HostCall → State → State
  | [], s => s
  | q :: rest, s => hostCalls c rest (hostCall c q s).2

end Sys2Proof.Machine
end

