-- ==== Sys2Proof/Safety.lean ====
section
/-! DEFINITION. The terms in which claims speak about the machine: the parts of an outcome, the invariant of every reachable
state, growth of the memory, and when an instruction's operands let it complete. -/

namespace Sys2Proof.Machine

/-! The parts of an outcome. -/

/-- The next state, if there is one. -/
def nextOf (o : Host.Outcome State Fault Refusal) : Option State :=
  match o with
  | .next s => some s
  | .fault _ => none
  | .refused _ => none

/-- The error name, if the step faulted (R174: the name is all that is recorded). -/
def errorOf (o : Host.Outcome State Fault Refusal) : Option ErrorKind :=
  match o with
  | .fault (.raised e _) => some e
  | .next _ => none
  | .refused _ => none

/-- The state a fault left, if the step faulted (R176). -/
def leftOf (o : Host.Outcome State Fault Refusal) : Option State :=
  match o with
  | .fault (.raised _ s) => some s
  | .next _ => none
  | .refused _ => none

/-- `k` steps from `s` end in no fault and no refusal; the host's run treats any fault as final (D19). -/
def runsSafely (k : Nat) (s : State) : Prop := ∃ t : State, Host.Core.run Sys2Proof.core k s = .next t

/-! The invariant and the order on states. -/

/-- The memory is in canonical form and every Filled cell lies in an allocated segment (R33, R207). -/
abbrev State.inv (s : State) : Prop := Memory.wf s.mem ∧ ∀ cell ∈ s.mem, cell.1.seg < s.nseg

/-- Every Filled cell stays Filled with the same Word (R35, R207). -/
def Memory.grows (m m' : Memory) : Prop := ∀ a w, Memory.get m a = some w → Memory.get m' a = some w

/-- All of the state but its memory is the same: pc, ap, fp, NSEG and STEPS (R176), and whether there was a launch. -/
def sameRegs (s t : State) : Prop :=
  t.pc = s.pc ∧ t.ap = s.ap ∧ t.fp = s.fp ∧ t.nseg = s.nseg ∧ t.steps = s.steps ∧ t.launched = s.launched

/-- Every pointer the state holds, in a register, as a cell's address or in a cell, has an offset of at most `n`
(MAX_OFFSET, R8, D2). -/
def State.offsetsWithin (n : Nat) (s : State) : Prop :=
  s.pc.off ≤ n ∧ s.ap.off ≤ n ∧ s.fp.off ≤ n ∧
    ∀ cell ∈ s.mem, cell.1.off ≤ n ∧ ∀ p, cell.2 = .ptr p → p.off ≤ n

/-! When the operands of a Call let it complete (R132, R154 to R157). -/

/-- The memory with the cell at `a` filled with `w` if it is Empty. -/
def Memory.fill (m : Memory) (a : Ptr) (w : Word) : Memory :=
  match Memory.get m a with
  | some _ => m
  | none => Memory.put m a w

/-- The pointer past the instruction, `pc + size`, with offsets unbounded (R136, R88). -/
def pastInstr (f : Fields) (s : State) : Ptr := ⟨s.pc.seg, s.pc.off + f.size⟩

/-- The cell at `a` holds `w`, or is Empty in an allocated segment. -/
def cellAccepts (s : State) (a : Ptr) (w : Word) : Prop :=
  Memory.get s.mem a = some w ∨ (Memory.get s.mem a = none ∧ a.seg < s.nseg)

/-- The operand addresses exist, the op0 cell accepts `pc + size`, the dst cell accepts `fp`, and one Empty cell is not
asked to take two different words (R132, R198). -/
def CallReady (f : Fields) (s : State) (x : Addrs) : Prop :=
  operandAddresses Config.standard f s = .ok x ∧ cellAccepts s x.op0 (.ptr (pastInstr f s)) ∧
    cellAccepts s x.dst (.ptr s.fp) ∧
    (x.dst = x.op0 → Memory.get s.mem x.op0 = none → pastInstr f s = s.fp)

/-- The memory after a Call that completes: return address at op0, saved fp at dst. -/
def callMemory (f : Fields) (s : State) (x : Addrs) : Memory :=
  Memory.fill (Memory.fill s.mem x.op0 (.ptr (pastInstr f s))) x.dst (.ptr s.fp)

/-! When the operands of an AssertEq let it complete (R127, R131, R162). -/

/-- The ways the operand cells of an AssertEq settle: `v` is the common value of dst and res, `b` the local op1,
`fill` the one cell written, if any (the rows of R127). -/
inductive AeqSettles (f : Fields) (s : State) (x : Addrs) : (v b : Word) → (fill : Option Cell) → Prop where
  /-- All three cells Filled: a pure check. -/
  | check (v a b : Word) : Memory.get s.mem x.dst = some v → Memory.get s.mem x.op0 = some a →
      Memory.get s.mem x.op1 = some b → computeRes Config.standard f.resLogic a b = .ok (some v) →
      AeqSettles f s x v b none
  /-- dst Empty: it takes res. -/
  | assign (v a b : Word) : Memory.get s.mem x.dst = none → x.dst.seg < s.nseg → Memory.get s.mem x.op0 = some a →
      Memory.get s.mem x.op1 = some b → computeRes Config.standard f.resLogic a b = .ok (some v) →
      AeqSettles f s x v b (some (x.dst, v))
  /-- op0 Empty under Add: it takes dst − op1. -/
  | op0Add (v a b : Word) : f.resLogic = .add → Memory.get s.mem x.dst = some v → Memory.get s.mem x.op0 = none →
      x.op0.seg < s.nseg → Memory.get s.mem x.op1 = some b → wsub v b = .ok a →
      AeqSettles f s x v b (some (x.op0, a))
  /-- op0 Empty under Mul, op1 not Field 0: it takes dst / op1. -/
  | op0Mul (v a b : Word) : f.resLogic = .mul → Memory.get s.mem x.dst = some v → Memory.get s.mem x.op0 = none →
      x.op0.seg < s.nseg → Memory.get s.mem x.op1 = some b → b ≠ .field (felt 0) → wdiv v b = .ok a →
      AeqSettles f s x v b (some (x.op0, a))
  /-- op1 Empty under Op1: it takes dst; op0 is not needed. -/
  | op1Op1 (v : Word) : f.resLogic = .op1 → Memory.get s.mem x.dst = some v → Memory.get s.mem x.op1 = none →
      x.op1.seg < s.nseg → AeqSettles f s x v v (some (x.op1, v))
  /-- op1 Empty under Add: it takes dst − op0. -/
  | op1Add (v a b : Word) : f.resLogic = .add → Memory.get s.mem x.dst = some v → Memory.get s.mem x.op0 = some a →
      Memory.get s.mem x.op1 = none → x.op1.seg < s.nseg → wsub v a = .ok b →
      AeqSettles f s x v b (some (x.op1, b))
  /-- op1 Empty under Mul, op0 not Field 0: it takes dst / op0. -/
  | op1Mul (v a b : Word) : f.resLogic = .mul → Memory.get s.mem x.dst = some v → Memory.get s.mem x.op0 = some a →
      Memory.get s.mem x.op1 = none → x.op1.seg < s.nseg → a ≠ .field (felt 0) → wdiv v a = .ok b →
      AeqSettles f s x v b (some (x.op1, b))

/-- The memory after the one write-back of an AssertEq, if any. -/
def Memory.withCell (m : Memory) (fill : Option Cell) : Memory :=
  match fill with
  | none => m
  | some cell => Memory.put m cell.1 cell.2

/-- The cell a completing AssertEq writes: the first Empty one of dst, op1, op0 (R127). -/
def aeqTarget (s : State) (x : Addrs) : Option Ptr :=
  if Memory.get s.mem x.dst = none then some x.dst
  else if Memory.get s.mem x.op1 = none then some x.op1
  else if Memory.get s.mem x.op0 = none then some x.op0
  else none

/-! Which operands and which memory the register updates of an instruction see (R130 to R147). -/

/-- An instruction reaches the register updates: its address stage, cascade and assertion have passed, its locals dst,
op1 and res are the three given, and its write-backs have made the memory the one given (R110, R130). -/
inductive ReachesUpdate (i : Instr) (s : State) (x : Addrs) : (dst op1 res : Option Word) → (mem : Memory) → Prop where
  /-- NoOp and Ret: the cells as read, res computed forward where it can be; nothing is written (R127, R133). -/
  | plain (r : Option Word) : i.opcode = .noOp ∨ i.opcode = .ret → operandAddresses Config.standard i.fields s = .ok x →
      forwardRes Config.standard i.fields.resLogic (Memory.get s.mem x.op0) (Memory.get s.mem x.op1) = .ok r →
      ReachesUpdate i s x (Memory.get s.mem x.dst) (Memory.get s.mem x.op1) r s.mem
  /-- Call: the frame is written, dst is the old fp (R132). -/
  | call (r : Option Word) : i.opcode = .call → CallReady i.fields s x →
      forwardRes Config.standard i.fields.resLogic (some (.ptr (pastInstr i.fields s))) (Memory.get s.mem x.op1) = .ok r →
      ReachesUpdate i s x (some (.ptr s.fp)) (Memory.get s.mem x.op1) r (callMemory i.fields s x)
  /-- AssertEq: the operands have settled, dst and res are one Word (R131). -/
  | assertEq (v b : Word) (fill : Option Cell) : i.opcode = .assertEq →
      operandAddresses Config.standard i.fields s = .ok x → AeqSettles i.fields s x v b fill →
      ReachesUpdate i s x (some v) (some b) (some v) (Memory.withCell s.mem fill)

/-- The words a Call's local op0 can be: what its cell holds, or `pc + size` where the cell is Empty in an allocated
segment (R115, R116). -/
def callOp0 (f : Fields) (s : State) (x : Addrs) (w : Word) : Prop :=
  Memory.get s.mem x.op0 = some w ∨
    (Memory.get s.mem x.op0 = none ∧ x.op0.seg < s.nseg ∧ w = .ptr (pastInstr f s))

/-- All of dst, op0 and op1 are defined at the commit of a step that gets there: NoOp and Ret deduce nothing, Call
deduces all but op1, AssertEq all but an op0 that Op1 does not need (R115 to R123, R127). -/
def operandsDefined (d : Decoded) (s : State) (x : Addrs) : Prop :=
  match d.opcode with
  | .noOp => Memory.get s.mem x.dst ≠ none ∧ Memory.get s.mem x.op0 ≠ none ∧ Memory.get s.mem x.op1 ≠ none
  | .ret => Memory.get s.mem x.dst ≠ none ∧ Memory.get s.mem x.op0 ≠ none ∧ Memory.get s.mem x.op1 ≠ none
  | .call => Memory.get s.mem x.op1 ≠ none
  | .assertEq => d.resLogic = .op1 → Memory.get s.mem x.op0 ≠ none

/-! Which errors an instruction can end in. -/

/-- The errors that instruction rows can raise after decoding, by opcode and pc update: the address-stage errors, and
the marked cells of the table of R187. -/
def possibleErrors (o : Opcode) (u : PcUpdate) : List ErrorKind :=
  [.offsetUnderflow, .typeMismatch, .invalidImmOffset, .unconstrainedRes] ++
    (match o with
     | .noOp => []
     | .call => [.segmentOutOfBounds, .writeOnce, .invalidOp0ForCall, .invalidDstForCall]
     | .ret => [.invalidFpUpdate]
     | .assertEq => [.segmentOutOfBounds, .segmentMismatch, .diffAssertValues]) ++
    (match u with
     | .regular => []
     | .jump => [.invalidJumpTarget]
     | .jumpRel => [.invalidJumpRelTarget]
     | .jnz =>
       match o with
       | .noOp => [.invalidJnzOp1, .unconstrainedJnzDst]
       | .ret => [.invalidJnzOp1, .unconstrainedJnzDst]
       | .call => [.invalidJnzOp1]
       | .assertEq => [.invalidJnzOp1])

end Sys2Proof.Machine
end

