-- ==== Sys2Proof/Certificates/Slice0/Obligations.lean ====
section
/-! DEFINITION. The statements for the provers. Each docstring names the rules it formalises; "standard" is the
configuration of exec and step (unbounded offsets and segments, no strict check; log 3). -/

open Sys2Proof Sys2Proof.Machine

/-! Unit U1, the field ALU. -/

/-- R70: `felt(i)` is the one element of `[0, P)` congruent to the integer `i`. -/
def Obligations.FeltIsTheUniqueResidue : Prop :=
  ∀ (i : Int) (e : Felt), e = felt i ↔ (P : Int) ∣ i - (e.val : Int)

/-- R72, R73, R74: addition and subtraction wrap once, multiplication is the integer product reduced. -/
def Obligations.FieldAddSubMulWrapModuloP : Prop :=
  ∀ a b : Felt,
    (fadd a b).val = (if a.val + b.val < P then a.val + b.val else a.val + b.val - P) ∧
    (fsub a b).val = (if b.val ≤ a.val then a.val - b.val else a.val + P - b.val) ∧
    (fmul a b).val = a.val * b.val % P

/-- R75: the inverse exists exactly for non-zero elements, lies in `[1, P)`, and is unique. -/
def Obligations.FieldInverseIsUnique : Prop :=
  ∀ a : Felt,
    (a.val = 0 → finv a = .error .divisionByZero) ∧
    (a.val ≠ 0 → ∃ y : Felt, finv a = .ok y ∧ 1 ≤ y.val ∧ a.val * y.val % P = 1 ∧
      ∀ z : Felt, a.val * z.val % P = 1 → z = y)

/-- R76: division fails exactly on a zero divisor, is multiplication by the inverse, and undoes multiplication. -/
def Obligations.FieldDivisionUndoesMultiplication : Prop :=
  ∀ a b : Felt,
    (b.val = 0 → fdiv a b = .error .divisionByZero) ∧
    (b.val ≠ 0 → ∃ q y : Felt, finv b = .ok y ∧ fdiv a b = .ok q ∧ q = fmul a y ∧ fmul q b = a)

/-- R79: the field laws. -/
def Obligations.FieldLawsHold : Prop :=
  (∀ x : Felt, felt ((x.val : Int) + (P : Int)) = x ∧ fsub x x = felt 0 ∧
      (x.val ≠ 0 → ∃ y, finv x = .ok y ∧ fmul x y = felt 1)) ∧
    (∀ a b : Felt, fadd a b = fadd b a ∧ fmul a b = fmul b a ∧ fsub a b = fadd a (felt (-(b.val : Int))) ∧
      fdiv a b = (finv b).map (fmul a)) ∧
    (∀ a b d : Felt, fadd (fadd a b) d = fadd a (fadd b d) ∧ fmul (fmul a b) d = fmul a (fmul b d) ∧
      fmul a (fadd b d) = fadd (fmul a b) (fmul a d)) ∧
    (∀ a : Felt, fadd a (felt 0) = a ∧ fmul a (felt 1) = a)

/-! Unit U1b, the word ALU. -/

/-- R86, R87, R89 to R93: every operation on every pair of variants, for any configuration; Ptr + Field is an integer
sum that never wraps (R88). The spec's own choices D2 (finite MAX_OFFSET), D3 (integer sum), D4 (negative difference),
D5 (TypeMismatch for unlisted pairs) and D6 (variants before the zero test) decide its cells (log 4). -/
def Obligations.WordArithmeticTable : Prop :=
  ∀ (c : Config) (x y : Felt) (p q : Ptr),
    (wadd c (.field x) (.field y) = .ok (.field (fadd x y)) ∧
      (c.maxOffset = none → wadd c (.ptr p) (.field y) = .ok (.ptr ⟨p.seg, p.off + y.val⟩)) ∧
      (∀ m, c.maxOffset = some m → wadd c (.ptr p) (.field y) =
        if p.off + y.val ≤ m then .ok (.ptr ⟨p.seg, p.off + y.val⟩) else .error .capacityExceeded) ∧
      wadd c (.ptr p) (.ptr q) = .error .typeMismatch ∧ wadd c (.field x) (.ptr q) = .error .typeMismatch) ∧
    (wsub (.field x) (.field y) = .ok (.field (fsub x y)) ∧
      wsub (.ptr p) (.field y) =
        (if y.val > p.off then .error .offsetUnderflow else .ok (.ptr ⟨p.seg, p.off - y.val⟩)) ∧
      wsub (.ptr p) (.ptr q) =
        (if p.seg ≠ q.seg then .error .segmentMismatch else .ok (.field (felt ((p.off : Int) - (q.off : Int))))) ∧
      wsub (.field x) (.ptr q) = .error .typeMismatch) ∧
    (wmul (.field x) (.field y) = .ok (.field (fmul x y)) ∧ wmul (.ptr p) (.field y) = .error .typeMismatch ∧
      wmul (.ptr p) (.ptr q) = .error .typeMismatch ∧ wmul (.field x) (.ptr q) = .error .typeMismatch) ∧
    ((y.val = 0 → wdiv (.field x) (.field y) = .error .divisionByZero) ∧
      (y.val ≠ 0 → ∃ z, fdiv x y = .ok z ∧ wdiv (.field x) (.field y) = .ok (.field z)) ∧
      wdiv (.ptr p) (.field y) = .error .typeMismatch ∧ wdiv (.ptr p) (.ptr q) = .error .typeMismatch ∧
      wdiv (.field x) (.ptr q) = .error .typeMismatch)

/-- R95: no Word operation changes or computes a segment index, and none makes a Ptr out of Fields. -/
def Obligations.WordOperationsKeepTheSegment : Prop :=
  ∀ (c : Config) (a b : Word) (r : Ptr),
    (wadd c a b = .ok (.ptr r) ∨ wsub a b = .ok (.ptr r) ∨ wmul a b = .ok (.ptr r) ∨ wdiv a b = .ok (.ptr r)) →
      ∃ p : Ptr, a = .ptr p ∧ r.seg = p.seg

/-! Unit U4, the memory controller, and the host surface. -/

/-- R34: `insert` checks the segment, then the write-once rule, and fills only an Empty cell. That any offset of an
allocated segment may be filled is the spec's own choice D26 (log 4). -/
def Obligations.InsertFollowsTheWriteOnceRule : Prop :=
  ∀ (s : State) (a : Ptr) (w : Word),
    (s.nseg ≤ a.seg → Machine.insert s a w = .error .segmentOutOfBounds) ∧
    (a.seg < s.nseg → ∀ v, Memory.get s.mem a = some v →
      (v = w → Machine.insert s a w = .ok s) ∧ (v ≠ w → Machine.insert s a w = .error .writeOnce)) ∧
    (a.seg < s.nseg → Memory.get s.mem a = none → ∃ t, Machine.insert s a w = .ok t ∧ sameRegs s t ∧
      Memory.get t.mem a = some w ∧ ∀ b, b ≠ a → Memory.get t.mem b = Memory.get s.mem b)

/-- R32: `add_segment` returns `(NSEG, 0)`, adds one to NSEG and touches nothing else; a finite MAX_SEGMENTS that is
reached makes it fail. The finite bound and its error are the spec's own choice D2 (log 4). -/
def Obligations.AddSegmentAllocatesTheNext : Prop :=
  ∀ (c : Config) (s : State),
    (c.maxSegments = none → addSegment c s = .ok (⟨s.nseg, 0⟩, { s with nseg := s.nseg + 1 })) ∧
    (∀ m, c.maxSegments = some m → s.nseg < m → addSegment c s = .ok (⟨s.nseg, 0⟩, { s with nseg := s.nseg + 1 })) ∧
    (c.maxSegments = some s.nseg → addSegment c s = .error .capacityExceeded)

/-- R37: `load_data` inserts at consecutive offsets, ascending; on success it returns the address past the last word;
the first failing insert ends it, with the words before it inserted. The order, the stop at the first error and the
returned address are the spec's own choice D18 (log 4). -/
def Obligations.LoadDataFillsConsecutiveCells : Prop :=
  ∀ (s t : State) (a : Ptr) (ws : List Word),
    (∀ p, loadData s a ws = (.ok p, t) →
      p = ⟨a.seg, a.off + ws.length⟩ ∧ sameRegs s t ∧
      (∀ k w, ws[k]? = some w → Memory.get t.mem ⟨a.seg, a.off + k⟩ = some w) ∧
      (∀ b : Ptr, (∀ k, k < ws.length → b ≠ ⟨a.seg, a.off + k⟩) → Memory.get t.mem b = Memory.get s.mem b)) ∧
    (∀ e, loadData s a ws = (.error e, t) →
      ∃ k w, ws[k]? = some w ∧ loadData s a (ws.take k) = (.ok ⟨a.seg, a.off + k⟩, t) ∧
        Machine.insert t ⟨a.seg, a.off + k⟩ w = .error e)

/-- R35, the write-once law: once `insert(A, W)` has succeeded, after any host calls and steps, failed ones included,
a later `insert(A, W')` succeeds exactly when the words are equal; the cell still reads W, every Filled cell keeps its
word, and NSEG only grows. The law is the source's; the clauses after the equivalence are what the spec marks as
derived from it. -/
def Obligations.WriteOnceLaw : Prop :=
  ∀ (c : Config) (s t : State) (a : Ptr) (w w' : Word) (qs : List HostCall),
    Machine.insert s a w = .ok t →
    ((∃ u, Machine.insert (hostCalls c qs t) a w' = .ok u) ↔ w' = w) ∧ Memory.get (hostCalls c qs t).mem a = some w ∧
      Memory.grows t.mem (hostCalls c qs t).mem ∧ t.nseg ≤ (hostCalls c qs t).nseg

/-- R207: across any host calls and steps, successful or not, NSEG and STEPS never decrease, a Filled cell stays
Filled with the same Word, every Filled cell stays in an allocated segment, and a launch is never undone; a step adds
1 to STEPS when it succeeds, else 0. The spec marks R207 as derived; what STEPS counts is its own choice D22 (log 4);
that State records the launch is the model's (log 8). -/
def Obligations.HostCallsAndStepsOnlyGrow : Prop :=
  ∀ (c : Config) (s : State),
    (∀ qs, s.nseg ≤ (hostCalls c qs s).nseg ∧ s.steps ≤ (hostCalls c qs s).steps ∧
      Memory.grows s.mem (hostCalls c qs s).mem ∧ (s.inv → (hostCalls c qs s).inv) ∧
      (s.launched = true → (hostCalls c qs s).launched = true)) ∧
    (∀ t, hostCall c .step s = (.done, t) → t.steps = s.steps + 1) ∧
    (∀ e t, hostCall c .step s = (.failed e, t) → t.steps = s.steps)

/-- R18, R29, R173, R191, R193, R196, R199: every host call is its operation. add_segment, insert and load_data answer
and leave what that operation does, and a failing add_segment or insert changes nothing; get and the five reads answer
the cell or the register and change nothing; step answers with the state it reached or the error and the state the
fault left; a sequence of calls takes them in turn. The launch writes pc with PC0 and both ap and fp with AP0, and
nothing else of the spec's state; before it there is no step, after it no second launch, and no call but a step
changes a register. That a launch takes two pointers and that no step comes before it are the spec's own choices D17
and D16, what load_data answers is its D18 (log 4); that a call outside these bounds is refused and changes nothing is
the model's (log 8). -/
def Obligations.HostCallsAreTheirOperations : Prop :=
  ∀ (c : Config) (s : State),
    ((∀ p t, addSegment c s = .ok (p, t) → hostCall c .addSegment s = (.pointer p, t)) ∧
      (∀ e, addSegment c s = .error e → hostCall c .addSegment s = (.failed e, s))) ∧
    (∀ a w, (∀ t, Machine.insert s a w = .ok t → hostCall c (.insert a w) s = (.done, t)) ∧
      (∀ e, Machine.insert s a w = .error e → hostCall c (.insert a w) s = (.failed e, s))) ∧
    (∀ a ws t, (∀ p, loadData s a ws = (.ok p, t) → hostCall c (.loadData a ws) s = (.pointer p, t)) ∧
      (∀ e, loadData s a ws = (.error e, t) → hostCall c (.loadData a ws) s = (.failed e, t))) ∧
    ((∀ a, hostCall c (.get a) s = (.contents (Memory.get s.mem a), s)) ∧
      hostCall c .readPc s = (.pointer s.pc, s) ∧ hostCall c .readAp s = (.pointer s.ap, s) ∧
      hostCall c .readFp s = (.pointer s.fp, s) ∧ hostCall c .readSteps s = (.count s.steps, s) ∧
      hostCall c .readNseg s = (.count s.nseg, s)) ∧
    (∀ t, (stepUnder c s = .next t → hostCall c .step s = (.done, t)) ∧
      ∀ e, stepUnder c s = .fault (.raised e t) → hostCall c .step s = (.failed e, t)) ∧
    (hostCalls c [] s = s ∧ ∀ q qs, hostCalls c (q :: qs) s = hostCalls c qs (hostCall c q s).2) ∧
    (s.launched = false → stepUnder c s = .refused .notLaunched ∧ hostCall c .step s = (.refused, s) ∧
      ∀ pc0 ap0 : Ptr, hostCall c (.launch pc0 ap0) s =
        (.done, { s with pc := pc0, ap := ap0, fp := ap0, launched := true })) ∧
    (s.launched = true → (∀ pc0 ap0 : Ptr, hostCall c (.launch pc0 ap0) s = (.refused, s)) ∧
      ∀ q, q ≠ .step → (hostCall c q s).2.pc = s.pc ∧ (hostCall c q s).2.ap = s.ap ∧ (hostCall c q s).2.fp = s.fp)

/-! Invariants and reset. -/

/-- The memory keeps its canonical form and every Filled cell an allocated segment (R33, R207) over every step, and
over the state a fault leaves. The canonical form is the model's own (log 5). -/
def Obligations.StepKeepsTheInvariant : Prop :=
  ∀ s t : State, s.inv → (step s = .next t ∨ ∃ e, step s = .fault (.raised e t)) → t.inv

/-- R29, R190, R196: after reset MEM is empty, NSEG and STEPS are 0, so the invariant holds, and there is no step. The
registers' reset values are the model's (log 1) and are not stated. The three reset values stated and the absence of a
step are the spec's own choice D16 (log 4). -/
def Obligations.ResetIsEmptyAndMeetsTheInvariant : Prop :=
  State.reset.inv ∧ (∀ a, Memory.get State.reset.mem a = none) ∧ State.reset.nseg = 0 ∧ State.reset.steps = 0 ∧
    step State.reset = .refused .notLaunched

/-! Unit U2, the decoder. -/

/-- R63: decoding an encoded well-formed instruction gives it back, for all sixteen instructions and every operand.
The spec marks this as derived from R61. -/
def Obligations.DecodeOfEncodeIsTheInstruction : Prop :=
  ∀ i : Instr, i.wf = true → decode (encode i) = .ok i

/-- R63, R59: re-encoding what a word decodes to yields the word, and what decoding produces is well-formed. The spec
marks the form for every legal word as derived from R61. -/
def Obligations.EncodeOfDecodeIsTheWord : Prop :=
  ∀ (w : BitVec 64) (i : Instr), decode w = .ok i → encode i = w ∧ i.wf = true

/-- R62: a word decodes exactly when it is legal. That no combination of legal fields is refused is the spec's own
choice D27 (log 4). -/
def Obligations.LegalWordsAreThoseThatDecode : Prop :=
  ∀ w : BitVec 64, (∃ i, decode w = .ok i) ↔ legalWord w = true

/-- R61: the first bad field, in the order bit 63, op1_src, res_logic, pc_update, ap_update, opcode, gives the error.
The order is the spec's own choice D10 (log 4). -/
def Obligations.FirstBadFieldGivesTheDecodeError : Prop :=
  ∀ w : BitVec 64,
    (bits w 63 63 = 1 → decode w = .error .highBitSet) ∧
    (bits w 63 63 = 0 → bits w 52 50 ∉ [0, 1, 2, 4] → decode w = .error .invalidOp1Src) ∧
    (bits w 63 63 = 0 → bits w 52 50 ∈ [0, 1, 2, 4] → bits w 54 53 = 3 → decode w = .error .invalidResLogic) ∧
    (bits w 63 63 = 0 → bits w 52 50 ∈ [0, 1, 2, 4] → bits w 54 53 ≠ 3 → bits w 57 55 ∉ [0, 1, 2, 4] →
      decode w = .error .invalidPcUpdate) ∧
    (bits w 63 63 = 0 → bits w 52 50 ∈ [0, 1, 2, 4] → bits w 54 53 ≠ 3 → bits w 57 55 ∈ [0, 1, 2, 4] →
      bits w 59 58 = 3 → decode w = .error .invalidApUpdate) ∧
    (bits w 63 63 = 0 → bits w 52 50 ∈ [0, 1, 2, 4] → bits w 54 53 ≠ 3 → bits w 57 55 ∈ [0, 1, 2, 4] →
      bits w 59 58 ≠ 3 → bits w 62 60 ∉ [0, 1, 2, 4] → decode w = .error .invalidOpcode)

/-- The words E4, E5, E6 and E8 of 95_test_vectors.md part 2.4 and one word of several illegal fields, X17 (R51, R61).
X17's answer rests on the order of D10 (log 4). -/
def Obligations.SpecWordsDecodeAsListed : Prop :=
  decode 0x208b7fff7fff7ffe#64 = .ok (.retJmp ⟨-2, -1, -1, .fp, .fp, .fp, .op1, .regular⟩) ∧
  decode 0x49497fffffff0000#64 = .ok (.aeqJrel ⟨-32768, 32767, -1, .fp, .ap, .fp, .mul, .add1⟩) ∧
  decode 0x0210800080008000#64 = .ok (.nopJnz ⟨0, 0, 0, .ap, .ap, .ap, .unconstrained, .regular⟩) ∧
  decode 0x1010800080008000#64 = .ok (.callReg ⟨0, 0, 0, .ap, .ap, .ap, .op1, .add2⟩) ∧
  decode 0x7ffc800080008000#64 = .error .invalidOp1Src

/-! The step as a whole. -/

/-- R110, R111, R196: after the launch, where the cell at pc holds a Field below 2^64 that decodes, `step` is `exec`
of that instruction; before it there is no step (D16, log 4); the host's step at the standard configuration is the
same. Nothing else happens around `exec` on this hardware. The standard configuration is the model's choice among R8's
parameters (log 3). -/
def Obligations.StepRunsTheDecodedInstruction : Prop :=
  (∀ (s : State) (e : Felt) (i : Instr), s.launched = true → Memory.get s.mem s.pc = some (.field e) →
      e.val < 2 ^ 64 → decode (BitVec.ofNat 64 e.val) = .ok i → step s = exec i s) ∧
    (∀ s : State, s.launched = false → step s = .refused .notLaunched) ∧
    ∀ s : State, stepUnder Config.standard s = step s

/-- R111, R112: after the launch, the fetch errors, in order, and a decode error; each leaves the state as it is. The
error for a Field of 2^64 or more is the spec's own choice D7 (log 4). -/
def Obligations.FetchErrorsLeaveTheState : Prop :=
  ∀ s : State, s.launched = true →
    (Memory.get s.mem s.pc = none → step s = .fault (.raised .endOfInstructions s)) ∧
    (∀ p, Memory.get s.mem s.pc = some (.ptr p) → step s = .fault (.raised .instructionEncodingError s)) ∧
    (∀ e : Felt, Memory.get s.mem s.pc = some (.field e) → 2 ^ 64 ≤ e.val →
      step s = .fault (.raised .instructionEncodingError s)) ∧
    (∀ (e : Felt) (k : ErrorKind), Memory.get s.mem s.pc = some (.field e) → e.val < 2 ^ 64 →
      decode (BitVec.ofNat 64 e.val) = .error k → step s = .fault (.raised k s))

/-- R50, R63, R110: a well-formed instruction, encoded and placed at pc, is what the table's reading of its bits gives
and what the next step runs. How an instruction is placed at pc is the model's choice (log 7). -/
def Obligations.EncodedInstructionPlacedAtPcIsRun : Prop :=
  ∀ (i : Instr) (s : State), i.wf = true →
    decodeTableWord 64 (encode i).toNat = some i ∧
    step (s.withFetchWord 64 (encode i).toNat) = exec i (s.withFetchWord 64 (encode i).toNat)

/-! Operand forms and selectors. -/

/-- R101: an offset is added when it is not negative, and its absolute value subtracted when it is, with OffsetUnderflow
exactly when that is above the base's offset. -/
def Obligations.AddressesAreBasePlusOrMinusOffset : Prop :=
  (∀ (b : Ptr) (k : Int),
      (0 ≤ k → offsetBy Config.standard b k = .ok ⟨b.seg, b.off + k.natAbs⟩) ∧
      (k < 0 → k.natAbs ≤ b.off → offsetBy Config.standard b k = .ok ⟨b.seg, b.off - k.natAbs⟩) ∧
      (k < 0 → b.off < k.natAbs → offsetBy Config.standard b k = .error .offsetUnderflow)) ∧
    ∀ (s : State) (k : Int), computeAddress Config.standard s .ap k = offsetBy Config.standard s.ap k ∧
      computeAddress Config.standard s .fp k = offsetBy Config.standard s.fp k

/-- R102 to R108, R113: dst_addr comes from dst_reg and off_dst, op0_addr from op0_reg and off_op0, op1_addr from the
four sources: an op0 cell that is Empty or holds a Field is a TypeMismatch under Op0, and an offset other than 1 is an
InvalidImmOffset under Imm. The three are computed in the order dst, op0, op1, op1's at op0's; the first error is the
step's own and leaves the state as it is. InvalidImmOffset, the TypeMismatch of an Empty op0 cell and the order are
the spec's own choices D8, D9 and D13 (log 4). -/
def Obligations.OperandAddressesByTheirSources : Prop :=
  (∀ (f : Fields) (s : State) (a : Ptr),
    dstAddress Config.standard f s =
      offsetBy Config.standard (match f.dstReg with | .ap => s.ap | .fp => s.fp) f.offDst ∧
    op0Address Config.standard f s =
      offsetBy Config.standard (match f.op0Reg with | .ap => s.ap | .fp => s.fp) f.offOp0 ∧
    (f.op1Src = .op0 → ∀ b, Memory.get s.mem a = some (.ptr b) →
      op1Address Config.standard f s a = offsetBy Config.standard b f.offOp1) ∧
    (f.op1Src = .op0 → (∀ b, Memory.get s.mem a ≠ some (.ptr b)) →
      op1Address Config.standard f s a = .error .typeMismatch) ∧
    (f.op1Src = .imm → f.offOp1 = 1 → op1Address Config.standard f s a = .ok ⟨s.pc.seg, s.pc.off + 1⟩) ∧
    (f.op1Src = .imm → f.offOp1 ≠ 1 → op1Address Config.standard f s a = .error .invalidImmOffset) ∧
    (f.op1Src = .fp → op1Address Config.standard f s a = offsetBy Config.standard s.fp f.offOp1) ∧
    (f.op1Src = .ap → op1Address Config.standard f s a = offsetBy Config.standard s.ap f.offOp1)) ∧
  ∀ (i : Instr) (s : State),
    (∀ e, dstAddress Config.standard i.fields s = .error e → exec i s = .fault (.raised e s)) ∧
    (∀ d e, dstAddress Config.standard i.fields s = .ok d → op0Address Config.standard i.fields s = .error e →
      exec i s = .fault (.raised e s)) ∧
    (∀ d a e, dstAddress Config.standard i.fields s = .ok d → op0Address Config.standard i.fields s = .ok a →
      op1Address Config.standard i.fields s a = .error e → exec i s = .fault (.raised e s)) ∧
    (∀ d a b, dstAddress Config.standard i.fields s = .ok d → op0Address Config.standard i.fields s = .ok a →
      op1Address Config.standard i.fields s a = .ok b →
      operandAddresses Config.standard i.fields s = .ok { dst := d, op0 := a, op1 := b })

/-- R119, R141 to R144: res by res_logic, only with both operands defined, and the next ap by ap_update. That Op1 also
needs op0, and the errors of an ap update by no Field, are the spec's own choices D29 and D12; the sum with ap is D3
(log 4). -/
def Obligations.ResAndNextApByTheirSelectors : Prop :=
  (∀ a b : Word,
      forwardRes Config.standard .op1 (some a) (some b) = .ok (some b) ∧
      forwardRes Config.standard .add (some a) (some b) = (wadd Config.standard a b).map some ∧
      forwardRes Config.standard .mul (some a) (some b) = (wmul a b).map some ∧
      forwardRes Config.standard .unconstrained (some a) (some b) = .ok none) ∧
    (∀ (r : ResLogic) (o : Option Word),
      forwardRes Config.standard r none o = .ok none ∧ forwardRes Config.standard r o none = .ok none) ∧
    (∀ (s : State) (o : Option Word) (e : Felt) (p : Ptr),
      nextAp Config.standard .regular s o = .ok s.ap ∧
      nextAp Config.standard .add s none = .error .unconstrainedRes ∧
      nextAp Config.standard .add s (some (.ptr p)) = .error .typeMismatch ∧
      nextAp Config.standard .add s (some (.field e)) = .ok ⟨s.ap.seg, s.ap.off + e.val⟩ ∧
      nextAp Config.standard .add1 s o = .ok ⟨s.ap.seg, s.ap.off + 1⟩ ∧
      nextAp Config.standard .add2 s o = .ok ⟨s.ap.seg, s.ap.off + 2⟩)

/-- R60, R136 to R139, R145 to R147: the size is 2 cells with op1_src Imm and else 1; the next pc by pc_update and the
next fp by fp_update, every operand present or absent. That an undefined operand takes the error of a wrong variant is
the spec's own choice D14; the sum with pc is D3 (log 4). -/
def Obligations.NextPcAndFpByTheirSelectors : Prop :=
  (∀ (f : Fields) (s : State),
    (f.op1Src = .imm → f.size = 2 ∧ pastInstr f s = ⟨s.pc.seg, s.pc.off + 2⟩) ∧
    (f.op1Src ≠ .imm → f.size = 1 ∧ pastInstr f s = ⟨s.pc.seg, s.pc.off + 1⟩)) ∧
  ∀ (d : Decoded) (s : State) (l : Locals),
    (d.pcUpdate = .regular → nextPc Config.standard d s l = .ok ⟨s.pc.seg, s.pc.off + d.size⟩) ∧
    (d.pcUpdate = .jump → nextPc Config.standard d s l =
      match l.res with | some (.ptr p) => .ok p | _ => .error .invalidJumpTarget) ∧
    (d.pcUpdate = .jumpRel → nextPc Config.standard d s l =
      match l.res with | some (.field e) => .ok ⟨s.pc.seg, s.pc.off + e.val⟩ | _ => .error .invalidJumpRelTarget) ∧
    (d.pcUpdate = .jnz → l.dst = none → nextPc Config.standard d s l = .error .unconstrainedJnzDst) ∧
    (∀ v, d.pcUpdate = .jnz → l.dst = some v → isZero v = true →
      nextPc Config.standard d s l = .ok ⟨s.pc.seg, s.pc.off + d.size⟩) ∧
    (∀ v, d.pcUpdate = .jnz → l.dst = some v → isZero v = false → nextPc Config.standard d s l =
      match l.op1 with | some (.field e) => .ok ⟨s.pc.seg, s.pc.off + e.val⟩ | _ => .error .invalidJnzOp1) ∧
    nextFp Config.standard .regular s l.dst = .ok s.fp ∧
    nextFp Config.standard .apPlus2 s l.dst = .ok ⟨s.ap.seg, s.ap.off + 2⟩ ∧
    nextFp Config.standard .dst s l.dst = (match l.dst with | some (.ptr p) => .ok p | _ => .error .invalidFpUpdate)

/-- R140: the Jnz zero test is true exactly for `Field(0)` and `Ptr(0,0)`. -/
def Obligations.ZeroTestIsFieldZeroOrPtrZero : Prop :=
  ∀ w : Word, isZero w = true ↔ w = .field (felt 0) ∨ w = .ptr ⟨0, 0⟩

/-! The NoOp instructions: each completes with this next state. The memory is not written (R48). -/

/-- R150. NOP.REG moves pc past the instruction and adjusts ap; operands may be absent (R123). -/
def Obligations.NopRegCompletes : Prop :=
  ∀ (f : Fields) (s : State) (x : Addrs) (r : Option Word) (ap : Ptr),
    operandAddresses Config.standard f s = .ok x →
    forwardRes Config.standard f.resLogic (Memory.get s.mem x.op0) (Memory.get s.mem x.op1) = .ok r →
    nextAp Config.standard f.apUpdate s r = .ok ap →
    exec (.nopReg f) s = .next { s with pc := pastInstr f s, ap := ap, steps := s.steps + 1 }

/-- R151. NOP.JMP jumps to a Ptr res. -/
def Obligations.NopJmpCompletes : Prop :=
  ∀ (f : Fields) (s : State) (x : Addrs) (p ap : Ptr),
    operandAddresses Config.standard f s = .ok x →
    forwardRes Config.standard f.resLogic (Memory.get s.mem x.op0) (Memory.get s.mem x.op1) = .ok (some (.ptr p)) →
    nextAp Config.standard f.apUpdate s (some (.ptr p)) = .ok ap →
    exec (.nopJmp f) s = .next { s with pc := p, ap := ap, steps := s.steps + 1 }

/-- R152. NOP.JREL adds a Field res to pc as an integer. -/
def Obligations.NopJrelCompletes : Prop :=
  ∀ (f : Fields) (s : State) (x : Addrs) (e : Felt) (ap : Ptr),
    operandAddresses Config.standard f s = .ok x →
    forwardRes Config.standard f.resLogic (Memory.get s.mem x.op0) (Memory.get s.mem x.op1) = .ok (some (.field e)) →
    nextAp Config.standard f.apUpdate s (some (.field e)) = .ok ap →
    exec (.nopJrel f) s = .next { s with pc := ⟨s.pc.seg, s.pc.off + e.val⟩, ap := ap, steps := s.steps + 1 }

/-- R153. NOP.JNZ falls through when dst is zero, op1 unexamined, and adds a Field op1 to pc when it is not. -/
def Obligations.NopJnzCompletes : Prop :=
  ∀ (f : Fields) (s : State) (x : Addrs) (v : Word) (r : Option Word) (ap : Ptr),
    operandAddresses Config.standard f s = .ok x →
    Memory.get s.mem x.dst = some v →
    forwardRes Config.standard f.resLogic (Memory.get s.mem x.op0) (Memory.get s.mem x.op1) = .ok r →
    nextAp Config.standard f.apUpdate s r = .ok ap →
    (isZero v = true → exec (.nopJnz f) s = .next { s with pc := pastInstr f s, ap := ap, steps := s.steps + 1 }) ∧
    (∀ e : Felt, isZero v = false → Memory.get s.mem x.op1 = some (.field e) →
      exec (.nopJnz f) s = .next { s with pc := ⟨s.pc.seg, s.pc.off + e.val⟩, ap := ap, steps := s.steps + 1 })

/-! The Call instructions: return address at op0, saved fp at dst, fp becomes ap + 2. -/

/-- R154. CALL.REG falls through. -/
def Obligations.CallRegCompletes : Prop :=
  ∀ (f : Fields) (s : State) (x : Addrs) (r : Option Word) (ap : Ptr),
    CallReady f s x →
    forwardRes Config.standard f.resLogic (some (.ptr (pastInstr f s))) (Memory.get s.mem x.op1) = .ok r →
    nextAp Config.standard f.apUpdate s r = .ok ap →
    exec (.callReg f) s = .next { s with
      pc := pastInstr f s, ap := ap, fp := ⟨s.ap.seg, s.ap.off + 2⟩, mem := callMemory f s x, steps := s.steps + 1 }

/-- R155. CALL.JMP jumps to a Ptr res. -/
def Obligations.CallJmpCompletes : Prop :=
  ∀ (f : Fields) (s : State) (x : Addrs) (p ap : Ptr),
    CallReady f s x →
    forwardRes Config.standard f.resLogic (some (.ptr (pastInstr f s))) (Memory.get s.mem x.op1)
      = .ok (some (.ptr p)) →
    nextAp Config.standard f.apUpdate s (some (.ptr p)) = .ok ap →
    exec (.callJmp f) s = .next { s with
      pc := p, ap := ap, fp := ⟨s.ap.seg, s.ap.off + 2⟩, mem := callMemory f s x, steps := s.steps + 1 }

/-- R156. CALL.JREL adds a Field res to pc. -/
def Obligations.CallJrelCompletes : Prop :=
  ∀ (f : Fields) (s : State) (x : Addrs) (e : Felt) (ap : Ptr),
    CallReady f s x →
    forwardRes Config.standard f.resLogic (some (.ptr (pastInstr f s))) (Memory.get s.mem x.op1)
      = .ok (some (.field e)) →
    nextAp Config.standard f.apUpdate s (some (.field e)) = .ok ap →
    exec (.callJrel f) s = .next { s with
      pc := ⟨s.pc.seg, s.pc.off + e.val⟩, ap := ap, fp := ⟨s.ap.seg, s.ap.off + 2⟩, mem := callMemory f s x,
      steps := s.steps + 1 }

/-- R157. CALL.JNZ falls through exactly when fp is `Ptr(0,0)`, and else adds a Field op1 to pc. -/
def Obligations.CallJnzCompletes : Prop :=
  ∀ (f : Fields) (s : State) (x : Addrs) (r : Option Word) (ap : Ptr),
    CallReady f s x →
    forwardRes Config.standard f.resLogic (some (.ptr (pastInstr f s))) (Memory.get s.mem x.op1) = .ok r →
    nextAp Config.standard f.apUpdate s r = .ok ap →
    (s.fp = ⟨0, 0⟩ → exec (.callJnz f) s = .next { s with
      pc := pastInstr f s, ap := ap, fp := ⟨s.ap.seg, s.ap.off + 2⟩, mem := callMemory f s x,
      steps := s.steps + 1 }) ∧
    (∀ e : Felt, s.fp ≠ ⟨0, 0⟩ → Memory.get s.mem x.op1 = some (.field e) → exec (.callJnz f) s = .next { s with
      pc := ⟨s.pc.seg, s.pc.off + e.val⟩, ap := ap, fp := ⟨s.ap.seg, s.ap.off + 2⟩, mem := callMemory f s x,
      steps := s.steps + 1 })

/-! The Ret instructions: fp becomes the Ptr in the dst cell; the memory is not written. -/

/-- R158. RET.REG falls through. -/
def Obligations.RetRegCompletes : Prop :=
  ∀ (f : Fields) (s : State) (x : Addrs) (r : Option Word) (ap q : Ptr),
    operandAddresses Config.standard f s = .ok x →
    Memory.get s.mem x.dst = some (.ptr q) →
    forwardRes Config.standard f.resLogic (Memory.get s.mem x.op0) (Memory.get s.mem x.op1) = .ok r →
    nextAp Config.standard f.apUpdate s r = .ok ap →
    exec (.retReg f) s = .next { s with pc := pastInstr f s, ap := ap, fp := q, steps := s.steps + 1 }

/-- R159. RET.JMP returns to a Ptr res. -/
def Obligations.RetJmpCompletes : Prop :=
  ∀ (f : Fields) (s : State) (x : Addrs) (p ap q : Ptr),
    operandAddresses Config.standard f s = .ok x →
    Memory.get s.mem x.dst = some (.ptr q) →
    forwardRes Config.standard f.resLogic (Memory.get s.mem x.op0) (Memory.get s.mem x.op1) = .ok (some (.ptr p)) →
    nextAp Config.standard f.apUpdate s (some (.ptr p)) = .ok ap →
    exec (.retJmp f) s = .next { s with pc := p, ap := ap, fp := q, steps := s.steps + 1 }

/-- R160. RET.JREL adds a Field res to pc. -/
def Obligations.RetJrelCompletes : Prop :=
  ∀ (f : Fields) (s : State) (x : Addrs) (e : Felt) (ap q : Ptr),
    operandAddresses Config.standard f s = .ok x →
    Memory.get s.mem x.dst = some (.ptr q) →
    forwardRes Config.standard f.resLogic (Memory.get s.mem x.op0) (Memory.get s.mem x.op1) = .ok (some (.field e)) →
    nextAp Config.standard f.apUpdate s (some (.field e)) = .ok ap →
    exec (.retJrel f) s = .next { s with
      pc := ⟨s.pc.seg, s.pc.off + e.val⟩, ap := ap, fp := q, steps := s.steps + 1 }

/-- R161. RET.JNZ falls through exactly when the restored fp is `Ptr(0,0)`, and else adds a Field op1 to pc. -/
def Obligations.RetJnzCompletes : Prop :=
  ∀ (f : Fields) (s : State) (x : Addrs) (r : Option Word) (ap q : Ptr),
    operandAddresses Config.standard f s = .ok x →
    Memory.get s.mem x.dst = some (.ptr q) →
    forwardRes Config.standard f.resLogic (Memory.get s.mem x.op0) (Memory.get s.mem x.op1) = .ok r →
    nextAp Config.standard f.apUpdate s r = .ok ap →
    (q = ⟨0, 0⟩ → exec (.retJnz f) s = .next { s with
      pc := pastInstr f s, ap := ap, fp := q, steps := s.steps + 1 }) ∧
    (∀ e : Felt, q ≠ ⟨0, 0⟩ → Memory.get s.mem x.op1 = some (.field e) → exec (.retJnz f) s = .next { s with
      pc := ⟨s.pc.seg, s.pc.off + e.val⟩, ap := ap, fp := q, steps := s.steps + 1 })

/-! The AssertEq instructions: the relation holds or the one absent cell is deduced and written. -/

/-- R162. AEQ.REG falls through. -/
def Obligations.AeqRegCompletes : Prop :=
  ∀ (f : Fields) (s : State) (x : Addrs) (v b : Word) (fill : Option Cell) (ap : Ptr),
    operandAddresses Config.standard f s = .ok x → AeqSettles f s x v b fill →
    nextAp Config.standard f.apUpdate s (some v) = .ok ap →
    exec (.aeqReg f) s = .next { s with
      pc := pastInstr f s, ap := ap, mem := Memory.withCell s.mem fill, steps := s.steps + 1 }

/-- R163. AEQ.JMP jumps to res, a Ptr. -/
def Obligations.AeqJmpCompletes : Prop :=
  ∀ (f : Fields) (s : State) (x : Addrs) (p : Ptr) (b : Word) (fill : Option Cell) (ap : Ptr),
    operandAddresses Config.standard f s = .ok x → AeqSettles f s x (.ptr p) b fill →
    nextAp Config.standard f.apUpdate s (some (.ptr p)) = .ok ap →
    exec (.aeqJmp f) s = .next { s with
      pc := p, ap := ap, mem := Memory.withCell s.mem fill, steps := s.steps + 1 }

/-- R164. AEQ.JREL adds res, a Field, to pc. -/
def Obligations.AeqJrelCompletes : Prop :=
  ∀ (f : Fields) (s : State) (x : Addrs) (e : Felt) (b : Word) (fill : Option Cell) (ap : Ptr),
    operandAddresses Config.standard f s = .ok x → AeqSettles f s x (.field e) b fill →
    nextAp Config.standard f.apUpdate s (some (.field e)) = .ok ap →
    exec (.aeqJrel f) s = .next { s with
      pc := ⟨s.pc.seg, s.pc.off + e.val⟩, ap := ap, mem := Memory.withCell s.mem fill, steps := s.steps + 1 }

/-- R165. AEQ.JNZ falls through when dst is zero and else adds a Field op1, given or deduced, to pc. -/
def Obligations.AeqJnzCompletes : Prop :=
  ∀ (f : Fields) (s : State) (x : Addrs) (v b : Word) (fill : Option Cell) (ap : Ptr),
    operandAddresses Config.standard f s = .ok x → AeqSettles f s x v b fill →
    nextAp Config.standard f.apUpdate s (some v) = .ok ap →
    (isZero v = true → exec (.aeqJnz f) s = .next { s with
      pc := pastInstr f s, ap := ap, mem := Memory.withCell s.mem fill, steps := s.steps + 1 }) ∧
    (∀ e : Felt, isZero v = false → b = .field e → exec (.aeqJnz f) s = .next { s with
      pc := ⟨s.pc.seg, s.pc.off + e.val⟩, ap := ap, mem := Memory.withCell s.mem fill, steps := s.steps + 1 })

/-! Frames: what an instruction leaves unchanged whenever it gives a next state. -/

/-- R48, R145, R148: NOP.REG, NOP.JMP, NOP.JREL and NOP.JNZ change pc, ap and STEPS only; every cell reads as before. -/
def Obligations.NoOpFrame : Prop :=
  ∀ (i : Instr) (s t : State), i.opcode = .noOp → exec i s = .next t →
    t.fp = s.fp ∧ t.nseg = s.nseg ∧ t.launched = s.launched ∧ t.steps = s.steps + 1 ∧
    ∀ a, Memory.get t.mem a = Memory.get s.mem a

/-- R48, R147, R148: RET.REG, RET.JMP, RET.JREL and RET.JNZ change pc, ap, fp and STEPS only; fp becomes the Ptr in
the dst cell; every cell reads as before. -/
def Obligations.RetFrame : Prop :=
  ∀ (i : Instr) (s t : State), i.opcode = .ret → exec i s = .next t →
    (∃ a, dstAddress Config.standard i.fields s = .ok a ∧ Memory.get s.mem a = some (.ptr t.fp)) ∧
    t.nseg = s.nseg ∧ t.launched = s.launched ∧ t.steps = s.steps + 1 ∧ ∀ a, Memory.get t.mem a = Memory.get s.mem a

/-- R132, R146, R148, R208: CALL.REG, CALL.JMP, CALL.JREL and CALL.JNZ leave `pc + size` at op0 and the old fp at dst,
set fp to ap + 2, and leave every other cell and NSEG as they were. -/
def Obligations.CallFrame : Prop :=
  ∀ (i : Instr) (s t : State), i.opcode = .call → exec i s = .next t →
    t.fp = ⟨s.ap.seg, s.ap.off + 2⟩ ∧ t.nseg = s.nseg ∧ t.launched = s.launched ∧ t.steps = s.steps + 1 ∧
    ∃ d a, dstAddress Config.standard i.fields s = .ok d ∧ op0Address Config.standard i.fields s = .ok a ∧
      Memory.get t.mem a = some (.ptr (pastInstr i.fields s)) ∧ Memory.get t.mem d = some (.ptr s.fp) ∧
      ∀ b, b ≠ d → b ≠ a → Memory.get t.mem b = Memory.get s.mem b

/-- R127, R145, R148, R208: AEQ.REG, AEQ.JMP, AEQ.JREL and AEQ.JNZ leave fp and NSEG as they were, leave dst Filled, and
write at most one cell, the first Empty one of dst, op1 and op0; every other cell reads as before. -/
def Obligations.AeqFrame : Prop :=
  ∀ (i : Instr) (s t : State), i.opcode = .assertEq → exec i s = .next t →
    t.fp = s.fp ∧ t.nseg = s.nseg ∧ t.launched = s.launched ∧ t.steps = s.steps + 1 ∧
    ∃ x, operandAddresses Config.standard i.fields s = .ok x ∧ (∃ v, Memory.get t.mem x.dst = some v) ∧
      (∀ b, aeqTarget s x = some b → Memory.get s.mem b = none ∧ ∃ w, Memory.get t.mem b = some w) ∧
      ∀ b, aeqTarget s x ≠ some b → Memory.get t.mem b = Memory.get s.mem b

/-- R127, R131, R132, R149, R208: an instruction of any opcode completes only by reaching the register updates and
only by the transition of its selectors there. The memory is the old one with its write-backs: none for NoOp and Ret,
the frame for a Call, for an AssertEq the one cell of the way of R127 in which its operands settle; pc, ap and fp are
the three next values; after an AssertEq the dst cell holds the word that is res. The spec marks the additional
properties of R208 as derived. -/
def Obligations.CompletesOnlyByItsTransition : Prop :=
  ∀ (i : Instr) (s t : State), exec i s = .next t →
    ∃ x dst op0 op1 res m, ReachesUpdate i s x dst op1 res m ∧ t.mem = m ∧
      nextPc Config.standard i.decoded s { dst := dst, op0 := op0, op1 := op1, res := res } = .ok t.pc ∧
      nextAp Config.standard i.fields.apUpdate s res = .ok t.ap ∧
      nextFp Config.standard (fpUpdateOf i.opcode) s dst = .ok t.fp ∧
      (i.opcode = .assertEq → ∃ v, res = some v ∧ Memory.get t.mem x.dst = some v)

/-- R201, R202, R208: in every completed instruction ap keeps its segment and never moves back; pc keeps its segment
and never moves back unless pc_update is Jump; fp stays except in Call and Ret. The spec marks R202 as a consequence
of its own choice D3 (log 4). -/
def Obligations.RegistersMoveForward : Prop :=
  ∀ (i : Instr) (s t : State), exec i s = .next t →
    t.ap.seg = s.ap.seg ∧ s.ap.off ≤ t.ap.off ∧
    (i.pcUpdate ≠ .jump → t.pc.seg = s.pc.seg ∧ s.pc.off ≤ t.pc.off) ∧
    (i.opcode = .call → t.fp.seg = s.ap.seg) ∧ (i.opcode = .noOp ∨ i.opcode = .assertEq → t.fp = s.fp)

/-! Faults. -/

/-- R126, R176, R178: a step that faults leaves pc, ap, fp, NSEG and STEPS as they were, keeps every Filled cell, and
has written at most cells at the operand addresses; a faulting NoOp or Ret has written nothing. Every insert made
before the fault stays: an instruction that faults at the register updates leaves the memory with its write-backs
done, and a Call that faults at all leaves the return address it put at op0, and the fp it put at dst. The source lets
the writes persist or not; that they stay is how the spec settles it (U4 of 93_implementation_defined.md, log 4). -/
def Obligations.FaultLeavesRegistersAndKeepsWrites : Prop :=
  (∀ (s t : State) (e : ErrorKind), step s = .fault (.raised e t) →
      sameRegs s t ∧ Memory.grows s.mem t.mem ∧
      (t = s ∨ ∃ i x, fetch s = .ok i ∧ operandAddresses Config.standard i.fields s = .ok x ∧
        ∀ a, a ≠ x.dst → a ≠ x.op0 → a ≠ x.op1 → Memory.get t.mem a = Memory.get s.mem a)) ∧
    (∀ (i : Instr) (s t : State) (e : ErrorKind), i.opcode = .noOp ∨ i.opcode = .ret →
      exec i s = .fault (.raised e t) → t = s) ∧
    (∀ (i : Instr) (s t : State) (e : ErrorKind) (x : Addrs) (dst op1 res : Option Word) (m : Memory),
      exec i s = .fault (.raised e t) → ReachesUpdate i s x dst op1 res m → t.mem = m) ∧
    ∀ (i : Instr) (s t : State) (e : ErrorKind) (x : Addrs), i.opcode = .call → exec i s = .fault (.raised e t) →
      operandAddresses Config.standard i.fields s = .ok x →
      (Memory.get s.mem x.op0 = none → x.op0.seg < s.nseg →
        Memory.get t.mem x.op0 = some (.ptr (pastInstr i.fields s))) ∧
      (∀ w r, callOp0 i.fields s x w → Memory.get s.mem x.dst = none → x.dst.seg < s.nseg → x.dst ≠ x.op0 →
        forwardRes Config.standard i.fields.resLogic (some w) (Memory.get s.mem x.op1) = .ok r →
        Memory.get t.mem x.dst = some (.ptr s.fp))

/-- R187: an instruction row can end in no error but those the table marks for it and those of the address stage. The
spec marks the table of R187 as derived. -/
def Obligations.ErrorsAreThoseOfTheTable : Prop :=
  ∀ (i : Instr) (s t : State) (e : ErrorKind), exec i s = .fault (.raised e t) → e ∈ possibleErrors i.opcode i.pcUpdate

/-- R125: DivisionByZero is never the result of a step, for any configuration. The spec marks R125 as derived. -/
def Obligations.DivisionByZeroNeverEndsAStep : Prop :=
  ∀ (c : Config) (s t : State), stepUnder c s ≠ .fault (.raised .divisionByZero t)

/-- R198: after the launch a step ends in WriteOnce exactly for a Call whose dst and op0 are one Empty cell of an
allocated segment, with `pc + size ≠ fp` and res computed without error; the return address stays in the cell. The
spec marks the cases of R198 as derived; that operands are read once is its own choice D25 (log 4). -/
def Obligations.WriteOnceOnlyFromAnAliasedCall : Prop :=
  ∀ s t : State, step s = .fault (.raised .writeOnce t) ↔ s.launched = true ∧
    ∃ i x r, fetch s = .ok i ∧ i.opcode = .call ∧ operandAddresses Config.standard i.fields s = .ok x ∧
      x.dst = x.op0 ∧ Memory.get s.mem x.op0 = none ∧ x.op0.seg < s.nseg ∧ pastInstr i.fields s ≠ s.fp ∧
      forwardRes Config.standard i.fields.resLogic (some (.ptr (pastInstr i.fields s))) (Memory.get s.mem x.op1)
        = .ok r ∧
      t = { s with mem := Memory.put s.mem x.op0 (.ptr (pastInstr i.fields s)) }

/-- R134: an AEQ.JNZ whose res_logic is Unconstrained always fails with UnconstrainedRes once its addresses exist, and
changes nothing. The spec marks this part of R134 as derived. -/
def Obligations.AeqJnzUnconstrainedAlwaysFails : Prop :=
  ∀ (f : Fields) (s : State) (x : Addrs), f.resLogic = .unconstrained →
    operandAddresses Config.standard f s = .ok x →
    exec (.aeqJnz f) s = .fault (.raised .unconstrainedRes s)

/-- R119, R124, R131: the ways an AssertEq whose addresses exist faults before the register updates; all leave the
state as it was. Its three cells Filled with dst other than res: DiffAssertValues. An error of res or of a deduction:
that error. UnconstrainedRes: dst Empty with op0 or op1 Empty; op0 and op1 both Empty but under Op1; under Op1, op0
Empty with op1 Filled; under Mul, the known factor `Field(0)` (the swallowed division by zero); Unconstrained. A
deduced cell in an unallocated segment: SegmentOutOfBounds. All but the first two are inferences from R115 to R121,
whose condition for res is the spec's own choice D29 and whose zero is D11 (log 4). -/
def Obligations.AssertEqFaults : Prop :=
  ∀ (i : Instr) (s : State) (x : Addrs), i.opcode = .assertEq → operandAddresses Config.standard i.fields s = .ok x →
    (∀ v a b w, Memory.get s.mem x.dst = some v → Memory.get s.mem x.op0 = some a → Memory.get s.mem x.op1 = some b →
      computeRes Config.standard i.fields.resLogic a b = .ok (some w) → v ≠ w →
      exec i s = .fault (.raised .diffAssertValues s)) ∧
    (∀ a b e, Memory.get s.mem x.op0 = some a → Memory.get s.mem x.op1 = some b →
      computeRes Config.standard i.fields.resLogic a b = .error e → exec i s = .fault (.raised e s)) ∧
    (Memory.get s.mem x.dst = none → Memory.get s.mem x.op0 = none ∨ Memory.get s.mem x.op1 = none →
      exec i s = .fault (.raised .unconstrainedRes s)) ∧
    (i.fields.resLogic ≠ .op1 → Memory.get s.mem x.op0 = none → Memory.get s.mem x.op1 = none →
      exec i s = .fault (.raised .unconstrainedRes s)) ∧
    (∀ b, i.fields.resLogic = .op1 → Memory.get s.mem x.op0 = none → Memory.get s.mem x.op1 = some b →
      exec i s = .fault (.raised .unconstrainedRes s)) ∧
    (i.fields.resLogic = .mul → Memory.get s.mem x.op0 = none →
      Memory.get s.mem x.op1 = some (.field (felt 0)) → exec i s = .fault (.raised .unconstrainedRes s)) ∧
    (i.fields.resLogic = .mul → Memory.get s.mem x.op1 = none →
      Memory.get s.mem x.op0 = some (.field (felt 0)) → exec i s = .fault (.raised .unconstrainedRes s)) ∧
    (i.fields.resLogic = .unconstrained → exec i s = .fault (.raised .unconstrainedRes s)) ∧
    (∀ v k e, Memory.get s.mem x.dst = some v →
      Memory.get s.mem x.op0 = none ∧ Memory.get s.mem x.op1 = some k ∨
        Memory.get s.mem x.op0 = some k ∧ Memory.get s.mem x.op1 = none →
      (i.fields.resLogic = .add ∧ wsub v k = .error e ∨
        i.fields.resLogic = .mul ∧ k ≠ .field (felt 0) ∧ wdiv v k = .error e) →
      exec i s = .fault (.raised e s)) ∧
    (∀ v b cell, AeqSettles i.fields { s with nseg := cell.1.seg + 1 } x v b (some cell) → s.nseg ≤ cell.1.seg →
      exec i s = .fault (.raised .segmentOutOfBounds s))

/-- R116, R119, R121, R132, R150, R154, R158, R178: where a NoOp, a Ret or a Call whose addresses exist faults before
the register updates. A NoOp or Ret whose res is an error ends in it, with the state as it was. A Call: op0 Empty in
an unallocated segment is SegmentOutOfBounds, with nothing written; a res that is an error ends in it, with op0 filled
if it was Empty; then dst Empty in an unallocated segment is SegmentOutOfBounds, with op0 filled; then an op0 cell
that holds another word than `pc + size` is InvalidOp0ForCall, with dst filled if it was Empty; and, where op0 accepts
`pc + size`, a dst cell that holds another word than fp is InvalidDstForCall, with op0 filled. The order op0 before
dst is the spec's own choice D13 (log 4). The Call whose dst and op0 are one Empty cell is R198's. -/
def Obligations.NoOpRetCallFaults : Prop :=
  ∀ (i : Instr) (s : State) (x : Addrs), operandAddresses Config.standard i.fields s = .ok x →
    (i.opcode = .noOp ∨ i.opcode = .ret → ∀ e,
      forwardRes Config.standard i.fields.resLogic (Memory.get s.mem x.op0) (Memory.get s.mem x.op1) = .error e →
      exec i s = .fault (.raised e s)) ∧
    (i.opcode = .call →
      (Memory.get s.mem x.op0 = none → s.nseg ≤ x.op0.seg → exec i s = .fault (.raised .segmentOutOfBounds s)) ∧
      (∀ w e, callOp0 i.fields s x w →
        forwardRes Config.standard i.fields.resLogic (some w) (Memory.get s.mem x.op1) = .error e →
        exec i s = .fault (.raised e { s with mem := Memory.fill s.mem x.op0 w })) ∧
      (∀ w r, callOp0 i.fields s x w →
        forwardRes Config.standard i.fields.resLogic (some w) (Memory.get s.mem x.op1) = .ok r →
        Memory.get s.mem x.dst = none → s.nseg ≤ x.dst.seg →
        exec i s = .fault (.raised .segmentOutOfBounds { s with mem := Memory.fill s.mem x.op0 w })) ∧
      (∀ v r, Memory.get s.mem x.op0 = some v → v ≠ .ptr (pastInstr i.fields s) →
        (Memory.get s.mem x.dst = none → x.dst.seg < s.nseg) →
        forwardRes Config.standard i.fields.resLogic (some v) (Memory.get s.mem x.op1) = .ok r →
        exec i s = .fault (.raised .invalidOp0ForCall { s with mem := Memory.fill s.mem x.dst (.ptr s.fp) })) ∧
      (∀ v r, cellAccepts s x.op0 (.ptr (pastInstr i.fields s)) → Memory.get s.mem x.dst = some v → v ≠ .ptr s.fp →
        forwardRes Config.standard i.fields.resLogic (some (.ptr (pastInstr i.fields s))) (Memory.get s.mem x.op1)
          = .ok r →
        exec i s = .fault (.raised .invalidDstForCall
          { s with mem := Memory.fill s.mem x.op0 (.ptr (pastInstr i.fields s)) })))

/-- R137 to R139, R142, R147, R149, R151 to R165: where an instruction of any opcode that has reached the register
updates faults there, with its write-backs kept: a Jump whose res is no Ptr, a JumpRel whose res is no Field, a Jnz
whose dst is absent, a taken Jnz whose op1 is no Field; then, the next pc being formed, ap by an absent or a Ptr res;
then, the next ap being formed, a Ret whose dst is no Ptr. So a Call with a bad target or op1 keeps its frame. That an
absent operand takes the same error, the errors of ap and the order pc, ap, fp are the spec's own choices D14, D12 and
D13 (log 4). -/
def Obligations.RegisterUpdateFaultsKeepTheWrites : Prop :=
  ∀ (i : Instr) (s : State) (x : Addrs) (dst op1 res : Option Word) (m : Memory),
    ReachesUpdate i s x dst op1 res m →
    (i.pcUpdate = .jump → (∀ p, res ≠ some (.ptr p)) →
      exec i s = .fault (.raised .invalidJumpTarget { s with mem := m })) ∧
    (i.pcUpdate = .jumpRel → (∀ e, res ≠ some (.field e)) →
      exec i s = .fault (.raised .invalidJumpRelTarget { s with mem := m })) ∧
    (i.pcUpdate = .jnz → dst = none → exec i s = .fault (.raised .unconstrainedJnzDst { s with mem := m })) ∧
    (∀ v, i.pcUpdate = .jnz → dst = some v → isZero v = false → (∀ e, op1 ≠ some (.field e)) →
      exec i s = .fault (.raised .invalidJnzOp1 { s with mem := m })) ∧
    ∀ op0 p, nextPc Config.standard i.decoded s { dst := dst, op0 := op0, op1 := op1, res := res } = .ok p →
      (i.fields.apUpdate = .add → res = none → exec i s = .fault (.raised .unconstrainedRes { s with mem := m })) ∧
      (∀ q, i.fields.apUpdate = .add → res = some (.ptr q) →
        exec i s = .fault (.raised .typeMismatch { s with mem := m })) ∧
      (∀ ap, nextAp Config.standard i.fields.apUpdate s res = .ok ap → i.opcode = .ret →
        (∀ q, dst ≠ some (.ptr q)) → exec i s = .fault (.raised .invalidFpUpdate { s with mem := m }))

/-! The parameters of an implementation. -/

/-- R123, R148, D15: STRICT_OPERANDS changes a completing step only into an UndefinedOperand fault that leaves the
registers, and lets a NoOp or Ret complete only with all three operand cells Filled; a step completes under it exactly
when it completes without it and dst, op0 and op1 are all defined at the commit. The parameter and its error are the
spec's own choice D15 (log 4). -/
def Obligations.StrictOperandsOnlyAddsOneFault : Prop :=
  ∀ (mo ms : Option Nat) (d : Decoded) (s : State),
    (∀ t, runDecoded ⟨mo, ms, true⟩ d s = .next t → runDecoded ⟨mo, ms, false⟩ d s = .next t) ∧
    (∀ t, runDecoded ⟨mo, ms, false⟩ d s = .next t → runDecoded ⟨mo, ms, true⟩ d s = .next t ∨
      ∃ u, runDecoded ⟨mo, ms, true⟩ d s = .fault (.raised .undefinedOperand u) ∧ sameRegs s u ∧ u.mem = t.mem) ∧
    (∀ t x, runDecoded ⟨mo, ms, true⟩ d s = .next t → operandAddresses ⟨mo, ms, true⟩ d.toFields s = .ok x →
      d.opcode = .noOp ∨ d.opcode = .ret →
      Memory.get s.mem x.dst ≠ none ∧ Memory.get s.mem x.op0 ≠ none ∧ Memory.get s.mem x.op1 ≠ none) ∧
    (∀ t x, operandAddresses ⟨mo, ms, true⟩ d.toFields s = .ok x →
      (runDecoded ⟨mo, ms, true⟩ d s = .next t ↔
        runDecoded ⟨mo, ms, false⟩ d s = .next t ∧ operandsDefined d s x))

/-- R27, R88, D2: with a finite MAX_OFFSET no step makes a pointer with an offset above it, in a register, as the
address of a cell or in a cell. It faults instead of wrapping: a step does what the step without the bound does, or
faults with CapacityExceeded and leaves the registers; where the bound is out of reach of one sum it does the former.
The state after reset meets every bound; its registers are the model's choice (log 1). The parameter is the spec's own
choice D2; which error comes first at the bound is the model's (log 9). -/
def Obligations.FiniteMaxOffsetIsNeverExceeded : Prop :=
  (∀ (c : Config) (n : Nat) (s t : State), c.maxOffset = some n → s.offsetsWithin n →
      (stepUnder c s = .next t ∨ ∃ e, stepUnder c s = .fault (.raised e t)) → t.offsetsWithin n) ∧
    (∀ (c : Config) (s : State), stepUnder c s = stepUnder { c with maxOffset := none } s ∨
      ∃ t, stepUnder c s = .fault (.raised .capacityExceeded t) ∧ sameRegs s t) ∧
    (∀ (c : Config) (n k : Nat) (s : State), c.maxOffset = some n → s.offsetsWithin k → k + P + 1 ≤ n →
      stepUnder c s = stepUnder { c with maxOffset := none } s) ∧
    ∀ n, State.reset.offsetsWithin n
end

