-- ==== Sys2Proof/Laws/Alu.lean ====
section
/-! SUPPORT. What each operation of units U1 and U1b can answer, and how results of fallible operations compose. -/

namespace Sys2Proof.Machine

/-! Composing fallible operations. -/

theorem except_bind_ok {ε α β : Type} {x : Except ε α} {f : α → Except ε β} {b : β} :
    (x >>= f) = .ok b ↔ ∃ a, x = .ok a ∧ f a = .ok b := by
  cases x with
  | error e => simp [bind, Except.bind]
  | ok a => simp [bind, Except.bind]

theorem except_bind_error {ε α β : Type} {x : Except ε α} {f : α → Except ε β} {e : ε} :
    (x >>= f) = .error e ↔ x = .error e ∨ ∃ a, x = .ok a ∧ f a = .error e := by
  cases x with
  | error e' => simp [bind, Except.bind]
  | ok a => simp [bind, Except.bind]

theorem except_map_ok {ε α β : Type} {x : Except ε α} {f : α → β} {b : β} :
    x.map f = .ok b ↔ ∃ a, x = .ok a ∧ f a = b := by
  cases x with
  | error e => simp [Except.map]
  | ok a => simp [Except.map]

theorem except_map_error {ε α β : Type} {x : Except ε α} {f : α → β} {e : ε} : x.map f = .error e ↔ x = .error e := by
  cases x with
  | error e' => simp [Except.map]
  | ok a => simp [Except.map]

/-! Unit U1. -/

/-- The integer an element constructed from `i` is (R70). -/
theorem felt_val (i : Int) : ((felt i).val : Int) = i % (P : Int) := by
  have hpos : (0 : Int) < (P : Int) := Int.ofNat_lt.mpr P_pos
  have h := Int.emod_nonneg i (ne_of_gt hpos)
  simp only [felt]
  omega

theorem felt_natCast (n : Nat) : (felt (n : Int)).val = n % P := by
  have h := felt_val (n : Int)
  omega

@[simp] theorem fadd_val (a b : Felt) : (fadd a b).val = (a.val + b.val) % P := rfl
@[simp] theorem fmul_val (a b : Felt) : (fmul a b).val = (a.val * b.val) % P := rfl
theorem fsub_val (a b : Felt) : ((fsub a b).val : Int) = ((a.val : Int) - b.val) % (P : Int) := felt_val _

@[simp] theorem felt_zero_val : (felt 0).val = 0 := by decide +kernel

theorem finv_error {a : Felt} {e : ErrorKind} (h : finv a = .error e) : e = .divisionByZero ∧ a.val = 0 := by
  unfold finv at h
  split at h
  · rename_i ha
    cases h
    exact ⟨rfl, ha⟩
  · cases h

theorem finv_ok {a y : Felt} (h : finv a = .ok y) : a.val ≠ 0 ∧ y.val = powMod a.val 252 (P - 2) % P := by
  unfold finv at h
  split at h
  · cases h
  · rename_i ha
    rw [Except.ok.injEq] at h
    exact ⟨ha, by rw [← h]⟩

theorem fdiv_error {a b : Felt} {e : ErrorKind} (h : fdiv a b = .error e) : e = .divisionByZero ∧ b.val = 0 :=
  finv_error (except_map_error.1 h)

/-! Unit U1b. -/

@[simp] theorem offsetFits_standard (n : Nat) : Config.standard.offsetFits n = true := rfl
@[simp] theorem segmentFits_standard (n : Nat) : Config.standard.segmentFits n = true := rfl

/-- With unbounded offsets, adding to a pointer never fails (R88). -/
@[simp] theorem ptrAdd_standard (p : Ptr) (n : Nat) : ptrAdd Config.standard p n = .ok ⟨p.seg, p.off + n⟩ := by
  simp [ptrAdd]

theorem ptrAdd_ok {c : Config} {p q : Ptr} {n : Nat} (h : ptrAdd c p n = .ok q) :
    c.offsetFits (p.off + n) = true ∧ q = ⟨p.seg, p.off + n⟩ := by
  unfold ptrAdd at h
  split at h
  · rename_i hf
    cases h
    exact ⟨hf, rfl⟩
  · cases h

theorem ptrAdd_error {c : Config} {p : Ptr} {n : Nat} {e : ErrorKind} (h : ptrAdd c p n = .error e) :
    e = .capacityExceeded ∧ c.offsetFits (p.off + n) = false := by
  unfold ptrAdd at h
  split at h
  · cases h
  · rename_i hf
    cases h
    exact ⟨rfl, by simpa using hf⟩

theorem ptrSub_ok {p q : Ptr} {n : Nat} (h : ptrSub p n = .ok q) : n ≤ p.off ∧ q = ⟨p.seg, p.off - n⟩ := by
  unfold ptrSub at h
  split at h
  · cases h
  · rename_i hn
    cases h
    exact ⟨by omega, rfl⟩

theorem ptrSub_error {p : Ptr} {n : Nat} {e : ErrorKind} (h : ptrSub p n = .error e) :
    e = .offsetUnderflow ∧ p.off < n := by
  unfold ptrSub at h
  split at h
  · rename_i hn
    cases h
    exact ⟨rfl, by omega⟩
  · cases h

/-- What `wadd` can fail with (R86, R88). -/
theorem wadd_error {c : Config} {a b : Word} {e : ErrorKind} (h : wadd c a b = .error e) :
    e = .typeMismatch ∨ (e = .capacityExceeded ∧ ∃ n, c.offsetFits n = false) := by
  cases a <;> cases b <;> simp only [wadd] at h
  · cases h
  · cases h; exact Or.inl rfl
  · obtain ⟨he, hf⟩ := ptrAdd_error (except_map_error.1 h)
    exact Or.inr ⟨he, _, hf⟩
  · cases h; exact Or.inl rfl

/-- What `wsub` can fail with (R87, R89, R90). -/
theorem wsub_error {a b : Word} {e : ErrorKind} (h : wsub a b = .error e) :
    e = .typeMismatch ∨ e = .offsetUnderflow ∨ e = .segmentMismatch := by
  cases a <;> cases b <;> simp only [wsub] at h
  · cases h
  · cases h; exact Or.inl rfl
  · exact Or.inr (Or.inl (ptrSub_error (except_map_error.1 h)).1)
  · split at h
    · cases h; exact Or.inr (Or.inr rfl)
    · cases h

/-- What `wmul` can fail with (R91). -/
theorem wmul_error {a b : Word} {e : ErrorKind} (h : wmul a b = .error e) : e = .typeMismatch := by
  cases a <;> cases b <;> simp only [wmul] at h <;> cases h <;> rfl

/-- What `wdiv` can fail with; DivisionByZero needs the divisor `Field(0)` (R92). -/
theorem wdiv_error {a b : Word} {e : ErrorKind} (h : wdiv a b = .error e) :
    e = .typeMismatch ∨ (e = .divisionByZero ∧ b = .field (felt 0)) := by
  cases a with
  | field x =>
    cases b with
    | field y =>
      obtain ⟨he, hy⟩ := fdiv_error (except_map_error.1 h)
      refine Or.inr ⟨he, ?_⟩
      congr 1
      exact Fin.ext (by rw [hy, felt_zero_val])
    | ptr q => cases h; exact Or.inl rfl
  | ptr p => cases b <;> cases h <;> exact Or.inl rfl

end Sys2Proof.Machine
end

