-- ==== Sys2Proof/Laws/Encode.lean ====
section
/-! SUPPORT. What each bit field of an encoded well-formed instruction holds (30_encoding.md R51, R63). -/

namespace Sys2Proof

theorem offsetInRange_iff {k : Int} : offsetInRange k = true ↔ -32768 ≤ k ∧ k ≤ 32767 := by
  simp [offsetInRange]

theorem bias16_lt {k : Int} (h : offsetInRange k = true) : bias16 k < 2 ^ 16 := by
  rw [offsetInRange_iff] at h
  unfold bias16
  omega

/-- Unbiasing a biased offset gives it back (R52, R63, R100). -/
theorem unbias16_bias16 {k : Int} (h : offsetInRange k = true) : unbias16 (bias16 k) = k := by
  rw [offsetInRange_iff] at h
  unfold bias16 unbias16
  omega

theorem Reg.code_lt (r : Reg) : r.code < 2 := by cases r <;> decide
theorem Op1Src.code_lt (r : Op1Src) : r.code < 8 := by cases r <;> decide
theorem ResLogic.code_lt (r : ResLogic) : r.code < 4 := by cases r <;> decide
theorem PcUpdate.code_lt (r : PcUpdate) : r.code < 8 := by cases r <;> decide
theorem ApUpdate.code_lt (r : ApUpdate) : r.code < 4 := by cases r <;> decide
theorem Opcode.code_lt (r : Opcode) : r.code < 8 := by cases r <;> decide

/-- A slice of a word given as a number below 2^64 (R9). -/
theorem bits_ofNat {n : Nat} (h : n < 2 ^ 64) (hi lo : Nat) :
    bits (BitVec.ofNat 64 n) hi lo = n / 2 ^ lo % 2 ^ (hi - lo + 1) := by
  rw [bits, BitVec.toNat_ofNat, Nat.mod_eq_of_lt h, Nat.shiftRight_eq_div_pow]

/-- What the conditions of being well-formed are. -/
theorem wf_iff {i : Instr} : i.wf = true ↔
    offsetInRange i.fields.offDst = true ∧ offsetInRange i.fields.offOp0 = true ∧
      offsetInRange i.fields.offOp1 = true ∧ resLogicFits i.pcUpdate i.fields.resLogic = true ∧
      apUpdateFits i.opcode i.fields.apUpdate = true := by
  simp [Instr.wf, and_assoc]

/-- The bit fields of an encoded instruction, all at once (R51, R63). -/
theorem bits_encode {i : Instr} (h : i.wf = true) :
    bits (encode i) 15 0 = bias16 i.fields.offDst ∧ bits (encode i) 31 16 = bias16 i.fields.offOp0 ∧
      bits (encode i) 47 32 = bias16 i.fields.offOp1 ∧ bits (encode i) 48 48 = i.fields.dstReg.code ∧
      bits (encode i) 49 49 = i.fields.op0Reg.code ∧ bits (encode i) 52 50 = i.fields.op1Src.code ∧
      bits (encode i) 54 53 = i.fields.resLogic.code ∧ bits (encode i) 57 55 = i.pcUpdate.code ∧
      bits (encode i) 59 58 = i.fields.apUpdate.code ∧ bits (encode i) 62 60 = i.opcode.code ∧
      bits (encode i) 63 63 = 0 := by
  obtain ⟨h₁, h₂, h₃, -, -⟩ := wf_iff.1 h
  have a₁ := bias16_lt h₁
  have a₂ := bias16_lt h₂
  have a₃ := bias16_lt h₃
  have b₁ := i.fields.dstReg.code_lt
  have b₂ := i.fields.op0Reg.code_lt
  have b₃ := i.fields.op1Src.code_lt
  have b₄ := i.fields.resLogic.code_lt
  have b₅ := i.pcUpdate.code_lt
  have b₆ := i.fields.apUpdate.code_lt
  have b₇ := i.opcode.code_lt
  unfold encode
  generalize bias16 i.fields.offDst = x₁ at *
  generalize bias16 i.fields.offOp0 = x₂ at *
  generalize bias16 i.fields.offOp1 = x₃ at *
  generalize i.fields.dstReg.code = y₁ at *
  generalize i.fields.op0Reg.code = y₂ at *
  generalize i.fields.op1Src.code = y₃ at *
  generalize i.fields.resLogic.code = y₄ at *
  generalize i.pcUpdate.code = y₅ at *
  generalize i.fields.apUpdate.code = y₆ at *
  generalize i.opcode.code = y₇ at *
  refine ⟨?_, ?_, ?_, ?_, ?_, ?_, ?_, ?_, ?_, ?_, ?_⟩ <;>
    · rw [bits_ofNat (by omega)]
      omega

end Sys2Proof
end

