-- ==== Sys2Proof/Laws/State.lean ====
section
/-! SUPPORT. The fields of a state after each update of the machine: one lemma per field per update, so that no later proof
unfolds a record update. -/

namespace Sys2Proof.Machine

variable (s : State) (pc ap fp a : Ptr) (w : Word) (n : Nat)

@[simp] theorem commit_pc : (commit s pc ap fp).pc = pc := rfl
@[simp] theorem commit_ap : (commit s pc ap fp).ap = ap := rfl
@[simp] theorem commit_fp : (commit s pc ap fp).fp = fp := rfl
@[simp] theorem commit_mem : (commit s pc ap fp).mem = s.mem := rfl
@[simp] theorem commit_nseg : (commit s pc ap fp).nseg = s.nseg := rfl
@[simp] theorem commit_steps : (commit s pc ap fp).steps = s.steps + 1 := rfl
@[simp] theorem commit_launched : (commit s pc ap fp).launched = s.launched := rfl

@[simp] theorem whenLaunched_true {o : Host.Outcome State Fault Refusal} (h : s.launched = true) :
    whenLaunched s o = o := if_pos h
@[simp] theorem whenLaunched_false {o : Host.Outcome State Fault Refusal} (h : s.launched = false) :
    whenLaunched s o = .refused .notLaunched := if_neg (by simp [h])

@[simp] theorem reset_pc : State.reset.pc = ⟨0, 0⟩ := rfl
@[simp] theorem reset_ap : State.reset.ap = ⟨0, 0⟩ := rfl
@[simp] theorem reset_fp : State.reset.fp = ⟨0, 0⟩ := rfl
@[simp] theorem reset_mem : State.reset.mem = [] := rfl
@[simp] theorem reset_nseg : State.reset.nseg = 0 := rfl
@[simp] theorem reset_steps : State.reset.steps = 0 := rfl
@[simp] theorem reset_launched : State.reset.launched = false := rfl

@[simp] theorem placeInstruction_pc : (placeInstruction s n).pc = s.pc := rfl
@[simp] theorem placeInstruction_ap : (placeInstruction s n).ap = s.ap := rfl
@[simp] theorem placeInstruction_fp : (placeInstruction s n).fp = s.fp := rfl
@[simp] theorem placeInstruction_steps : (placeInstruction s n).steps = s.steps := rfl
@[simp] theorem placeInstruction_launched : (placeInstruction s n).launched = true := rfl
@[simp] theorem placeInstruction_nseg : (placeInstruction s n).nseg = max s.nseg (s.pc.seg + 1) := rfl

@[simp] theorem orAbort_ok {α : Type} (v : α) : orAbort s (.ok v) = .ok v := rfl
@[simp] theorem orAbort_error {α : Type} (e : ErrorKind) : orAbort (α := α) s (.error e) = .error (.raised e s) := rfl

end Sys2Proof.Machine
end

