-- ==== Sys2Proof/Laws/Memory.lean ====
section
/-! SUPPORT. The laws of the memory: reading after a write, the canonical form, the invariant, and one lemma per operation
of unit U4 that says all it can do (20_memory.md R31 to R37). -/

namespace Sys2Proof.Machine

/-! The order of addresses. -/

theorem ptrBefore_iff {a b : Ptr} : ptrBefore a b = true ↔ a.seg < b.seg ∨ (a.seg = b.seg ∧ a.off < b.off) := by
  simp [ptrBefore]

theorem ptrBefore_trans {a b c : Ptr} (h₁ : ptrBefore a b = true) (h₂ : ptrBefore b c = true) :
    ptrBefore a c = true := by
  rw [ptrBefore_iff] at *
  omega

theorem ptrBefore_ne {a b : Ptr} (h : ptrBefore a b = true) : a ≠ b := by
  rintro rfl
  rw [ptrBefore_iff] at h
  omega

/-- Two addresses are equal or one comes before the other. -/
theorem ptrBefore_total {a b : Ptr} (hne : a ≠ b) (h : ¬ ptrBefore a b = true) : ptrBefore b a = true := by
  rw [ptrBefore_iff] at *
  have : ¬ (a.seg = b.seg ∧ a.off = b.off) := by
    rintro ⟨hs, ho⟩
    cases a; cases b
    simp_all
  omega

/-! Reading after a write. -/

@[simp] theorem get_nil (a : Ptr) : Memory.get [] a = none := rfl

/-- A write is read back. -/
@[simp] theorem get_put_self (m : Memory) (a : Ptr) (w : Word) : Memory.get (Memory.put m a w) a = some w := by
  induction m with
  | nil => simp [Memory.put, Memory.get]
  | cons x rest ih =>
    obtain ⟨b, v⟩ := x
    unfold Memory.put
    split
    · simp [Memory.get]
    · split
      · simp [Memory.get]
      · rename_i hne _
        simp [Memory.get, hne, ih]

/-- A write leaves every other cell alone. -/
theorem get_put_other (m : Memory) {a b : Ptr} (w : Word) (h : b ≠ a) :
    Memory.get (Memory.put m a w) b = Memory.get m b := by
  induction m with
  | nil => simp [Memory.put, Memory.get, h]
  | cons x rest ih =>
    obtain ⟨p, v⟩ := x
    unfold Memory.put
    split
    · rename_i heq
      subst heq
      simp [Memory.get, h]
    · split
      · simp [Memory.get, h]
      · simp [Memory.get, ih]

theorem get_put (m : Memory) (a b : Ptr) (w : Word) :
    Memory.get (Memory.put m a w) b = if b = a then some w else Memory.get m b := by
  by_cases h : b = a
  · subst h; simp
  · simp [h, get_put_other m w h]

/-- Writing one cell twice is writing the second word. -/
theorem put_put_self (m : Memory) (a : Ptr) (v w : Word) : Memory.put (Memory.put m a v) a w = Memory.put m a w := by
  induction m with
  | nil => simp [Memory.put]
  | cons x rest ih =>
    obtain ⟨b, u⟩ := x
    by_cases h : a = b
    · subst h; simp [Memory.put]
    · by_cases hb : ptrBefore a b = true
      · simp [Memory.put, h, hb]
      · simp [Memory.put, h, hb, ih]

/-- What is read is listed. -/
theorem mem_of_get {m : Memory} {a : Ptr} {w : Word} (h : Memory.get m a = some w) : (a, w) ∈ m := by
  induction m with
  | nil => simp at h
  | cons x rest ih =>
    obtain ⟨b, v⟩ := x
    unfold Memory.get at h
    split at h
    · rename_i heq
      subst heq
      cases h
      simp
    · exact List.mem_cons_of_mem _ (ih h)

/-- In canonical form, what is listed is read. -/
theorem get_of_mem {m : Memory} (hwf : Memory.wf m) {a : Ptr} {w : Word} (h : (a, w) ∈ m) : Memory.get m a = some w := by
  induction m with
  | nil => simp at h
  | cons x rest ih =>
    obtain ⟨b, v⟩ := x
    rw [Memory.wf, List.pairwise_cons] at hwf
    rcases List.mem_cons.1 h with heq | hrest
    · cases heq
      simp [Memory.get]
    · have hne : a ≠ b := (ptrBefore_ne (hwf.1 _ hrest)).symm
      simp [Memory.get, hne, ih hwf.2 hrest]

/-- A cell of the memory after a write is the one written or one of before. -/
theorem mem_put {m : Memory} {a : Ptr} {w : Word} {x : Cell} (h : x ∈ Memory.put m a w) : x = (a, w) ∨ x ∈ m := by
  induction m with
  | nil => simpa [Memory.put] using h
  | cons y rest ih =>
    obtain ⟨b, v⟩ := y
    unfold Memory.put at h
    split at h
    · rcases List.mem_cons.1 h with h | h
      · exact Or.inl h
      · exact Or.inr (List.mem_cons_of_mem _ h)
    · split at h
      · rcases List.mem_cons.1 h with h | h
        · exact Or.inl h
        · exact Or.inr h
      · rcases List.mem_cons.1 h with h | h
        · exact Or.inr (h ▸ List.mem_cons_self)
        · rcases ih h with h | h
          · exact Or.inl h
          · exact Or.inr (List.mem_cons_of_mem _ h)

/-- A write keeps the canonical form. -/
theorem put_wf {m : Memory} (hwf : Memory.wf m) (a : Ptr) (w : Word) : Memory.wf (Memory.put m a w) := by
  induction m with
  | nil => simp [Memory.put, Memory.wf]
  | cons x rest ih =>
    obtain ⟨b, v⟩ := x
    rw [Memory.wf, List.pairwise_cons] at hwf
    unfold Memory.put
    split
    · rename_i heq
      subst heq
      exact List.pairwise_cons.2 ⟨hwf.1, hwf.2⟩
    · rename_i hne
      split
      · rename_i hb
        refine List.pairwise_cons.2 ⟨?_, List.pairwise_cons.2 ⟨hwf.1, hwf.2⟩⟩
        intro y hy
        rcases List.mem_cons.1 hy with rfl | hy
        · exact hb
        · exact ptrBefore_trans hb (hwf.1 _ hy)
      · rename_i hb
        refine List.pairwise_cons.2 ⟨?_, ih hwf.2⟩
        intro y hy
        rcases mem_put hy with rfl | hy
        · exact ptrBefore_total hne hb
        · exact hwf.1 _ hy

/-- Two canonical memories that read alike are equal. -/
theorem wf_ext {m m' : Memory} (h : Memory.wf m) (h' : Memory.wf m')
    (hget : ∀ a, Memory.get m a = Memory.get m' a) : m = m' := by
  refine List.Perm.eq_of_pairwise (le := fun x y : Cell => ptrBefore x.1 y.1 = true) ?_ h h' ?_
  · intro x y _ _ hxy hyx
    exact absurd rfl (ptrBefore_ne (ptrBefore_trans hxy hyx))
  · have nd : ∀ {l : Memory}, Memory.wf l → l.Nodup := fun hl =>
      List.Pairwise.imp (fun {x y} hxy heq => ptrBefore_ne hxy (congrArg Prod.fst heq)) hl
    refine (List.perm_ext_iff_of_nodup (nd h) (nd h')).2 ?_
    intro x
    obtain ⟨a, w⟩ := x
    exact ⟨fun hx => mem_of_get ((hget a) ▸ get_of_mem h hx), fun hx => mem_of_get ((hget a).symm ▸ get_of_mem h' hx)⟩

/-! Growth. -/

theorem grows_refl (m : Memory) : Memory.grows m m := fun _ _ h => h

theorem grows_trans {m₁ m₂ m₃ : Memory} (h₁ : Memory.grows m₁ m₂) (h₂ : Memory.grows m₂ m₃) : Memory.grows m₁ m₃ :=
  fun a w h => h₂ a w (h₁ a w h)

/-- Filling an Empty cell only grows the memory. -/
theorem grows_put {m : Memory} {a : Ptr} (h : Memory.get m a = none) (w : Word) : Memory.grows m (Memory.put m a w) := by
  intro b v hb
  have hne : b ≠ a := by
    rintro rfl
    rw [h] at hb
    cases hb
  rw [get_put_other m w hne, hb]

/-! `insert`: everything it can do. -/

/-- An `insert` that answers Ok wrote an Empty cell of an allocated segment or found the equal word there (R34). -/
theorem insert_ok {s t : State} {a : Ptr} {w : Word} (h : insert s a w = .ok t) :
    a.seg < s.nseg ∧
      ((Memory.get s.mem a = some w ∧ t = s) ∨
        (Memory.get s.mem a = none ∧ t = { s with mem := Memory.put s.mem a w })) := by
  unfold insert at h
  split at h
  · cases h
  · rename_i hseg
    refine ⟨by omega, ?_⟩
    split at h
    · rename_i v hv
      split at h
      · rename_i heq
        subst heq
        cases h
        exact Or.inl ⟨hv, rfl⟩
      · cases h
    · rename_i hn
      cases h
      exact Or.inr ⟨hn, rfl⟩

/-- An `insert` that fails is out of bounds or meets an unequal word (R34). -/
theorem insert_error {s : State} {a : Ptr} {w : Word} {e : ErrorKind} (h : insert s a w = .error e) :
    (e = .segmentOutOfBounds ∧ s.nseg ≤ a.seg) ∨
      (e = .writeOnce ∧ a.seg < s.nseg ∧ ∃ v, Memory.get s.mem a = some v ∧ v ≠ w) := by
  unfold insert at h
  split at h
  · rename_i hseg
    cases h
    exact Or.inl ⟨rfl, hseg⟩
  · rename_i hseg
    split at h
    · rename_i v hv
      split at h
      · cases h
      · rename_i hne
        cases h
        exact Or.inr ⟨rfl, by omega, v, hv, hne⟩
    · cases h

theorem insert_empty {s : State} {a : Ptr} (w : Word) (hseg : a.seg < s.nseg) (h : Memory.get s.mem a = none) :
    insert s a w = .ok { s with mem := Memory.put s.mem a w } := by
  simp [insert, h, Nat.not_le.2 hseg]

theorem insert_equal {s : State} {a : Ptr} {w : Word} (hseg : a.seg < s.nseg) (h : Memory.get s.mem a = some w) :
    insert s a w = .ok s := by
  simp [insert, h, Nat.not_le.2 hseg]

theorem sameRegs_refl (s : State) : sameRegs s s := ⟨rfl, rfl, rfl, rfl, rfl, rfl⟩

theorem sameRegs_trans {s t u : State} (h : sameRegs s t) (h' : sameRegs t u) : sameRegs s u := by
  unfold sameRegs at *
  simp_all

/-- An `insert` changes no register, grows the memory, keeps the invariant and leaves other cells alone. -/
theorem insert_keeps {s t : State} {a : Ptr} {w : Word} (h : insert s a w = .ok t) :
    sameRegs s t ∧ Memory.grows s.mem t.mem ∧ (s.inv → t.inv) ∧ (∀ b, b ≠ a → Memory.get t.mem b = Memory.get s.mem b) ∧
      Memory.get t.mem a = some w := by
  obtain ⟨hseg, ⟨hw, rfl⟩ | ⟨hn, rfl⟩⟩ := insert_ok h
  · exact ⟨sameRegs_refl _, grows_refl _, id, fun _ _ => rfl, hw⟩
  · refine ⟨⟨rfl, rfl, rfl, rfl, rfl, rfl⟩, grows_put hn w, ?_, fun b hb => get_put_other _ w hb, get_put_self _ _ _⟩
    rintro ⟨hwf, hin⟩
    refine ⟨put_wf hwf a w, ?_⟩
    intro x hx
    rcases mem_put hx with rfl | hx
    · exact hseg
    · exact hin x hx

/-! The other operations of unit U4. -/

theorem addSegment_ok {c : Config} {s t : State} {p : Ptr} (h : addSegment c s = .ok (p, t)) :
    c.segmentFits s.nseg = true ∧ p = ⟨s.nseg, 0⟩ ∧ t = { s with nseg := s.nseg + 1 } := by
  unfold addSegment at h
  split at h
  · rename_i hc
    cases h
    exact ⟨hc, rfl, rfl⟩
  · cases h

theorem addSegment_inv {c : Config} {s t : State} {p : Ptr} (h : addSegment c s = .ok (p, t)) (hs : s.inv) : t.inv := by
  obtain ⟨-, -, rfl⟩ := addSegment_ok h
  exact ⟨hs.1, fun x hx => Nat.lt_succ_of_lt (hs.2 x hx)⟩

/-- `load_data` keeps the registers and the invariant and grows the memory, failing or not (R37). -/
theorem loadData_keeps (s : State) (a : Ptr) (ws : List Word) :
    sameRegs s (loadData s a ws).2 ∧ Memory.grows s.mem (loadData s a ws).2.mem ∧
      (s.inv → (loadData s a ws).2.inv) := by
  induction ws generalizing s a with
  | nil => exact ⟨sameRegs_refl _, grows_refl _, id⟩
  | cons w rest ih =>
    unfold loadData
    split
    · exact ⟨sameRegs_refl _, grows_refl _, id⟩
    · rename_i s' h
      obtain ⟨hr, hg, hi, -⟩ := insert_keeps h
      obtain ⟨hr', hg', hi'⟩ := ih s' ⟨a.seg, a.off + 1⟩
      exact ⟨sameRegs_trans hr hr', grows_trans hg hg', fun h => hi' (hi h)⟩

/-- Said once: what a launch can do. It happens only before there was one, and writes the three registers (R193). -/
theorem launch_some {s t : State} {pc0 ap0 : Ptr} :
    launch s pc0 ap0 = some t ↔
      s.launched = false ∧ t = { s with pc := pc0, ap := ap0, fp := ap0, launched := true } := by
  unfold launch
  cases s.launched <;> simp only [Bool.false_eq_true, if_true, if_false, true_and, false_and, reduceCtorEq,
    Option.some.injEq, eq_comm]

theorem launch_none {s : State} {pc0 ap0 : Ptr} : launch s pc0 ap0 = none ↔ s.launched = true := by
  unfold launch
  cases s.launched <;> simp

theorem launch_inv {s t : State} {pc0 ap0 : Ptr} (h : launch s pc0 ap0 = some t) (hs : s.inv) : t.inv := by
  obtain ⟨-, rfl⟩ := launch_some.1 h
  exact hs

theorem commit_inv {s : State} (pc ap fp : Ptr) (h : s.inv) : (commit s pc ap fp).inv := h

/-- Placing an instruction keeps the invariant. -/
theorem placeInstruction_inv {s : State} (n : Nat) (h : s.inv) : (placeInstruction s n).inv := by
  have hput : ∀ {m : Memory} {a : Ptr} {w : Word}, a.seg = s.pc.seg →
      (∀ x ∈ m, x.1.seg < max s.nseg (s.pc.seg + 1)) → ∀ x ∈ Memory.put m a w, x.1.seg < max s.nseg (s.pc.seg + 1) := by
    intro m a w ha hm x hx
    rcases mem_put hx with rfl | hx
    · simp only [ha]; omega
    · exact hm x hx
  have h0 : ∀ x ∈ s.mem, x.1.seg < max s.nseg (s.pc.seg + 1) := fun x hx => by have := h.2 x hx; omega
  constructor
  · unfold placeInstruction
    dsimp only
    split
    · exact put_wf (put_wf h.1 _ _) _ _
    · exact put_wf h.1 _ _
  · unfold placeInstruction
    dsimp only
    split
    · exact hput rfl (hput rfl h0)
    · exact hput rfl h0

/-- The memory right after reset is in canonical form. -/
theorem reset_mem_wf : Memory.wf State.reset.mem := List.Pairwise.nil

end Sys2Proof.Machine
end

