-- ==== Sys2Proof/Laws/Operands.lean ====
section
/-! SUPPORT. What the address unit can answer (42_address_unit.md R101 to R109). -/

namespace Sys2Proof.Machine

/-- An address formed from a base keeps its segment (R101). -/
theorem offsetBy_seg {c : Config} {b q : Ptr} {k : Int} (h : offsetBy c b k = .ok q) : q.seg = b.seg := by
  unfold offsetBy at h
  split at h
  · rw [(ptrAdd_ok h).2]
  · rw [(ptrSub_ok h).2]

theorem offsetBy_error {c : Config} {b : Ptr} {k : Int} {e : ErrorKind} (h : offsetBy c b k = .error e) :
    (e = .offsetUnderflow ∧ k < 0 ∧ b.off < (-k).toNat) ∨ (e = .capacityExceeded ∧ ∃ n, c.offsetFits n = false) := by
  unfold offsetBy at h
  split at h
  · obtain ⟨he, hf⟩ := ptrAdd_error h
    exact Or.inr ⟨he, _, hf⟩
  · obtain ⟨he, hlt⟩ := ptrSub_error h
    exact Or.inl ⟨he, by omega, hlt⟩

/-- What op1's address computation can fail with (R104 to R107). -/
theorem op1Address_error {c : Config} {f : Fields} {s : State} {a : Ptr} {e : ErrorKind}
    (h : op1Address c f s a = .error e) :
    e = .offsetUnderflow ∨ e = .typeMismatch ∨ e = .invalidImmOffset ∨
      (e = .capacityExceeded ∧ ∃ n, c.offsetFits n = false) := by
  have hoff : ∀ {b : Ptr} {k : Int}, offsetBy c b k = .error e → e = .offsetUnderflow ∨ e = .typeMismatch ∨
      e = .invalidImmOffset ∨ (e = .capacityExceeded ∧ ∃ n, c.offsetFits n = false) := by
    intro b k hk
    rcases offsetBy_error hk with ⟨he, -⟩ | hc
    · exact Or.inl he
    · exact Or.inr (Or.inr (Or.inr hc))
  unfold op1Address at h
  split at h
  · split at h
    · exact hoff h
    · cases h; simp
    · cases h; simp
  · split at h
    · obtain ⟨he, hf⟩ := ptrAdd_error h
      exact Or.inr (Or.inr (Or.inr ⟨he, _, hf⟩))
    · cases h; simp
  · exact hoff h
  · exact hoff h

/-- The three addresses, taken apart (R108). -/
theorem operandAddresses_ok {c : Config} {f : Fields} {s : State} {x : Addrs} (h : operandAddresses c f s = .ok x) :
    dstAddress c f s = .ok x.dst ∧ op0Address c f s = .ok x.op0 ∧ op1Address c f s x.op0 = .ok x.op1 := by
  unfold operandAddresses at h
  obtain ⟨d, hd, h⟩ := except_bind_ok.1 h
  obtain ⟨a, ha, h⟩ := except_bind_ok.1 h
  obtain ⟨b, hb, h⟩ := except_bind_ok.1 h
  cases h
  exact ⟨hd, ha, hb⟩

theorem operandAddresses_error {c : Config} {f : Fields} {s : State} {e : ErrorKind}
    (h : operandAddresses c f s = .error e) :
    e = .offsetUnderflow ∨ e = .typeMismatch ∨ e = .invalidImmOffset ∨
      (e = .capacityExceeded ∧ ∃ n, c.offsetFits n = false) := by
  unfold operandAddresses at h
  have hoff : ∀ {r : Reg} {k : Int}, computeAddress c s r k = .error e → e = .offsetUnderflow ∨ e = .typeMismatch ∨
      e = .invalidImmOffset ∨ (e = .capacityExceeded ∧ ∃ n, c.offsetFits n = false) := by
    intro r k hk
    rcases offsetBy_error hk with ⟨he, -⟩ | hc
    · exact Or.inl he
    · exact Or.inr (Or.inr (Or.inr hc))
  rcases except_bind_error.1 h with h | ⟨d, -, h⟩
  · exact hoff h
  rcases except_bind_error.1 h with h | ⟨a, -, h⟩
  · exact hoff h
  rcases except_bind_error.1 h with h | ⟨b, -, h⟩
  · exact op1Address_error h
  · cases h

end Sys2Proof.Machine
end

