-- ==== Sys2Proof/Laws/PerInstr.lean ====
section
/-! SUPPORT. The family RowBits: an instruction's encoding carries the fixed bits of its row in spec/opcode_table.json (R64),
one lemma per constructor. -/

namespace Sys2Proof.Laws.RowBits

/-- Bit 63, bits 62:60 and bits 57:55 of the encoded instruction are those its row fixes (R64). -/
def Statement (i : Instr) : Prop :=
  i.wf = true → bits (encode i) 63 63 = 0 ∧ bits (encode i) 62 60 = i.opcode.code ∧
    bits (encode i) 57 55 = i.pcUpdate.code

/-- The fixed bits, from the bit fields of the encoding. -/
theorem of_bits_encode (i : Instr) : Statement i := fun h =>
  let b := bits_encode h
  ⟨b.2.2.2.2.2.2.2.2.2.2, b.2.2.2.2.2.2.2.2.2.1, b.2.2.2.2.2.2.2.1⟩

theorem nopReg (f : Fields) : Statement (.nopReg f) := of_bits_encode _
theorem nopJmp (f : Fields) : Statement (.nopJmp f) := of_bits_encode _
theorem nopJrel (f : Fields) : Statement (.nopJrel f) := of_bits_encode _
theorem nopJnz (f : Fields) : Statement (.nopJnz f) := of_bits_encode _
theorem callReg (f : Fields) : Statement (.callReg f) := of_bits_encode _
theorem callJmp (f : Fields) : Statement (.callJmp f) := of_bits_encode _
theorem callJrel (f : Fields) : Statement (.callJrel f) := of_bits_encode _
theorem callJnz (f : Fields) : Statement (.callJnz f) := of_bits_encode _
theorem retReg (f : Fields) : Statement (.retReg f) := of_bits_encode _
theorem retJmp (f : Fields) : Statement (.retJmp f) := of_bits_encode _
theorem retJrel (f : Fields) : Statement (.retJrel f) := of_bits_encode _
theorem retJnz (f : Fields) : Statement (.retJnz f) := of_bits_encode _
theorem aeqReg (f : Fields) : Statement (.aeqReg f) := of_bits_encode _
theorem aeqJmp (f : Fields) : Statement (.aeqJmp f) := of_bits_encode _
theorem aeqJrel (f : Fields) : Statement (.aeqJrel f) := of_bits_encode _
theorem aeqJnz (f : Fields) : Statement (.aeqJnz f) := of_bits_encode _

end Sys2Proof.Laws.RowBits
end

