-- ==== Sys2Proof/Laws/Prime.lean ====
section
/-! SUPPORT. The modulus is a prime, by Lucas' criterion with the factors of P - 1 (40_field_alu.md R71), and fast modular
powers are powers. -/

namespace Sys2Proof.Machine

/-- `powMod` computes the power modulo P for every exponent that fits its fuel. -/
theorem powMod_eq (fuel : Nat) : ∀ (b e : Nat), e < 2 ^ fuel → powMod b fuel e = b ^ e % P := by
  induction fuel with
  | zero =>
    intro b e he
    have : e = 0 := by omega
    subst this
    simp [powMod]
  | succ n ih =>
    intro b e he
    have hlt : e / 2 < 2 ^ n := by rw [pow_succ] at he; omega
    have hrec : powMod (b * b % P) n (e / 2) = b ^ (2 * (e / 2)) % P := by
      rw [ih _ _ hlt, ← Nat.pow_mod, pow_mul, pow_two]
    unfold powMod
    rw [hrec]
    by_cases h : e % 2 = 1
    · have he' : e = 2 * (e / 2) + 1 := by omega
      rw [if_pos h]
      conv_rhs => rw [he', pow_succ]
      rw [Nat.mul_mod, Nat.mod_mod, ← Nat.mul_mod, Nat.mul_comm]
    · have he' : e = 2 * (e / 2) := by omega
      rw [if_neg h]
      conv_rhs => rw [he']

theorem natCast_powMod (b e : Nat) (he : e < 2 ^ 252) : ((powMod b 252 e : Nat) : ZMod P) = (b : ZMod P) ^ e := by
  rw [powMod_eq 252 b e he, ZMod.natCast_mod, Nat.cast_pow]

theorem P_sub_one : P - 1 = 2 ^ 192 * (5 * (7 * (98714381 * 166848103))) := by decide +kernel

/-- A power of three that is not one modulo P, by evaluation. -/
theorem three_pow_ne_one {e : Nat} (he : e < 2 ^ 252) (h : powMod 3 252 e ≠ 1) : (3 : ZMod P) ^ e ≠ 1 := by
  intro hc
  apply h
  have h1 : ((powMod 3 252 e : Nat) : ZMod P) = ((1 : Nat) : ZMod P) := by
    rw [natCast_powMod 3 e he, Nat.cast_ofNat, Nat.cast_one]
    exact hc
  rw [ZMod.natCast_eq_natCast_iff'] at h1
  have h2 : powMod 3 252 e < P := by
    rw [powMod_eq 252 3 e he]
    exact Nat.mod_lt _ P_pos
  rw [Nat.mod_eq_of_lt h2, Nat.mod_eq_of_lt (by decide +kernel)] at h1
  exact h1

/-- P is prime (R71). -/
theorem P_prime : Nat.Prime P := by
  have hone : (3 : ZMod P) ^ (P - 1) = 1 := by
    have h : ((powMod 3 252 (P - 1) : Nat) : ZMod P) = (3 : ZMod P) ^ (P - 1) := by
      rw [natCast_powMod 3 (P - 1) (by decide +kernel), Nat.cast_ofNat]
    rw [← h, show powMod 3 252 (P - 1) = 1 by decide +kernel, Nat.cast_one]
  refine lucas_primality P 3 hone ?_
  intro q hq hdvd
  have p5 : Nat.Prime 5 := by norm_num
  have p7 : Nat.Prime 7 := by norm_num
  have pa : Nat.Prime 98714381 := by norm_num
  have pb : Nat.Prime 166848103 := by norm_num
  have hcases : q = 2 ∨ q = 5 ∨ q = 7 ∨ q = 98714381 ∨ q = 166848103 := by
    rw [P_sub_one] at hdvd
    rcases (Nat.Prime.dvd_mul hq).1 hdvd with h | h
    · exact Or.inl ((Nat.prime_dvd_prime_iff_eq hq Nat.prime_two).1 (hq.dvd_of_dvd_pow h))
    rcases (Nat.Prime.dvd_mul hq).1 h with h | h
    · exact Or.inr (Or.inl ((Nat.prime_dvd_prime_iff_eq hq p5).1 h))
    rcases (Nat.Prime.dvd_mul hq).1 h with h | h
    · exact Or.inr (Or.inr (Or.inl ((Nat.prime_dvd_prime_iff_eq hq p7).1 h)))
    rcases (Nat.Prime.dvd_mul hq).1 h with h | h
    · exact Or.inr (Or.inr (Or.inr (Or.inl ((Nat.prime_dvd_prime_iff_eq hq pa).1 h))))
    · exact Or.inr (Or.inr (Or.inr (Or.inr ((Nat.prime_dvd_prime_iff_eq hq pb).1 h))))
  rcases hcases with rfl | rfl | rfl | rfl | rfl <;>
    exact three_pow_ne_one (by decide +kernel) (by decide +kernel)

end Sys2Proof.Machine
end

