-- ==== Sys2Proof/Laws/Sequence.lean ====
section
/-! SUPPORT. Said once: everything the stages of a step can do (43_step_resolution.md R110 to R127, 44_assert_update.md R130
to R149, 60_exceptions.md R176). -/

namespace Sys2Proof.Machine

/-- What every part of a step keeps between the state it starts from and the state at a later point of it: the
registers, NSEG and STEPS, the Filled cells, the invariant, and every cell outside the operand addresses (R126, R176).
-/
def Kept (x : Addrs) (s t : State) : Prop :=
  sameRegs s t ∧ Memory.grows s.mem t.mem ∧ (s.inv → t.inv) ∧
    ∀ a, a ≠ x.dst → a ≠ x.op0 → a ≠ x.op1 → Memory.get t.mem a = Memory.get s.mem a

theorem Kept_refl (x : Addrs) (s : State) : Kept x s s := ⟨sameRegs_refl s, grows_refl _, id, fun _ _ _ _ => rfl⟩

theorem Kept_trans {x : Addrs} {s t u : State} (h : Kept x s t) (h' : Kept x t u) : Kept x s u :=
  ⟨sameRegs_trans h.1 h'.1, grows_trans h.2.1 h'.2.1, fun hi => h'.2.2.1 (h.2.2.1 hi), fun a h₁ h₂ h₃ =>
    (h'.2.2.2 a h₁ h₂ h₃).trans (h.2.2.2 a h₁ h₂ h₃)⟩

/-! `orAbort` and `writeBack`. -/

theorem orAbort_eq_ok {α : Type} {s : State} {r : Result α} {v : α} : orAbort s r = .ok v ↔ r = .ok v := by
  cases r <;> simp [orAbort, abort]

theorem orAbort_eq_error {α : Type} {s : State} {r : Result α} {f : Fault} :
    orAbort s r = .error f ↔ ∃ e, r = .error e ∧ f = .raised e s := by
  cases r with
  | ok v => simp [orAbort]
  | error e => simp [orAbort, abort, eq_comm]

/-- A write-back that goes on: nothing to write, or an insert that returned Ok. -/
theorem writeBack_ok {s t : State} {a : Ptr} {v : Option Word} (h : writeBack s a v = .ok t) :
    (v = none ∧ t = s) ∨ ∃ w, v = some w ∧ insert s a w = .ok t := by
  unfold writeBack at h
  split at h
  · cases h
    exact Or.inl ⟨rfl, rfl⟩
  · exact Or.inr ⟨_, rfl, orAbort_eq_ok.1 h⟩

theorem writeBack_error {s : State} {a : Ptr} {v : Option Word} {f : Fault} (h : writeBack s a v = .error f) :
    ∃ w e, v = some w ∧ insert s a w = .error e ∧ f = .raised e s := by
  unfold writeBack at h
  split at h
  · cases h
  · obtain ⟨e, he, hf⟩ := orAbort_eq_error.1 h
    exact ⟨_, e, rfl, he, hf⟩

theorem writeBack_Kept {x : Addrs} {s t : State} {a : Ptr} {v : Option Word} (ha : a = x.dst ∨ a = x.op0 ∨ a = x.op1)
    (h : writeBack s a v = .ok t) : Kept x s t := by
  rcases writeBack_ok h with ⟨-, rfl⟩ | ⟨w, -, hi⟩
  · exact Kept_refl _ _
  · obtain ⟨hr, hg, hinv, ho, -⟩ := insert_keeps hi
    refine ⟨hr, hg, hinv, fun b h₁ h₂ h₃ => ho b ?_⟩
    rcases ha with rfl | rfl | rfl <;> assumption

/-! The four stages of the cascade. -/

/-- Stage 4a: op0 was there, or it was deduced and written back (R116). -/
theorem resolveOp0_ok {c : Config} {d : Decoded} {x : Addrs} {l l' : Locals} {s t : State}
    (h : resolveOp0 c d x l s = .ok (l', t)) :
    (∃ a, l.op0 = some a ∧ l' = l ∧ t = s) ∨
      (l.op0 = none ∧ ∃ v r, deduceOp0 c d s.pc l.dst l.op1 = .ok (v, r) ∧ writeBack s x.op0 v = .ok t ∧
        l' = { l with op0 := v, res := r }) := by
  unfold resolveOp0 at h
  split at h
  · rename_i a ha
    cases h
    exact Or.inl ⟨a, ha, rfl, rfl⟩
  · rename_i hn
    obtain ⟨⟨v, r⟩, hd, h⟩ := except_bind_ok.1 h
    obtain ⟨t', hw, h⟩ := except_bind_ok.1 h
    cases h
    exact Or.inr ⟨hn, v, r, orAbort_eq_ok.1 hd, hw, rfl⟩

theorem resolveOp0_error {c : Config} {d : Decoded} {x : Addrs} {l : Locals} {s : State} {f : Fault}
    (h : resolveOp0 c d x l s = .error f) :
    l.op0 = none ∧ ((∃ e, deduceOp0 c d s.pc l.dst l.op1 = .error e ∧ f = .raised e s) ∨
      ∃ v r, deduceOp0 c d s.pc l.dst l.op1 = .ok (v, r) ∧ writeBack s x.op0 v = .error f) := by
  unfold resolveOp0 at h
  split at h
  · cases h
  · rename_i hn
    refine ⟨hn, ?_⟩
    rcases except_bind_error.1 h with h | ⟨⟨v, r⟩, hd, h⟩
    · exact Or.inl (orAbort_eq_error.1 h)
    · rcases except_bind_error.1 h with h | ⟨t', -, h⟩
      · exact Or.inr ⟨v, r, orAbort_eq_ok.1 hd, h⟩
      · cases h

/-- Stage 4b: op1 was there, or it was deduced and written back; a res already set is kept (R118). -/
theorem resolveOp1_ok {d : Decoded} {x : Addrs} {l l' : Locals} {s t : State}
    (h : resolveOp1 d x l s = .ok (l', t)) :
    (∃ b, l.op1 = some b ∧ l' = l ∧ t = s) ∨
      (l.op1 = none ∧ ∃ v r, deduceOp1 d l.dst l.op0 = .ok (v, r) ∧ writeBack s x.op1 v = .ok t ∧
        l' = { l with op1 := v, res := l.res.or r }) := by
  unfold resolveOp1 at h
  split at h
  · rename_i b hb
    cases h
    exact Or.inl ⟨b, hb, rfl, rfl⟩
  · rename_i hn
    obtain ⟨⟨v, r⟩, hd, h⟩ := except_bind_ok.1 h
    obtain ⟨t', hw, h⟩ := except_bind_ok.1 h
    cases h
    exact Or.inr ⟨hn, v, r, orAbort_eq_ok.1 hd, hw, rfl⟩

theorem resolveOp1_error {d : Decoded} {x : Addrs} {l : Locals} {s : State} {f : Fault}
    (h : resolveOp1 d x l s = .error f) :
    l.op1 = none ∧ ((∃ e, deduceOp1 d l.dst l.op0 = .error e ∧ f = .raised e s) ∨
      ∃ v r, deduceOp1 d l.dst l.op0 = .ok (v, r) ∧ writeBack s x.op1 v = .error f) := by
  unfold resolveOp1 at h
  split at h
  · cases h
  · rename_i hn
    refine ⟨hn, ?_⟩
    rcases except_bind_error.1 h with h | ⟨⟨v, r⟩, hd, h⟩
    · exact Or.inl (orAbort_eq_error.1 h)
    · rcases except_bind_error.1 h with h | ⟨t', -, h⟩
      · exact Or.inr ⟨v, r, orAbort_eq_ok.1 hd, h⟩
      · cases h

/-- Stage 4c: res was there, or it is computed forward (R119). -/
theorem resolveRes_ok {c : Config} {d : Decoded} {l l' : Locals} {s : State} (h : resolveRes c d l s = .ok l') :
    (∃ v, l.res = some v ∧ l' = l) ∨
      (l.res = none ∧ ∃ r, forwardRes c d.resLogic l.op0 l.op1 = .ok r ∧ l' = { l with res := r }) := by
  unfold resolveRes at h
  split at h
  · rename_i v hv
    cases h
    exact Or.inl ⟨v, hv, rfl⟩
  · rename_i hn
    obtain ⟨r, hr, h⟩ := except_bind_ok.1 h
    cases h
    exact Or.inr ⟨hn, r, orAbort_eq_ok.1 hr, rfl⟩

theorem resolveRes_error {c : Config} {d : Decoded} {l : Locals} {s : State} {f : Fault}
    (h : resolveRes c d l s = .error f) :
    l.res = none ∧ ∃ e, forwardRes c d.resLogic l.op0 l.op1 = .error e ∧ f = .raised e s := by
  unfold resolveRes at h
  split at h
  · cases h
  · rename_i hn
    refine ⟨hn, ?_⟩
    rcases except_bind_error.1 h with h | ⟨r, -, h⟩
    · exact orAbort_eq_error.1 h
    · cases h

/-- Stage 4d: dst was there, or it was deduced and written back (R121). -/
theorem resolveDst_ok {d : Decoded} {x : Addrs} {l l' : Locals} {s t : State}
    (h : resolveDst d x l s = .ok (l', t)) :
    (∃ v, l.dst = some v ∧ l' = l ∧ t = s) ∨
      (l.dst = none ∧ writeBack s x.dst (deduceDst d.opcode s.fp l.res) = .ok t ∧
        l' = { l with dst := deduceDst d.opcode s.fp l.res }) := by
  unfold resolveDst at h
  split at h
  · rename_i v hv
    cases h
    exact Or.inl ⟨v, hv, rfl, rfl⟩
  · rename_i hn
    obtain ⟨t', hw, h⟩ := except_bind_ok.1 h
    cases h
    exact Or.inr ⟨hn, hw, rfl⟩

theorem resolveDst_error {d : Decoded} {x : Addrs} {l : Locals} {s : State} {f : Fault}
    (h : resolveDst d x l s = .error f) :
    l.dst = none ∧ writeBack s x.dst (deduceDst d.opcode s.fp l.res) = .error f := by
  unfold resolveDst at h
  split at h
  · cases h
  · rename_i hn
    refine ⟨hn, ?_⟩
    rcases except_bind_error.1 h with h | ⟨t', -, h⟩
    · exact h
    · cases h

/-! The cascade as a whole. -/

/-- A cascade that goes on, taken apart into its four stages. -/
theorem resolve_ok {c : Config} {d : Decoded} {x : Addrs} {l l' : Locals} {s t : State}
    (h : resolve c d x l s = .ok (l', t)) :
    ∃ l₁ s₁ l₂ s₂ l₃, resolveOp0 c d x l s = .ok (l₁, s₁) ∧ resolveOp1 d x l₁ s₁ = .ok (l₂, s₂) ∧
      resolveRes c d l₂ s₂ = .ok l₃ ∧ resolveDst d x l₃ s₂ = .ok (l', t) := by
  unfold resolve at h
  obtain ⟨⟨l₁, s₁⟩, h₁, h⟩ := except_bind_ok.1 h
  obtain ⟨⟨l₂, s₂⟩, h₂, h⟩ := except_bind_ok.1 h
  obtain ⟨l₃, h₃, h⟩ := except_bind_ok.1 h
  exact ⟨l₁, s₁, l₂, s₂, l₃, h₁, h₂, h₃, h⟩

/-- A cascade that faults, by the stage that fails. -/
theorem resolve_error {c : Config} {d : Decoded} {x : Addrs} {l : Locals} {s : State} {f : Fault}
    (h : resolve c d x l s = .error f) :
    resolveOp0 c d x l s = .error f ∨
      ∃ l₁ s₁, resolveOp0 c d x l s = .ok (l₁, s₁) ∧ (resolveOp1 d x l₁ s₁ = .error f ∨
        ∃ l₂ s₂, resolveOp1 d x l₁ s₁ = .ok (l₂, s₂) ∧ (resolveRes c d l₂ s₂ = .error f ∨
          ∃ l₃, resolveRes c d l₂ s₂ = .ok l₃ ∧ resolveDst d x l₃ s₂ = .error f)) := by
  unfold resolve at h
  rcases except_bind_error.1 h with h | ⟨⟨l₁, s₁⟩, h₁, h⟩
  · exact Or.inl h
  refine Or.inr ⟨l₁, s₁, h₁, ?_⟩
  rcases except_bind_error.1 h with h | ⟨⟨l₂, s₂⟩, h₂, h⟩
  · exact Or.inl h
  refine Or.inr ⟨l₂, s₂, h₂, ?_⟩
  rcases except_bind_error.1 h with h | ⟨l₃, h₃, h⟩
  · exact Or.inl h
  · exact Or.inr ⟨l₃, h₃, h⟩

theorem resolveOp0_Kept {c : Config} {d : Decoded} {x : Addrs} {l l' : Locals} {s t : State}
    (h : resolveOp0 c d x l s = .ok (l', t)) : Kept x s t := by
  rcases resolveOp0_ok h with ⟨_, _, _, rfl⟩ | ⟨-, _, _, -, hw, -⟩
  · exact Kept_refl _ _
  · exact writeBack_Kept (by simp) hw

theorem resolveOp1_Kept {d : Decoded} {x : Addrs} {l l' : Locals} {s t : State}
    (h : resolveOp1 d x l s = .ok (l', t)) : Kept x s t := by
  rcases resolveOp1_ok h with ⟨_, _, _, rfl⟩ | ⟨-, _, _, -, hw, -⟩
  · exact Kept_refl _ _
  · exact writeBack_Kept (by simp) hw

theorem resolveDst_Kept {d : Decoded} {x : Addrs} {l l' : Locals} {s t : State}
    (h : resolveDst d x l s = .ok (l', t)) : Kept x s t := by
  rcases resolveDst_ok h with ⟨_, _, _, rfl⟩ | ⟨-, hw, -⟩
  · exact Kept_refl _ _
  · exact writeBack_Kept (by simp) hw

/-- The cascade keeps all that R176 says a step's write-backs keep. -/
theorem resolve_Kept {c : Config} {d : Decoded} {x : Addrs} {l l' : Locals} {s t : State}
    (h : resolve c d x l s = .ok (l', t)) : Kept x s t := by
  obtain ⟨l₁, s₁, l₂, s₂, l₃, h₁, h₂, -, h₄⟩ := resolve_ok h
  exact Kept_trans (Kept_trans (resolveOp0_Kept h₁) (resolveOp1_Kept h₂)) (resolveDst_Kept h₄)

/-- A fault of the cascade leaves a state that keeps the same (R176, R178). -/
theorem resolve_error_Kept {c : Config} {d : Decoded} {x : Addrs} {l : Locals} {s : State} {f : Fault}
    (h : resolve c d x l s = .error f) : ∃ e t, f = .raised e t ∧ Kept x s t := by
  rcases resolve_error h with h | ⟨l₁, s₁, h₁, h⟩
  · rcases (resolveOp0_error h).2 with ⟨e, -, rfl⟩ | ⟨v, r, -, hw⟩
    · exact ⟨e, s, rfl, Kept_refl _ _⟩
    · obtain ⟨w, e, -, -, rfl⟩ := writeBack_error hw
      exact ⟨e, s, rfl, Kept_refl _ _⟩
  have k₁ := resolveOp0_Kept h₁
  rcases h with h | ⟨l₂, s₂, h₂, h⟩
  · rcases (resolveOp1_error h).2 with ⟨e, -, rfl⟩ | ⟨v, r, -, hw⟩
    · exact ⟨e, s₁, rfl, k₁⟩
    · obtain ⟨w, e, -, -, rfl⟩ := writeBack_error hw
      exact ⟨e, s₁, rfl, k₁⟩
  have k₂ := Kept_trans k₁ (resolveOp1_Kept h₂)
  rcases h with h | ⟨l₃, h₃, h⟩
  · obtain ⟨-, e, -, rfl⟩ := resolveRes_error h
    exact ⟨e, s₂, rfl, k₂⟩
  · obtain ⟨-, hw⟩ := resolveDst_error h
    obtain ⟨w, e, -, -, rfl⟩ := writeBack_error hw
    exact ⟨e, s₂, rfl, k₂⟩

/-! The stages of a step together. -/

/-- A step that completes, taken apart: the addresses, the cascade, every check passed, and the commit (R110, R148). -/
theorem sequence_ok {c : Config} {d : Decoded} {s t : State} (h : sequence c d s = .ok t) :
    ∃ x l u pc ap fp, operandAddresses c d.toFields s = .ok x ∧ resolve c d x (readOperands s x) s = .ok (l, u) ∧
      assertOpcode c d s l = .ok () ∧ nextPc c d s l = .ok pc ∧ nextAp c d.apUpdate s l.res = .ok ap ∧
      nextFp c d.fpUpdate s l.dst = .ok fp ∧ strictCheck c l = .ok () ∧ t = commit u pc ap fp := by
  unfold sequence at h
  obtain ⟨x, hx, h⟩ := except_bind_ok.1 h
  obtain ⟨⟨l, u⟩, hr, h⟩ := except_bind_ok.1 h
  obtain ⟨_, ha, h⟩ := except_bind_ok.1 h
  obtain ⟨pc, hpc, h⟩ := except_bind_ok.1 h
  obtain ⟨ap, hap, h⟩ := except_bind_ok.1 h
  obtain ⟨fp, hfp, h⟩ := except_bind_ok.1 h
  obtain ⟨_, hs, h⟩ := except_bind_ok.1 h
  cases h
  exact ⟨x, l, u, pc, ap, fp, orAbort_eq_ok.1 hx, hr, orAbort_eq_ok.1 ha, orAbort_eq_ok.1 hpc, orAbort_eq_ok.1 hap,
    orAbort_eq_ok.1 hfp, orAbort_eq_ok.1 hs, rfl⟩

/-- The converse: these stages make the step complete. -/
theorem sequence_eq_ok {c : Config} {d : Decoded} {s u : State} {x : Addrs} {l : Locals} {pc ap fp : Ptr}
    (hx : operandAddresses c d.toFields s = .ok x) (hr : resolve c d x (readOperands s x) s = .ok (l, u))
    (ha : assertOpcode c d s l = .ok ()) (hpc : nextPc c d s l = .ok pc) (hap : nextAp c d.apUpdate s l.res = .ok ap)
    (hfp : nextFp c d.fpUpdate s l.dst = .ok fp) (hs : strictCheck c l = .ok ()) :
    sequence c d s = .ok (commit u pc ap fp) := by
  simp only [sequence, hx, hr, ha, hpc, hap, hfp, hs, orAbort, bind, Except.bind]

/-- A step that faults after decoding, by the stage that fails, with the state it leaves (R172, R176). -/
theorem sequence_error {c : Config} {d : Decoded} {s : State} {f : Fault} (h : sequence c d s = .error f) :
    (∃ e, operandAddresses c d.toFields s = .error e ∧ f = .raised e s) ∨
      ∃ x, operandAddresses c d.toFields s = .ok x ∧ (resolve c d x (readOperands s x) s = .error f ∨
        ∃ l u e, resolve c d x (readOperands s x) s = .ok (l, u) ∧ f = .raised e u ∧
          (assertOpcode c d s l = .error e ∨ assertOpcode c d s l = .ok () ∧
            (nextPc c d s l = .error e ∨ nextAp c d.apUpdate s l.res = .error e ∨ nextFp c d.fpUpdate s l.dst = .error e ∨
              strictCheck c l = .error e))) := by
  unfold sequence at h
  rcases except_bind_error.1 h with h | ⟨x, hx, h⟩
  · exact Or.inl (orAbort_eq_error.1 h)
  refine Or.inr ⟨x, orAbort_eq_ok.1 hx, ?_⟩
  rcases except_bind_error.1 h with h | ⟨⟨l, u⟩, hr, h⟩
  · exact Or.inl h
  refine Or.inr ?_
  rcases except_bind_error.1 h with h | ⟨_, ha, h⟩
  · obtain ⟨e, he, hf⟩ := orAbort_eq_error.1 h
    exact ⟨l, u, e, hr, hf, Or.inl he⟩
  have ha := orAbort_eq_ok.1 ha
  rcases except_bind_error.1 h with h | ⟨pc, -, h⟩
  · obtain ⟨e, he, hf⟩ := orAbort_eq_error.1 h
    exact ⟨l, u, e, hr, hf, Or.inr ⟨ha, Or.inl he⟩⟩
  rcases except_bind_error.1 h with h | ⟨ap, -, h⟩
  · obtain ⟨e, he, hf⟩ := orAbort_eq_error.1 h
    exact ⟨l, u, e, hr, hf, Or.inr ⟨ha, Or.inr (Or.inl he)⟩⟩
  rcases except_bind_error.1 h with h | ⟨fp, -, h⟩
  · obtain ⟨e, he, hf⟩ := orAbort_eq_error.1 h
    exact ⟨l, u, e, hr, hf, Or.inr ⟨ha, Or.inr (Or.inr (Or.inl he))⟩⟩
  rcases except_bind_error.1 h with h | ⟨_, -, h⟩
  · obtain ⟨e, he, hf⟩ := orAbort_eq_error.1 h
    exact ⟨l, u, e, hr, hf, Or.inr ⟨ha, Or.inr (Or.inr (Or.inr he))⟩⟩
  · cases h

/-- Whether a step completes or faults after decoding, what it leaves keeps all that R176 says; on completion only the
commit comes on top. -/
theorem runDecoded_cases (c : Config) (d : Decoded) (s : State) :
    (∃ x u pc ap fp, operandAddresses c d.toFields s = .ok x ∧ Kept x s u ∧
        runDecoded c d s = .next (commit u pc ap fp)) ∨
      (∃ e, operandAddresses c d.toFields s = .error e ∧ runDecoded c d s = .fault (.raised e s)) ∨
      ∃ x e u, operandAddresses c d.toFields s = .ok x ∧ Kept x s u ∧ runDecoded c d s = .fault (.raised e u) := by
  cases h : sequence c d s with
  | ok t =>
    obtain ⟨x, l, u, pc, ap, fp, hx, hr, -, -, -, -, -, rfl⟩ := sequence_ok h
    exact Or.inl ⟨x, u, pc, ap, fp, hx, resolve_Kept hr, by simp [runDecoded, h, toOutcome]⟩
  | error f =>
    rcases sequence_error h with ⟨e, he, rfl⟩ | ⟨x, hx, hr | ⟨l, u, e, hr, rfl, -⟩⟩
    · exact Or.inr (Or.inl ⟨e, he, by simp [runDecoded, h, toOutcome]⟩)
    · obtain ⟨e, t, rfl, k⟩ := resolve_error_Kept hr
      exact Or.inr (Or.inr ⟨x, e, t, hx, k, by simp [runDecoded, h, toOutcome]⟩)
    · exact Or.inr (Or.inr ⟨x, e, u, hx, resolve_Kept hr, by simp [runDecoded, h, toOutcome]⟩)

theorem runDecoded_next {c : Config} {d : Decoded} {s t : State} : runDecoded c d s = .next t ↔ sequence c d s = .ok t := by
  unfold runDecoded toOutcome
  cases sequence c d s <;> simp

theorem runDecoded_fault {c : Config} {d : Decoded} {s : State} {f : Fault} :
    runDecoded c d s = .fault f ↔ sequence c d s = .error f := by
  unfold runDecoded toOutcome
  cases sequence c d s <;> simp

/-- `exec` is the sequencer on the instruction's record, at the standard configuration. -/
theorem exec_eq_runDecoded (i : Instr) (s : State) : exec i s = runDecoded Config.standard i.decoded s := by
  cases i <;> rfl

/-- The standard configuration makes no strict check (R123, D15). -/
@[simp] theorem strictCheck_standard (l : Locals) : strictCheck Config.standard l = .ok () := by
  simp [strictCheck, Config.standard]

end Sys2Proof.Machine
end

