-- ==== Sys2Proof/Laws/Step.lean ====
section
/-! SUPPORT. Said once: how a step gets from the cell at pc to the instruction it runs (43_step_resolution.md R110 to R112),
and everything a step can leave behind (60_exceptions.md R176). -/

namespace Sys2Proof.Machine

/-- A Field below 2^64 is decoded as the 64-bit word of its value (R77, R111). -/
theorem decodeCell_field {e : Felt} (h : e.val < 2 ^ 64) : decodeCell (.field e) = decode (BitVec.ofNat 64 e.val) := by
  unfold decodeCell toSmallUint
  simp only [if_pos h]

/-- A Field of 2^64 or more is no encoding (R111, D7). -/
theorem decodeCell_wide {e : Felt} (h : 2 ^ 64 ≤ e.val) : decodeCell (.field e) = .error .instructionEncodingError := by
  unfold decodeCell toSmallUint
  simp only [if_neg (Nat.not_lt.2 h)]

/-- A stored instruction word is the Field of its value (R50). -/
theorem instructionCell_field {n : Nat} (h : n < 2 ^ 64) : ∃ e : Felt, instructionCell n = .field e ∧ e.val = n :=
  ⟨_, rfl, Nat.mod_eq_of_lt (h.trans two_pow_64_lt_P)⟩

theorem fetch_empty {s : State} (h : Memory.get s.mem s.pc = none) : fetch s = .error .endOfInstructions := by
  simp only [fetch, h]

theorem fetch_filled {s : State} {v : Word} (h : Memory.get s.mem s.pc = some v) : fetch s = decodeCell v := by
  simp only [fetch, h]

/-- Before the launch there is no step, for any configuration (R196). -/
theorem stepUnder_not_launched (c : Config) {s : State} (h : s.launched = false) :
    stepUnder c s = .refused .notLaunched := whenLaunched_false s h

theorem step_not_launched {s : State} (h : s.launched = false) : step s = .refused .notLaunched := whenLaunched_false s h

/-- After the launch, a step whose fetch gives an instruction is that instruction's `exec`. -/
theorem step_of_fetch {s : State} {i : Instr} (hl : s.launched = true) (h : fetch s = .ok i) : step s = exec i s := by
  rw [step, whenLaunched_true s hl, h]

/-- A step whose fetch fails leaves the state as it is (R112, R176). -/
theorem step_of_fetch_error {s : State} {e : ErrorKind} (hl : s.launched = true) (h : fetch s = .error e) :
    step s = .fault (.raised e s) := by
  rw [step, whenLaunched_true s hl, h]
  rfl

theorem withFetchWord_eq (s : State) {k n : Nat} (h : n < 2 ^ k) : s.withFetchWord k n = placeInstruction s n := by
  unfold State.withFetchWord
  rw [Nat.mod_eq_of_lt h]

/-- The cell at pc after an instruction was placed there. -/
theorem placeInstruction_get (s : State) (n : Nat) :
    Memory.get (placeInstruction s n).mem s.pc = some (instructionCell n) := by
  have hne : s.pc ≠ ⟨s.pc.seg, s.pc.off + 1⟩ := fun h => by simpa using congrArg Ptr.off h
  unfold placeInstruction
  dsimp only
  split
  · rw [get_put_other _ _ hne, get_put_self]
  · rw [get_put_self]

theorem fetch_placeInstruction (s : State) (n : Nat) : fetch (placeInstruction s n) = decodeCell (instructionCell n) := by
  rw [fetch_filled (placeInstruction_get s n)]

/-- The step of the standard configuration is `step`. -/
theorem stepUnder_standard (s : State) : stepUnder Config.standard s = step s := by
  unfold stepUnder step
  cases fetch s with
  | error e => rfl
  | ok i => exact congrArg (whenLaunched s) (exec_eq_runDecoded i s).symm

/-- Everything a step can do, for any configuration: nothing before the launch; after it a commit on top of what the
write-backs keep, or a fault that leaves the state itself when the fetch or an address fails, else what the write-backs
keep. -/
theorem stepUnder_cases (c : Config) (s : State) :
    (s.launched = false ∧ stepUnder c s = .refused .notLaunched) ∨ s.launched = true ∧
    ((∃ i x u pc ap fp, fetch s = .ok i ∧ operandAddresses c i.fields s = .ok x ∧ Kept x s u ∧
        stepUnder c s = .next (commit u pc ap fp)) ∨
      (∃ e, stepUnder c s = .fault (.raised e s)) ∨
      ∃ i x e u, fetch s = .ok i ∧ operandAddresses c i.fields s = .ok x ∧ Kept x s u ∧
        stepUnder c s = .fault (.raised e u)) := by
  cases hl : s.launched with
  | false => exact Or.inl ⟨rfl, stepUnder_not_launched c hl⟩
  | true =>
  refine Or.inr ⟨rfl, ?_⟩
  rw [stepUnder, whenLaunched_true s hl]
  cases h : fetch s with
  | error e => exact Or.inr (Or.inl ⟨e, rfl⟩)
  | ok i =>
    rcases runDecoded_cases c i.decoded s with ⟨x, u, pc, ap, fp, hx, k, h⟩ | ⟨e, -, h⟩ | ⟨x, e, u, hx, k, h⟩
    · exact Or.inl ⟨i, x, u, pc, ap, fp, rfl, hx, k, h⟩
    · exact Or.inr (Or.inl ⟨e, h⟩)
    · exact Or.inr (Or.inr ⟨i, x, e, u, rfl, hx, k, h⟩)

end Sys2Proof.Machine
end

