-- ==== Sys2Proof/Machine/ErrorCodes.lean ====
section
/-! DEFINITION. The number and the class that the error table gives each error name (60_exceptions.md R171, D20). Nothing in
the machine depends on them. -/

namespace Sys2Proof.Machine

/-- The classes of the error table; the spec's own three errors carry the class the table gives in brackets (R170,
R171). -/
inductive ErrorClass where
  /-- Raised while fetching. -/
  | fetch
  /-- Raised by the decoder's field checks. -/
  | decode
  /-- Raised by address and Word arithmetic. -/
  | addressing
  /-- Raised by the memory controller. -/
  | memory
  /-- Raised by the assertion and the register updates. -/
  | semantic
  /-- Raised by division. -/
  | arithmetic
deriving DecidableEq, Repr

/-- The code of an error name (R171). -/
def errorCode (e : ErrorKind) : Nat :=
  match e with
  | .endOfInstructions => 1
  | .instructionEncodingError => 2
  | .highBitSet => 3
  | .invalidOp1Src => 4
  | .invalidResLogic => 5
  | .invalidPcUpdate => 6
  | .invalidApUpdate => 7
  | .invalidOpcode => 8
  | .offsetUnderflow => 9
  | .segmentMismatch => 10
  | .typeMismatch => 11
  | .segmentOutOfBounds => 12
  | .writeOnce => 13
  | .unconstrainedRes => 14
  | .diffAssertValues => 15
  | .invalidOp0ForCall => 16
  | .invalidDstForCall => 17
  | .unconstrainedJnzDst => 18
  | .invalidJumpTarget => 19
  | .invalidJumpRelTarget => 20
  | .invalidJnzOp1 => 21
  | .invalidFpUpdate => 22
  | .divisionByZero => 23
  | .invalidImmOffset => 24
  | .undefinedOperand => 25
  | .capacityExceeded => 26

/-- The classes of an error name, in the table's order; only CapacityExceeded has two (R171). -/
def errorClasses (e : ErrorKind) : List ErrorClass :=
  match e with
  | .endOfInstructions | .instructionEncodingError | .highBitSet => [.fetch]
  | .invalidOp1Src | .invalidResLogic | .invalidPcUpdate | .invalidApUpdate | .invalidOpcode => [.decode]
  | .offsetUnderflow | .segmentMismatch | .typeMismatch | .invalidImmOffset => [.addressing]
  | .segmentOutOfBounds | .writeOnce => [.memory]
  | .unconstrainedRes | .diffAssertValues | .invalidOp0ForCall | .invalidDstForCall | .unconstrainedJnzDst
  | .invalidJumpTarget | .invalidJumpRelTarget | .invalidJnzOp1 | .invalidFpUpdate | .undefinedOperand => [.semantic]
  | .divisionByZero => [.arithmetic]
  | .capacityExceeded => [.addressing, .memory]

end Sys2Proof.Machine
end

