-- ==== Sys2Proof/Tests/Slice0.lean ====
section
/-! SUPPORT. The author's own tests: the well-formedness smoke test, one decoded word for each instruction, one step for each
instruction, and for every obligation with hypotheses a state and operands that meet them. Expected values come from
95_test_vectors.md or by hand from the rule named. -/

open Sys2Proof Sys2Proof.Machine

namespace Sys2Proof.Tests

/-- A Field cell. -/
def num (n : Nat) : Word := instructionCell n

/-- After a launch with PC0 = (0,0) and AP0 = (1,n): NSEG = 3, the memory Empty. -/
def start (n : Nat) : State where
  pc := ⟨0, 0⟩
  ap := ⟨1, n⟩
  fp := ⟨1, n⟩
  mem := []
  nseg := 3
  steps := 0
  launched := true

/-- The start state of part 4 of 95_test_vectors.md with a program at (0,0): NSEG = 3, pc = (0,0), ap = fp = (1,2),
[1,0] = Ptr(0,8), [1,1] = Field(4). -/
def stateS (program : List Word) : State :=
  (loadData (loadData (start 2) ⟨1, 0⟩
    [.ptr ⟨0, 8⟩, num 4]).2 ⟨0, 0⟩ program).2

/-- A start state with an Empty execution segment: NSEG = 3, pc = (0,0), ap = fp = (1,n). -/
def bare (n : Nat) (program : List Word) : State :=
  (loadData (start n) ⟨0, 0⟩ program).2

/-- A state with one more cell. -/
def with1 (s : State) (a : Ptr) (w : Word) : State := { s with mem := Memory.put s.mem a w }

/-- What a test looks at after a step: pc, ap, fp, STEPS and some cells. -/
structure Seen where
  /-- pc. -/
  pc : Ptr
  /-- ap. -/
  ap : Ptr
  /-- fp. -/
  fp : Ptr
  /-- STEPS. -/
  steps : Nat
  /-- The contents of the cells asked for. -/
  cells : List (Option Word)
deriving DecidableEq, Repr

/-- One step, and what a test looks at after it. -/
def after (s : State) (cells : List Ptr) : Option Seen :=
  (nextOf (step s)).map fun t => ⟨t.pc, t.ap, t.fp, t.steps, cells.map (Memory.get t.mem)⟩

/-- The reason a step does not exist, if it does not. -/
def refusalOf (o : Host.Outcome State Fault Refusal) : Option Refusal :=
  match o with
  | .refused r => some r
  | .next _ => none
  | .fault _ => none

/-- The operands dst=[ap+0] op0=[ap+1] op1=[ap+2] of part 2.6 of 95_test_vectors.md. -/
def k (r : ResLogic) : Fields where
  offDst := 0
  offOp0 := 1
  offOp1 := 2
  dstReg := .ap
  op0Reg := .ap
  op1Src := .ap
  resLogic := r
  apUpdate := .regular

/-- Fields that differ from a usual instruction only where a test says so. -/
def plain : Fields where
  offDst := 0
  offOp0 := 0
  offOp1 := 0
  dstReg := .ap
  op0Reg := .ap
  op1Src := .ap
  resLogic := .op1
  apUpdate := .regular

/-! Well-formedness: one ill-formed term for each check, and the boundaries of the offset range (R52, R55, R57, R59). -/

/-- The boundary offsets are in range. -/
theorem test_wf_accepts :
    (Instr.nopReg { plain with offDst := -32768, offOp0 := 32767 }).wf = true := by decide +kernel

/-- offDst beyond 16 bits. -/
theorem test_wf_refuses_offDst :
    (Instr.nopReg { plain with offDst := 32768 }).wf = false := by decide +kernel

/-- offOp0 beyond 16 bits. -/
theorem test_wf_refuses_offOp0 :
    (Instr.nopReg { plain with offOp0 := -32769 }).wf = false := by decide +kernel

/-- offOp1 beyond 16 bits. -/
theorem test_wf_refuses_offOp1 :
    (Instr.nopReg { plain with offOp1 := 32768 }).wf = false := by decide +kernel

/-- Raw res_logic 0 under Jnz decodes to Unconstrained. -/
theorem test_wf_refuses_op1_under_jnz :
    (Instr.nopJnz plain).wf = false := by decide +kernel

/-- Unconstrained occurs with Jnz only. -/
theorem test_wf_refuses_unconstrained :
    (Instr.nopReg { plain with resLogic := .unconstrained }).wf = false := by decide +kernel

/-- Raw ap_update 0 in a Call decodes to Add2. -/
theorem test_wf_refuses_regular_ap_in_call :
    (Instr.callReg plain).wf = false := by decide +kernel

/-- Add2 occurs with Call only. -/
theorem test_wf_refuses_add2 :
    (Instr.retReg { plain with apUpdate := .add2 }).wf = false := by decide +kernel

/-! Decoding: the sixteen example words of R150 to R165, and one word per opcode written out bit by bit from R51: bit 63,
opcode 62:60, ap_update 59:58, pc_update 57:55, res_logic 54:53, op1_src 52:50, op0_reg, dst_reg, then the three offsets. -/

/-- Its example word. -/
theorem test_decode_nopReg :
    decode 0x040680017fff8000#64 = .ok (.nopReg ⟨0, -1, 1, .ap, .fp, .imm, .op1, .add⟩) := by decide

/-- Its example word. -/
theorem test_decode_nopJmp :
    decode 0x008a7ffe7fff8000#64 = .ok (.nopJmp ⟨0, -1, -2, .ap, .fp, .fp, .op1, .regular⟩) := by decide

/-- Its example word. -/
theorem test_decode_nopJrel :
    decode 0x010680017fff8000#64 = .ok (.nopJrel ⟨0, -1, 1, .ap, .fp, .imm, .op1, .regular⟩) := by decide

/-- Its example word. -/
theorem test_decode_nopJnz :
    decode 0x020680017fff7fff#64 = .ok (.nopJnz ⟨-1, -1, 1, .ap, .fp, .imm, .unconstrained, .regular⟩) := by decide

/-- Its example word. -/
theorem test_decode_callReg :
    decode 0x10087fff80018000#64 = .ok (.callReg ⟨0, 1, -1, .ap, .ap, .fp, .op1, .add2⟩) := by decide

/-- Its example word. -/
theorem test_decode_callJmp :
    decode 0x10887ffe80018000#64 = .ok (.callJmp ⟨0, 1, -2, .ap, .ap, .fp, .op1, .add2⟩) := by decide

/-- Its example word. -/
theorem test_decode_callJrel :
    decode 0x1104800180018000#64 = .ok (.callJrel ⟨0, 1, 1, .ap, .ap, .imm, .op1, .add2⟩) := by decide

/-- Its example word. -/
theorem test_decode_callJnz :
    decode 0x1204800180018000#64 = .ok (.callJnz ⟨0, 1, 1, .ap, .ap, .imm, .unconstrained, .add2⟩) := by decide

/-- Its example word. -/
theorem test_decode_retReg :
    decode 0x200b7fff7fff7ffe#64 = .ok (.retReg ⟨-2, -1, -1, .fp, .fp, .fp, .op1, .regular⟩) := by decide

/-- Its example word. -/
theorem test_decode_retJmp :
    decode 0x208b7fff7fff7ffe#64 = .ok (.retJmp ⟨-2, -1, -1, .fp, .fp, .fp, .op1, .regular⟩) := by decide

/-- Its example word. -/
theorem test_decode_retJrel :
    decode 0x210b7fff7ffe7ffe#64 = .ok (.retJrel ⟨-2, -2, -1, .fp, .fp, .fp, .op1, .regular⟩) := by decide

/-- Its example word. -/
theorem test_decode_retJnz :
    decode 0x220b7fff7ffe7ffe#64 = .ok (.retJnz ⟨-2, -2, -1, .fp, .fp, .fp, .unconstrained, .regular⟩) := by decide

/-- Its example word. -/
theorem test_decode_aeqReg :
    decode 0x482680017fff8000#64 = .ok (.aeqReg ⟨0, -1, 1, .ap, .fp, .imm, .add, .add1⟩) := by decide

/-- Its example word. -/
theorem test_decode_aeqJmp :
    decode 0x488a7ffe7fff8000#64 = .ok (.aeqJmp ⟨0, -1, -2, .ap, .fp, .fp, .op1, .add1⟩) := by decide

/-- Its example word. -/
theorem test_decode_aeqJrel :
    decode 0x490a7fff7fff8000#64 = .ok (.aeqJrel ⟨0, -1, -1, .ap, .fp, .fp, .op1, .add1⟩) := by decide

/-- Its example word. -/
theorem test_decode_aeqJnz :
    decode 0x4a4a7fff7fff8000#64 = .ok (.aeqJnz ⟨0, -1, -1, .ap, .fp, .fp, .mul, .add1⟩) := by decide

/-- NOP.JREL dst=[fp+1] op0=[ap-1] op1=[ap+2] res=ADD ap=ADD1. -/
theorem test_decode_bits_nop :
    decode 0b0000100100110001100000000000001001111111111111111000000000000001#64 =
        .ok (.nopJrel ⟨1, -1, 2, .fp, .ap, .ap, .add, .add1⟩) := by decide

/-- CALL.JMP dst=[ap+0] op0=[ap+1] op1=imm res=OP1 ap=REG, which is Add2. -/
theorem test_decode_bits_call :
    decode 0b0001000010000100100000000000000110000000000000011000000000000000#64 =
        .ok (.callJmp ⟨0, 1, 1, .ap, .ap, .imm, .op1, .add2⟩) := by decide

/-- RET.JNZ dst=[fp-2] op0=[fp-1] op1=[op0+0] res=OP1, which is Unconstrained. -/
theorem test_decode_bits_ret :
    decode 0b0010001000000011100000000000000001111111111111110111111111111110#64 =
        .ok (.retJnz ⟨-2, -1, 0, .fp, .fp, .op0, .unconstrained, .regular⟩) := by decide

/-- AEQ.REG dst=[ap+0] op0=[ap-1] op1=[fp-3] res=MUL ap=ADD. -/
theorem test_decode_bits_aeq :
    decode 0b0100010001001000011111111111110101111111111111111000000000000000#64 =
        .ok (.aeqReg ⟨0, -1, -3, .ap, .ap, .fp, .mul, .add⟩) := by decide

/-- The codes of R171 run from 1 to 26 in the table's order. -/
theorem test_codes :
    errorCode .endOfInstructions = 1 ∧ errorCode .writeOnce = 13 ∧ errorCode .divisionByZero = 23 ∧
      errorCode .capacityExceeded = 26 ∧ errorClasses .capacityExceeded = [.addressing, .memory] := by decide

/-! One step of each instruction, from state S (part 4) unless the comment says otherwise. -/

/-- The example of its rule. -/
theorem test_step_nopReg :
    after (stateS [num 0x040680017fff8000, num 3]) [⟨1, 2⟩] = some ⟨⟨0, 2⟩, ⟨1, 5⟩, ⟨1, 2⟩, 1, [none]⟩ :=
      by decide +kernel

/-- The example of its rule. -/
theorem test_step_nopJmp :
    after (stateS [num 0x008a7ffe7fff8000]) [⟨1, 2⟩] = some ⟨⟨0, 8⟩, ⟨1, 2⟩, ⟨1, 2⟩, 1, [none]⟩ := by decide +kernel

/-- The example of its rule. -/
theorem test_step_nopJrel :
    after (stateS [num 0x010680017fff8000, num 4]) [⟨1, 2⟩] = some ⟨⟨0, 4⟩, ⟨1, 2⟩, ⟨1, 2⟩, 1, [none]⟩ :=
      by decide +kernel

/-- The example of its rule. -/
theorem test_step_nopJnz :
    after (stateS [num 0x020680017fff7fff, num 10]) [⟨1, 2⟩] = some ⟨⟨0, 10⟩, ⟨1, 2⟩, ⟨1, 2⟩, 1, [none]⟩ :=
      by decide +kernel

/-- The example of its rule. -/
theorem test_step_callReg :
    after (stateS [num 0x10087fff80018000]) [⟨1, 2⟩, ⟨1, 3⟩] =
        some ⟨⟨0, 1⟩, ⟨1, 4⟩, ⟨1, 4⟩, 1, [some (.ptr ⟨1, 2⟩), some (.ptr ⟨0, 1⟩)]⟩ := by decide +kernel

/-- The example of its rule. -/
theorem test_step_callJmp :
    after (stateS [num 0x10887ffe80018000]) [⟨1, 2⟩, ⟨1, 3⟩] =
        some ⟨⟨0, 8⟩, ⟨1, 4⟩, ⟨1, 4⟩, 1, [some (.ptr ⟨1, 2⟩), some (.ptr ⟨0, 1⟩)]⟩ := by decide +kernel

/-- The example of its rule. -/
theorem test_step_callJrel :
    after (stateS [num 0x1104800180018000, num 5]) [⟨1, 2⟩, ⟨1, 3⟩] =
        some ⟨⟨0, 5⟩, ⟨1, 4⟩, ⟨1, 4⟩, 1, [some (.ptr ⟨1, 2⟩), some (.ptr ⟨0, 2⟩)]⟩ := by decide +kernel

/-- The example of its rule. -/
theorem test_step_callJnz :
    after (stateS [num 0x1204800180018000, num 6]) [⟨1, 2⟩, ⟨1, 3⟩] =
        some ⟨⟨0, 6⟩, ⟨1, 4⟩, ⟨1, 4⟩, 1, [some (.ptr ⟨1, 2⟩), some (.ptr ⟨0, 2⟩)]⟩ := by decide +kernel

/-- The example of its rule. -/
theorem test_step_retReg :
    after (stateS [num 0x200b7fff7fff7ffe]) [⟨1, 2⟩] = some ⟨⟨0, 1⟩, ⟨1, 2⟩, ⟨0, 8⟩, 1, [none]⟩ := by decide +kernel

/-- V-S3, from its own start state. -/
theorem test_step_retJmp :
    after { with1 (with1 (with1 (bare 5 []) ⟨0, 7⟩ (num 0x208b7fff7fff7ffe)) ⟨1, 3⟩ (.ptr ⟨1, 0⟩)) ⟨1, 4⟩ (.ptr ⟨0,
        2⟩) with pc := ⟨0, 7⟩, ap := ⟨1, 9⟩ } [⟨1, 3⟩] =
        some ⟨⟨0, 2⟩, ⟨1, 9⟩, ⟨1, 0⟩, 1, [some (.ptr ⟨1, 0⟩)]⟩ := by decide +kernel

/-- The example of its rule. -/
theorem test_step_retJrel :
    after (stateS [num 0x210b7fff7ffe7ffe]) [⟨1, 2⟩] = some ⟨⟨0, 4⟩, ⟨1, 2⟩, ⟨0, 8⟩, 1, [none]⟩ := by decide +kernel

/-- The example of its rule. -/
theorem test_step_retJnz :
    after (stateS [num 0x220b7fff7ffe7ffe]) [⟨1, 2⟩] = some ⟨⟨0, 4⟩, ⟨1, 2⟩, ⟨0, 8⟩, 1, [none]⟩ := by decide +kernel

/-- The example of its rule. -/
theorem test_step_aeqReg :
    after (stateS [num 0x482680017fff8000, num 5]) [⟨1, 2⟩] = some ⟨⟨0, 2⟩, ⟨1, 3⟩, ⟨1, 2⟩, 1, [some (num 9)]⟩ :=
      by decide +kernel

/-- The example of its rule. -/
theorem test_step_aeqJmp :
    after (stateS [num 0x488a7ffe7fff8000]) [⟨1, 2⟩] = some ⟨⟨0, 8⟩, ⟨1, 3⟩, ⟨1, 2⟩, 1, [some (.ptr ⟨0, 8⟩)]⟩ :=
      by decide +kernel

/-- The example of its rule. -/
theorem test_step_aeqJrel :
    after (stateS [num 0x490a7fff7fff8000]) [⟨1, 2⟩] = some ⟨⟨0, 4⟩, ⟨1, 3⟩, ⟨1, 2⟩, 1, [some (num 4)]⟩ :=
      by decide +kernel

/-- The example of its rule. -/
theorem test_step_aeqJnz :
    after (stateS [num 0x4a4a7fff7fff8000]) [⟨1, 2⟩] = some ⟨⟨0, 4⟩, ⟨1, 3⟩, ⟨1, 2⟩, 1, [some (num 16)]⟩ :=
      by decide +kernel

/-! Corners of single steps. -/

/-- V-S4, dst zero and the immediate Empty: op1 is not looked at. -/
theorem test_jnz_not_taken :
    after (with1 (bare 1 [num 0x020680017fff7fff]) ⟨1, 0⟩ (num 0)) [] = some ⟨⟨0, 2⟩, ⟨1, 1⟩, ⟨1, 1⟩, 1, []⟩ :=
      by decide +kernel

/-- K37: the zero divisor is swallowed. -/
theorem test_mul_zero_divisor :
    errorOf (step (with1 (with1 (bare 3 [num 0x4050800280018000]) ⟨1, 3⟩ (num 18)) ⟨1, 5⟩ (num 0))) =
        some .unconstrainedRes := by decide +kernel

/-- K31. -/
theorem test_mul_deduces_by_field_division :
    after (with1 (with1 (bare 3 [num 0x4050800280018000]) ⟨1, 3⟩ (num 18)) ⟨1, 5⟩ (num 3)) [⟨1, 4⟩] =
        some ⟨⟨0, 1⟩, ⟨1, 3⟩, ⟨1, 3⟩, 1, [some (num 6)]⟩ := by decide +kernel

/-- AP4: P - 2 + 1 does not wrap when it is added to ap. -/
theorem test_ap_plus_res_is_an_integer_sum :
    after (with1 (with1 (bare 3 [num 0x0430800280018000]) ⟨1, 4⟩ (num (P - 2))) ⟨1, 5⟩ (num 1)) [] =
        some ⟨⟨0, 1⟩, ⟨1, P + 2⟩, ⟨1, 3⟩, 1, []⟩ := by decide +kernel

/-- V-S2a. -/
theorem test_call_jump_to_field_keeps_the_frame :
    (leftOf (step (bare 0 [num 0x1084800180018000, num 5]))).map (fun t => (t.pc, t.steps, Memory.get t.mem ⟨1, 0⟩,
        Memory.get t.mem ⟨1, 1⟩)) =
        some (⟨0, 0⟩, 0, some (.ptr ⟨1, 0⟩), some (.ptr ⟨0, 2⟩)) := by decide +kernel

/-- R199 (a): the step after the WriteOnce fault ends otherwise. -/
theorem test_retry_a :
    (leftOf (step (bare 0 [num 0x1104800180008000, num 5]))).map (fun u => (Memory.get u.mem ⟨1, 0⟩, errorOf (step
        u))) =
        some (some (.ptr ⟨0, 2⟩), some .invalidDstForCall) := by decide +kernel

/-- R199 (b): the second attempt completes. -/
theorem test_retry_b :
    (leftOf (step (bare 0 [num 0x1090800180018000]))).map (fun u => after u []) =
        some (some ⟨⟨0, 1⟩, ⟨1, 2⟩, ⟨1, 2⟩, 1, []⟩) := by decide +kernel

/-- From reset there is no step, nor after a program is loaded: the registers are not written (R29, R196). -/
theorem test_reset_has_no_step :
    refusalOf (step State.reset) = some .notLaunched ∧
      (hostCall Config.standard .step (hostCalls Config.standard [.addSegment, .loadData ⟨0, 0⟩ [num
        0x0010800080008000]] State.reset)).1 =
        .refused := by decide +kernel

/-- Loaded and launched, the first step fetches at PC0 (R196); a second launch is refused (R193). -/
theorem test_launch_then_step :
    after (hostCalls Config.standard [.addSegment, .loadData ⟨0, 0⟩ [num 0x0010800080008000], .launch ⟨0, 0⟩ ⟨1, 4⟩,
        .launch ⟨0, 9⟩ ⟨1, 9⟩] State.reset) [] =
        some ⟨⟨0, 1⟩, ⟨1, 4⟩, ⟨1, 4⟩, 1, []⟩ := by decide +kernel

/-- The instruction placed in the reset state is the first to run. -/
theorem test_withFetchWord_runs_first :
    (nextOf (step (State.reset.withFetchWord 64 0x0010800080008000))).map (fun t => (t.pc, t.steps)) =
        some (⟨0, 1⟩, 1) := by decide +kernel

/-! Hypotheses of the obligations on units U1, U1b, U4 and the host surface. -/

/-- A zero and a non-zero element; A21: the inverse of 2. -/
theorem test_hyp_FieldInverseIsUnique :
    (felt 0).val = 0 ∧ (felt 2).val ≠ 0 ∧
      finv (felt 2) = .ok (felt 1809251394333065606848661391547535052811553607665798349986546028067936010241) :=
      by decide +kernel

/-- A zero divisor and A26, 7 / 2. -/
theorem test_hyp_FieldDivision :
    (felt 0).val = 0 ∧ (felt 2).val ≠ 0 ∧
      fdiv (felt 7) (felt 2) =
        .ok (felt 1809251394333065606848661391547535052811553607665798349986546028067936010244) := by decide +kernel

/-- A non-zero element; A22: the inverse of 3. -/
theorem test_hyp_FieldLawsHold :
    (felt 3).val ≠ 0 ∧
      finv (felt 3) = .ok (felt 1206167596222043737899107594365023368541035738443865566657697352045290673494) :=
      by decide +kernel

/-- Unbounded offsets; a bound met and one passed by one; a zero and a non-zero divisor. -/
theorem test_hyp_WordArithmeticTable :
    Config.standard.maxOffset = none ∧ wadd ⟨some 8, none, false⟩ (.ptr ⟨1, 5⟩) (num 3) = .ok (.ptr ⟨1, 8⟩) ∧
      wadd ⟨some 7, none, false⟩ (.ptr ⟨1, 5⟩) (num 3) = .error .capacityExceeded ∧ (felt 0).val = 0 ∧
      (felt 4).val ≠ 0 := by decide +kernel

/-- W3 and W9: a Ptr result of each of wadd and wsub. -/
theorem test_hyp_WordOperationsKeepTheSegment :
    wadd Config.standard (.ptr ⟨1, 5⟩) (num 3) = .ok (.ptr ⟨1, 8⟩) ∧
      wsub (.ptr ⟨1, 5⟩) (num 5) = .ok (.ptr ⟨1, 0⟩) := by decide +kernel

/-- Segment NSEG, segment NSEG - 1 Filled, and Empty. -/
theorem test_hyp_InsertFollowsTheWriteOnceRule :
    (stateS []).nseg ≤ 3 ∧ 2 < (stateS []).nseg ∧ Memory.get (stateS []).mem ⟨2, 0⟩ = none ∧
      Memory.get (stateS []).mem ⟨1, 1⟩ = some (num 4) ∧ num 4 ≠ num 5 := by decide +kernel

/-- No bound; a bound one above NSEG; a bound reached. -/
theorem test_hyp_AddSegmentAllocatesTheNext :
    Config.standard.maxSegments = none ∧ (⟨none, some 4, false⟩ : Config).maxSegments = some 4 ∧
      (stateS []).nseg < 4 ∧ (⟨none, some 3, false⟩ : Config).maxSegments = some (stateS []).nseg := by decide +kernel

/-- M11 and M13: a list that loads, and one whose second word meets another. -/
theorem test_hyp_LoadDataFillsConsecutiveCells :
    (loadData (stateS []) ⟨0, 0⟩ [num 10, .ptr ⟨1, 0⟩, num 12]).1 = .ok ⟨0, 3⟩ ∧
      (loadData (stateS []) ⟨1, 0⟩ [.ptr ⟨0, 8⟩, num 98, num 15]).1 = .error .writeOnce := by decide +kernel

/-- V-S6a: an insert that succeeds, then one of another word that fails after a step. -/
theorem test_hyp_WriteOnceLaw :
    Machine.insert (stateS []) ⟨1, 2⟩ (num 5) = .ok (with1 (stateS []) ⟨1, 2⟩ (num 5)) ∧
      (hostCall Config.standard (.insert ⟨1, 2⟩ (num 3)) (hostCalls Config.standard [.step, .addSegment] (with1
        (stateS []) ⟨1, 2⟩ (num 5)))).1 =
        .failed .writeOnce := by decide +kernel

/-- A step that succeeds, one that fails, and the invariant; the launch is recorded. -/
theorem test_hyp_HostCallsAndStepsOnlyGrow :
    (bare 3 []).launched = true ∧ (hostCall Config.standard .step (bare 3 [num 0x0010800280018000])).1 = .done ∧
      (hostCall Config.standard .step (bare 3 [])).1 = .failed .endOfInstructions ∧ (bare 3 []).inv :=
      by decide +kernel

/-- Every operation both succeeding and failing; states before and after the launch, and a host call that is no step.
-/
theorem test_hyp_HostCalls :
    addSegment Config.standard (bare 3 []) = .ok (⟨3, 0⟩, { bare 3 [] with nseg := 4 }) ∧
      addSegment ⟨none, some 3, false⟩ (bare 3 []) = .error .capacityExceeded ∧
      Machine.insert (stateS []) ⟨1, 2⟩ (num 5) = .ok (with1 (stateS []) ⟨1, 2⟩ (num 5)) ∧
      Machine.insert (bare 3 []) ⟨3, 0⟩ (num 5) = .error .segmentOutOfBounds ∧
      (loadData (stateS []) ⟨0, 0⟩ [num 10, .ptr ⟨1, 0⟩, num 12]).1 = .ok ⟨0, 3⟩ ∧
      (loadData (stateS []) ⟨1, 0⟩ [.ptr ⟨0, 8⟩, num 98, num 15]).1 = .error .writeOnce ∧
      (nextOf (stepUnder Config.standard (bare 3 [num 0x0010800280018000]))).isSome = true ∧
      errorOf (stepUnder Config.standard (bare 3 [])) = some .endOfInstructions ∧ State.reset.launched = false ∧
      (bare 3 []).launched = true ∧ HostCall.addSegment ≠ .step := by decide +kernel

/-- The invariant with a step that completes and one that faults after writing. -/
theorem test_hyp_StepKeepsTheInvariant :
    (stateS [num 0x10087fff80018000]).inv ∧ (nextOf (step (stateS [num 0x10087fff80018000]))).isSome = true ∧
      (bare 0 [num 0x1084800180018000, num 5]).inv ∧
      (leftOf (step (bare 0 [num 0x1084800180018000, num 5]))).isSome = true := by decide +kernel

/-! Hypotheses of the obligations on decoding and on the step as a whole. -/

/-- A well-formed instruction of each opcode with boundary offsets. -/
theorem test_hyp_DecodeOfEncode :
    (Instr.nopJnz { plain with offDst := -32768, resLogic := .unconstrained }).wf = true ∧
      (Instr.callJmp { plain with offOp0 := 32767, apUpdate := .add2 }).wf = true ∧
      (Instr.retReg { plain with offOp1 := -32768 }).wf = true ∧
      (Instr.aeqJrel { plain with resLogic := .mul, apUpdate := .add1 }).wf = true := by decide +kernel

/-- E2: the all-zero word is legal. -/
theorem test_hyp_EncodeOfDecode :
    decode 0#64 = .ok (.nopReg ⟨-32768, -32768, -32768, .ap, .ap, .op0, .op1, .regular⟩) := by decide

/-- X16, X17, X18, X19, X20 and X12: a word for each clause. -/
theorem test_hyp_FirstBadField :
    bits 0xfffc800080008000#64 63 63 = 1 ∧ bits 0x7ffc800080008000#64 63 63 = 0 ∧
      bits 0x7ffc800080008000#64 52 50 ∉ [0, 1, 2, 4] ∧ bits 0x7fe0800080008000#64 63 63 = 0 ∧
      bits 0x7fe0800080008000#64 52 50 ∈ [0, 1, 2, 4] ∧ bits 0x7fe0800080008000#64 54 53 = 3 ∧
      bits 0x7f80800080008000#64 63 63 = 0 ∧ bits 0x7f80800080008000#64 52 50 ∈ [0, 1, 2, 4] ∧
      bits 0x7f80800080008000#64 54 53 ≠ 3 ∧ bits 0x7f80800080008000#64 57 55 ∉ [0, 1, 2, 4] ∧
      bits 0x7c00800080008000#64 63 63 = 0 ∧ bits 0x7c00800080008000#64 52 50 ∈ [0, 1, 2, 4] ∧
      bits 0x7c00800080008000#64 54 53 ≠ 3 ∧ bits 0x7c00800080008000#64 57 55 ∈ [0, 1, 2, 4] ∧
      bits 0x7c00800080008000#64 59 58 = 3 ∧ bits 0x3000800080008000#64 63 63 = 0 ∧
      bits 0x3000800080008000#64 52 50 ∈ [0, 1, 2, 4] ∧ bits 0x3000800080008000#64 54 53 ≠ 3 ∧
      bits 0x3000800080008000#64 57 55 ∈ [0, 1, 2, 4] ∧ bits 0x3000800080008000#64 59 58 ≠ 3 ∧
      bits 0x3000800080008000#64 62 60 ∉ [0, 1, 2, 4] := by decide +kernel

/-- After the launch, the cell at pc is a Field below 2^64 that decodes; a state before it. -/
theorem test_hyp_StepRunsTheDecodedInstruction :
    (bare 3 []).launched = true ∧ State.reset.launched = false ∧
      Memory.get (bare 3 [.field (felt 0x0010800280018000)]).mem ⟨0, 0⟩ = some (.field (felt 0x0010800280018000)) ∧
      (felt 0x0010800280018000).val < 2 ^ 64 ∧
      decode (BitVec.ofNat 64 (felt 0x0010800280018000).val) = .ok (.nopReg ⟨0, 1, 2, .ap, .ap, .ap, .op1, .regular⟩) :=
      by decide +kernel

/-- FE1, FE3, FE4 and FE6: Empty, a Ptr, 2^64, and 2^64 - 1, which does not decode; all after the launch. -/
theorem test_hyp_FetchErrors :
    (bare 3 []).launched = true ∧ Memory.get (bare 3 []).mem ⟨0, 0⟩ = none ∧
      Memory.get (bare 3 [.ptr ⟨0, 0⟩]).mem ⟨0, 0⟩ = some (.ptr ⟨0, 0⟩) ∧
      Memory.get (bare 3 [num (2 ^ 64)]).mem ⟨0, 0⟩ = some (.field (felt (2 ^ 64))) ∧ 2 ^ 64 ≤ (felt (2 ^ 64)).val ∧
      Memory.get (bare 3 [num (2 ^ 64 - 1)]).mem ⟨0, 0⟩ = some (.field (felt (2 ^ 64 - 1))) ∧
      (felt (2 ^ 64 - 1)).val < 2 ^ 64 ∧ decode (BitVec.ofNat 64 (felt (2 ^ 64 - 1)).val) = .error .highBitSet :=
      by decide +kernel

/-! Hypotheses of the obligations on operand forms and selectors. -/

/-- Offset 0, an offset down to 0, and one below it (R101). -/
theorem test_hyp_Addresses :
    offsetBy Config.standard ⟨1, 5⟩ 0 = .ok ⟨1, 5⟩ ∧ offsetBy Config.standard ⟨1, 5⟩ (-5) = .ok ⟨1, 0⟩ ∧
      offsetBy Config.standard ⟨1, 5⟩ (-6) = .error .offsetUnderflow := by decide +kernel

/-- An error of each of the three, in the order dst, op0, op1; AU6, AU7 and AU8, an immediate offset of 1 and of 2, fp
and ap. -/
theorem test_hyp_OperandAddresses :
    dstAddress Config.standard { plain with offDst := -1, offOp0 := -2, op1Src := .imm } (bare 0 []) =
        .error .offsetUnderflow ∧
      dstAddress Config.standard { plain with offOp0 := -2 } (bare 0 []) = .ok ⟨1, 0⟩ ∧
      op0Address Config.standard { plain with offOp0 := -2 } (bare 0 []) = .error .offsetUnderflow ∧
      op0Address Config.standard plain (bare 0 []) = .ok ⟨1, 0⟩ ∧
      op1Address Config.standard { plain with op1Src := .imm } (bare 0 []) ⟨1, 0⟩ = .error .invalidImmOffset ∧
      op1Address Config.standard plain (bare 0 []) ⟨1, 0⟩ = .ok ⟨1, 0⟩ ∧
      op1Address Config.standard { plain with op1Src := .op0, offOp1 := 2 } (stateS []) ⟨1, 0⟩ = .ok ⟨0, 10⟩ ∧
      op1Address Config.standard { plain with op1Src := .op0 } (stateS []) ⟨1, 1⟩ = .error .typeMismatch ∧
      op1Address Config.standard { plain with op1Src := .op0 } (stateS []) ⟨1, 2⟩ = .error .typeMismatch ∧
      op1Address Config.standard { plain with op1Src := .imm, offOp1 := 1 } (stateS []) ⟨1, 2⟩ = .ok ⟨0, 1⟩ ∧
      op1Address Config.standard { plain with op1Src := .imm, offOp1 := 2 } (stateS []) ⟨1, 2⟩ =
        .error .invalidImmOffset ∧
      op1Address Config.standard { plain with op1Src := .fp, offOp1 := -2 } (stateS []) ⟨1, 2⟩ = .ok ⟨1, 0⟩ ∧
      op1Address Config.standard { plain with op1Src := .ap, offOp1 := 0 } (stateS []) ⟨1, 2⟩ = .ok ⟨1, 2⟩ :=
      by decide +kernel

/-- Both sizes; a record for each pc_update; dst absent, zero and not zero. -/
theorem test_hyp_NextPcAndFp :
    { plain with op1Src := .imm }.op1Src = .imm ∧ plain.op1Src ≠ .imm ∧
      (plain.decoded .noOp .regular).pcUpdate = .regular ∧ (plain.decoded .noOp .jump).pcUpdate = .jump ∧
      (plain.decoded .noOp .jumpRel).pcUpdate = .jumpRel ∧ (plain.decoded .noOp .jnz).pcUpdate = .jnz ∧
      (⟨none, none, none, none⟩ : Locals).dst = none ∧ isZero (.ptr ⟨0, 0⟩) = true ∧ isZero (.ptr ⟨0, 1⟩) = false :=
      by decide +kernel

/-! Hypotheses of the completion statements, from state S: the operand addresses, the operands and the next ap of the example of
each instruction's rule. -/

/-- The operands of its example. -/
theorem test_hyp_nopReg :
    operandAddresses Config.standard ⟨0, -1, 1, .ap, .fp, .imm, .op1, .add⟩ (stateS [num 0x040680017fff8000, num 3]) =
        .ok ⟨⟨1, 2⟩, ⟨1, 1⟩, ⟨0, 1⟩⟩ ∧
      forwardRes Config.standard .op1 (Memory.get (stateS [num 0x040680017fff8000, num 3]).mem ⟨1, 1⟩) (Memory.get
        (stateS [num 0x040680017fff8000, num 3]).mem ⟨0, 1⟩) =
        .ok (some (.field (felt 3))) ∧
      nextAp Config.standard .add (stateS [num 0x040680017fff8000, num 3]) (some (.field (felt 3))) = .ok ⟨1, 5⟩ :=
      by decide +kernel

/-- The operands of its example. -/
theorem test_hyp_nopJmp :
    operandAddresses Config.standard ⟨0, -1, -2, .ap, .fp, .fp, .op1, .regular⟩ (stateS [num 0x008a7ffe7fff8000]) =
        .ok ⟨⟨1, 2⟩, ⟨1, 1⟩, ⟨1, 0⟩⟩ ∧
      forwardRes Config.standard .op1 (Memory.get (stateS [num 0x008a7ffe7fff8000]).mem ⟨1, 1⟩) (Memory.get (stateS
        [num 0x008a7ffe7fff8000]).mem ⟨1, 0⟩) =
        .ok (some (.ptr ⟨0, 8⟩)) ∧
      nextAp Config.standard .regular (stateS [num 0x008a7ffe7fff8000]) (some (.ptr ⟨0, 8⟩)) = .ok ⟨1, 2⟩ :=
      by decide +kernel

/-- The operands of its example. -/
theorem test_hyp_nopJrel :
    operandAddresses Config.standard ⟨0, -1, 1, .ap, .fp, .imm, .op1, .regular⟩ (stateS [num 0x010680017fff8000, num
        4]) =
        .ok ⟨⟨1, 2⟩, ⟨1, 1⟩, ⟨0, 1⟩⟩ ∧
      forwardRes Config.standard .op1 (Memory.get (stateS [num 0x010680017fff8000, num 4]).mem ⟨1, 1⟩) (Memory.get
        (stateS [num 0x010680017fff8000, num 4]).mem ⟨0, 1⟩) =
        .ok (some (.field (felt 4))) ∧
      nextAp Config.standard .regular (stateS [num 0x010680017fff8000, num 4]) (some (.field (felt 4))) = .ok ⟨1, 2⟩ :=
      by decide +kernel

/-- Taken: dst is Field(4). -/
theorem test_hyp_nopJnz :
    operandAddresses Config.standard ⟨-1, -1, 1, .ap, .fp, .imm, .unconstrained, .regular⟩ (stateS [num
        0x020680017fff7fff, num 10]) =
        .ok ⟨⟨1, 1⟩, ⟨1, 1⟩, ⟨0, 1⟩⟩ ∧
      forwardRes Config.standard .unconstrained (Memory.get (stateS [num 0x020680017fff7fff, num 10]).mem ⟨1, 1⟩)
        (Memory.get (stateS [num 0x020680017fff7fff, num 10]).mem ⟨0, 1⟩) =
        .ok none ∧
      nextAp Config.standard .regular (stateS [num 0x020680017fff7fff, num 10]) none = .ok ⟨1, 2⟩ ∧
      Memory.get (stateS [num 0x020680017fff7fff, num 10]).mem ⟨1, 1⟩ = some (num 4) ∧ isZero (num 4) = false ∧
      Memory.get (stateS [num 0x020680017fff7fff, num 10]).mem ⟨0, 1⟩ = some (.field (felt 10)) := by decide +kernel

/-- dst is Field(0), at V-S4's addresses. -/
theorem test_hyp_nopJnz_not_taken :
    operandAddresses Config.standard ⟨-1, -1, 1, .ap, .fp, .imm, .unconstrained, .regular⟩ (with1 (bare 1 []) ⟨1, 0⟩
        (num 0)) =
        .ok ⟨⟨1, 0⟩, ⟨1, 0⟩, ⟨0, 1⟩⟩ ∧
      Memory.get (with1 (bare 1 []) ⟨1, 0⟩ (num 0)).mem ⟨1, 0⟩ = some (num 0) ∧ isZero (num 0) = true ∧
      forwardRes Config.standard .unconstrained (some (num 0)) (Memory.get (with1 (bare 1 []) ⟨1, 0⟩ (num 0)).mem ⟨0,
        1⟩) =
        .ok none ∧
      nextAp Config.standard .regular (with1 (bare 1 []) ⟨1, 0⟩ (num 0)) none = .ok ⟨1, 1⟩ := by decide +kernel

/-- The operands of its example. -/
theorem test_hyp_retReg :
    operandAddresses Config.standard ⟨-2, -1, -1, .fp, .fp, .fp, .op1, .regular⟩ (stateS [num 0x200b7fff7fff7ffe]) =
        .ok ⟨⟨1, 0⟩, ⟨1, 1⟩, ⟨1, 1⟩⟩ ∧
      forwardRes Config.standard .op1 (Memory.get (stateS [num 0x200b7fff7fff7ffe]).mem ⟨1, 1⟩) (Memory.get (stateS
        [num 0x200b7fff7fff7ffe]).mem ⟨1, 1⟩) =
        .ok (some (.field (felt 4))) ∧
      nextAp Config.standard .regular (stateS [num 0x200b7fff7fff7ffe]) (some (.field (felt 4))) = .ok ⟨1, 2⟩ ∧
      Memory.get (stateS [num 0x200b7fff7fff7ffe]).mem ⟨1, 0⟩ = some (.ptr ⟨0, 8⟩) := by decide +kernel

/-- The operands of V-S3, moved to a state with [1,0] = Ptr(0,8) and [1,1] = Ptr(0,2). -/
theorem test_hyp_retJmp :
    operandAddresses Config.standard ⟨-2, -1, -1, .fp, .fp, .fp, .op1, .regular⟩ (with1 (stateS []) ⟨1, 1⟩ (.ptr ⟨0,
        2⟩)) =
        .ok ⟨⟨1, 0⟩, ⟨1, 1⟩, ⟨1, 1⟩⟩ ∧
      Memory.get (with1 (stateS []) ⟨1, 1⟩ (.ptr ⟨0, 2⟩)).mem ⟨1, 0⟩ = some (.ptr ⟨0, 8⟩) ∧
      Memory.get (with1 (stateS []) ⟨1, 1⟩ (.ptr ⟨0, 2⟩)).mem ⟨1, 1⟩ = some (.ptr ⟨0, 2⟩) ∧
      forwardRes Config.standard .op1 (some (.ptr ⟨0, 2⟩)) (some (.ptr ⟨0, 2⟩)) = .ok (some (.ptr ⟨0, 2⟩)) ∧
      nextAp Config.standard .regular (with1 (stateS []) ⟨1, 1⟩ (.ptr ⟨0, 2⟩)) (some (.ptr ⟨0, 2⟩)) = .ok ⟨1, 2⟩ :=
      by decide +kernel

/-- The operands of its example. -/
theorem test_hyp_retJrel :
    operandAddresses Config.standard ⟨-2, -2, -1, .fp, .fp, .fp, .op1, .regular⟩ (stateS [num 0x210b7fff7ffe7ffe]) =
        .ok ⟨⟨1, 0⟩, ⟨1, 0⟩, ⟨1, 1⟩⟩ ∧
      forwardRes Config.standard .op1 (Memory.get (stateS [num 0x210b7fff7ffe7ffe]).mem ⟨1, 0⟩) (Memory.get (stateS
        [num 0x210b7fff7ffe7ffe]).mem ⟨1, 1⟩) =
        .ok (some (.field (felt 4))) ∧
      nextAp Config.standard .regular (stateS [num 0x210b7fff7ffe7ffe]) (some (.field (felt 4))) = .ok ⟨1, 2⟩ ∧
      Memory.get (stateS [num 0x210b7fff7ffe7ffe]).mem ⟨1, 0⟩ = some (.ptr ⟨0, 8⟩) := by decide +kernel

/-- Taken: the restored fp is Ptr(0,8). -/
theorem test_hyp_retJnz :
    operandAddresses Config.standard ⟨-2, -2, -1, .fp, .fp, .fp, .unconstrained, .regular⟩ (stateS [num
        0x220b7fff7ffe7ffe]) =
        .ok ⟨⟨1, 0⟩, ⟨1, 0⟩, ⟨1, 1⟩⟩ ∧
      forwardRes Config.standard .unconstrained (Memory.get (stateS [num 0x220b7fff7ffe7ffe]).mem ⟨1, 0⟩) (Memory.get
        (stateS [num 0x220b7fff7ffe7ffe]).mem ⟨1, 1⟩) =
        .ok none ∧
      nextAp Config.standard .regular (stateS [num 0x220b7fff7ffe7ffe]) none = .ok ⟨1, 2⟩ ∧
      Memory.get (stateS [num 0x220b7fff7ffe7ffe]).mem ⟨1, 0⟩ = some (.ptr ⟨0, 8⟩) ∧
      Memory.get (stateS [num 0x220b7fff7ffe7ffe]).mem ⟨1, 1⟩ = some (.field (felt 4)) := by decide +kernel

/-- The restored fp is Ptr(0,0). -/
theorem test_hyp_retJnz_not_taken :
    operandAddresses Config.standard ⟨-2, -2, -1, .fp, .fp, .fp, .unconstrained, .regular⟩ (with1 (bare 2 []) ⟨1, 0⟩
        (.ptr ⟨0, 0⟩)) =
        .ok ⟨⟨1, 0⟩, ⟨1, 0⟩, ⟨1, 1⟩⟩ ∧
      Memory.get (with1 (bare 2 []) ⟨1, 0⟩ (.ptr ⟨0, 0⟩)).mem ⟨1, 0⟩ = some (.ptr ⟨0, 0⟩) ∧
      forwardRes Config.standard .unconstrained (some (.ptr ⟨0, 0⟩)) (Memory.get (with1 (bare 2 []) ⟨1, 0⟩ (.ptr ⟨0,
        0⟩)).mem ⟨1, 1⟩) =
        .ok none ∧
      nextAp Config.standard .regular (with1 (bare 2 []) ⟨1, 0⟩ (.ptr ⟨0, 0⟩)) none = .ok ⟨1, 2⟩ := by decide +kernel

/-- The frame cells of its example are Empty. -/
theorem test_hyp_callReg :
    CallReady ⟨0, 1, -1, .ap, .ap, .fp, .op1, .add2⟩ (stateS [num 0x10087fff80018000]) ⟨⟨1, 2⟩, ⟨1, 3⟩, ⟨1, 1⟩⟩ ∧
      forwardRes Config.standard .op1 (some (.ptr (pastInstr ⟨0, 1, -1, .ap, .ap, .fp, .op1, .add2⟩ (stateS [num
        0x10087fff80018000])))) (Memory.get (stateS [num 0x10087fff80018000]).mem ⟨1, 1⟩) =
        .ok (some (.field (felt 4))) ∧
      nextAp Config.standard .add2 (stateS [num 0x10087fff80018000]) (some (.field (felt 4))) = .ok ⟨1, 4⟩ := by
  unfold CallReady cellAccepts
  decide +kernel

/-- The frame cells of its example are Empty. -/
theorem test_hyp_callJmp :
    CallReady ⟨0, 1, -2, .ap, .ap, .fp, .op1, .add2⟩ (stateS [num 0x10887ffe80018000]) ⟨⟨1, 2⟩, ⟨1, 3⟩, ⟨1, 0⟩⟩ ∧
      forwardRes Config.standard .op1 (some (.ptr (pastInstr ⟨0, 1, -2, .ap, .ap, .fp, .op1, .add2⟩ (stateS [num
        0x10887ffe80018000])))) (Memory.get (stateS [num 0x10887ffe80018000]).mem ⟨1, 0⟩) =
        .ok (some (.ptr ⟨0, 8⟩)) ∧
      nextAp Config.standard .add2 (stateS [num 0x10887ffe80018000]) (some (.ptr ⟨0, 8⟩)) = .ok ⟨1, 4⟩ := by
  unfold CallReady cellAccepts
  decide +kernel

/-- The frame cells of its example are Empty. -/
theorem test_hyp_callJrel :
    CallReady ⟨0, 1, 1, .ap, .ap, .imm, .op1, .add2⟩ (stateS [num 0x1104800180018000, num 5]) ⟨⟨1, 2⟩, ⟨1, 3⟩, ⟨0, 1⟩⟩ ∧
      forwardRes Config.standard .op1 (some (.ptr (pastInstr ⟨0, 1, 1, .ap, .ap, .imm, .op1, .add2⟩ (stateS [num
        0x1104800180018000, num 5])))) (Memory.get (stateS [num 0x1104800180018000, num 5]).mem ⟨0, 1⟩) =
        .ok (some (.field (felt 5))) ∧
      nextAp Config.standard .add2 (stateS [num 0x1104800180018000, num 5]) (some (.field (felt 5))) = .ok ⟨1, 4⟩ := by
  unfold CallReady cellAccepts
  decide +kernel

/-- The frame cells of its example are Empty. -/
theorem test_hyp_callJnz :
    CallReady ⟨0, 1, 1, .ap, .ap, .imm, .unconstrained, .add2⟩ (stateS [num 0x1204800180018000, num 6]) ⟨⟨1, 2⟩, ⟨1,
        3⟩, ⟨0, 1⟩⟩ ∧
      forwardRes Config.standard .unconstrained (some (.ptr (pastInstr ⟨0, 1, 1, .ap, .ap, .imm, .unconstrained,
        .add2⟩ (stateS [num 0x1204800180018000, num 6])))) (Memory.get (stateS [num 0x1204800180018000, num 6]).mem
        ⟨0, 1⟩) =
        .ok none ∧
      nextAp Config.standard .add2 (stateS [num 0x1204800180018000, num 6]) none = .ok ⟨1, 4⟩ ∧
      (stateS [num 0x1204800180018000, num 6]).fp ≠ ⟨0, 0⟩ ∧
      Memory.get (stateS [num 0x1204800180018000, num 6]).mem ⟨0, 1⟩ = some (.field (felt 6)) := by
  unfold CallReady cellAccepts
  decide +kernel

/-- fp is Ptr(0,0), and the dst cell already holds it. -/
theorem test_hyp_callJnz_not_taken :
    CallReady ⟨0, 1, 1, .ap, .ap, .imm, .unconstrained, .add2⟩ { stateS [num 0, num 6] with fp := ⟨0, 0⟩, mem :=
        [(⟨1, 2⟩, .ptr ⟨0, 0⟩)] } ⟨⟨1, 2⟩, ⟨1, 3⟩, ⟨0, 1⟩⟩ ∧
      forwardRes Config.standard .unconstrained (some (.ptr ⟨0, 2⟩)) none = .ok none ∧
      nextAp Config.standard .add2 (stateS [num 0, num 6]) none = .ok ⟨1, 4⟩ := by
  unfold CallReady cellAccepts
  decide +kernel

/-- One Empty cell takes both words when pc + size = fp (R198). -/
theorem test_hyp_call_shared_cell :
    CallReady { plain with offOp1 := -1, apUpdate := .add2 } { stateS [] with fp := ⟨0, 1⟩ } ⟨⟨1, 2⟩, ⟨1, 2⟩, ⟨1, 1⟩⟩ := by
  unfold CallReady cellAccepts
  decide +kernel

/-- The operands of its example: dst is Empty and takes res. -/
theorem test_hyp_aeqReg :
    operandAddresses Config.standard ⟨0, -1, 1, .ap, .fp, .imm, .add, .add1⟩ (stateS [num 0x482680017fff8000, num 5]) =
        .ok ⟨⟨1, 2⟩, ⟨1, 1⟩, ⟨0, 1⟩⟩ ∧
      AeqSettles ⟨0, -1, 1, .ap, .fp, .imm, .add, .add1⟩ (stateS [num 0x482680017fff8000, num 5]) ⟨⟨1, 2⟩, ⟨1, 1⟩, ⟨0,
        1⟩⟩ (num 9) (num 5) (some (⟨1, 2⟩, num 9)) ∧
      nextAp Config.standard .add1 (stateS [num 0x482680017fff8000, num 5]) (some (num 9)) = .ok ⟨1, 3⟩ :=
  ⟨by decide +kernel, .assign _ (num 4) _ (by decide +kernel) (by decide +kernel) (by decide +kernel)
    (by decide +kernel) (by decide +kernel), by decide +kernel⟩

/-- The operands of its example: dst is Empty and takes res. -/
theorem test_hyp_aeqJmp :
    operandAddresses Config.standard ⟨0, -1, -2, .ap, .fp, .fp, .op1, .add1⟩ (stateS [num 0x488a7ffe7fff8000]) =
        .ok ⟨⟨1, 2⟩, ⟨1, 1⟩, ⟨1, 0⟩⟩ ∧
      AeqSettles ⟨0, -1, -2, .ap, .fp, .fp, .op1, .add1⟩ (stateS [num 0x488a7ffe7fff8000]) ⟨⟨1, 2⟩, ⟨1, 1⟩, ⟨1, 0⟩⟩
        (.ptr ⟨0, 8⟩) (.ptr ⟨0, 8⟩) (some (⟨1, 2⟩, .ptr ⟨0, 8⟩)) ∧
      nextAp Config.standard .add1 (stateS [num 0x488a7ffe7fff8000]) (some (.ptr ⟨0, 8⟩)) = .ok ⟨1, 3⟩ :=
  ⟨by decide +kernel, .assign _ (num 4) _ (by decide +kernel) (by decide +kernel) (by decide +kernel)
    (by decide +kernel) (by decide +kernel), by decide +kernel⟩

/-- The operands of its example: dst is Empty and takes res. -/
theorem test_hyp_aeqJrel :
    operandAddresses Config.standard ⟨0, -1, -1, .ap, .fp, .fp, .op1, .add1⟩ (stateS [num 0x490a7fff7fff8000]) =
        .ok ⟨⟨1, 2⟩, ⟨1, 1⟩, ⟨1, 1⟩⟩ ∧
      AeqSettles ⟨0, -1, -1, .ap, .fp, .fp, .op1, .add1⟩ (stateS [num 0x490a7fff7fff8000]) ⟨⟨1, 2⟩, ⟨1, 1⟩, ⟨1, 1⟩⟩
        (.field (felt 4)) (num 4) (some (⟨1, 2⟩, .field (felt 4))) ∧
      nextAp Config.standard .add1 (stateS [num 0x490a7fff7fff8000]) (some (.field (felt 4))) = .ok ⟨1, 3⟩ :=
  ⟨by decide +kernel, .assign _ (num 4) _ (by decide +kernel) (by decide +kernel) (by decide +kernel)
    (by decide +kernel) (by decide +kernel), by decide +kernel⟩

/-- Taken: the operands of its example. -/
theorem test_hyp_aeqJnz :
    operandAddresses Config.standard ⟨0, -1, -1, .ap, .fp, .fp, .mul, .add1⟩ (stateS [num 0x4a4a7fff7fff8000]) =
        .ok ⟨⟨1, 2⟩, ⟨1, 1⟩, ⟨1, 1⟩⟩ ∧
      AeqSettles ⟨0, -1, -1, .ap, .fp, .fp, .mul, .add1⟩ (stateS [num 0x4a4a7fff7fff8000]) ⟨⟨1, 2⟩, ⟨1, 1⟩, ⟨1, 1⟩⟩
        (num 16) (.field (felt 4)) (some (⟨1, 2⟩, num 16)) ∧
      nextAp Config.standard .add1 (stateS [num 0x4a4a7fff7fff8000]) (some (num 16)) = .ok ⟨1, 3⟩ ∧
      isZero (num 16) = false :=
  ⟨by decide +kernel, .assign _ (num 4) _ (by decide +kernel) (by decide +kernel) (by decide +kernel)
    (by decide +kernel) (by decide +kernel), by decide +kernel, by decide +kernel⟩

/-- AJ2: the sum is zero. -/
theorem test_hyp_aeqJnz_not_taken :
    operandAddresses Config.standard (k .add) (with1 (with1 (bare 3 []) ⟨1, 4⟩ (num (P - 3))) ⟨1, 5⟩ (num 3)) =
        .ok ⟨⟨1, 3⟩, ⟨1, 4⟩, ⟨1, 5⟩⟩ ∧
      AeqSettles (k .add) (with1 (with1 (bare 3 []) ⟨1, 4⟩ (num (P - 3))) ⟨1, 5⟩ (num 3)) ⟨⟨1, 3⟩, ⟨1, 4⟩, ⟨1, 5⟩⟩
        (num 0) (num 3) (some (⟨1, 3⟩, num 0)) ∧
      nextAp Config.standard .regular (with1 (with1 (bare 3 []) ⟨1, 4⟩ (num (P - 3))) ⟨1, 5⟩ (num 3)) (some (num 0)) =
        .ok ⟨1, 3⟩ ∧
      isZero (num 0) = true :=
  ⟨by decide +kernel, .assign _ (num (P - 3)) _ (by decide +kernel) (by decide +kernel) (by decide +kernel)
    (by decide +kernel) (by decide +kernel), by decide +kernel, by decide +kernel⟩

/-- K15: all three Filled. -/
theorem test_hyp_aeq_check :
    operandAddresses Config.standard (k .add) (with1 (with1 (with1 (bare 3 []) ⟨1, 3⟩ (num 9)) ⟨1, 4⟩ (num 6)) ⟨1,
        5⟩ (num 3)) =
        .ok ⟨⟨1, 3⟩, ⟨1, 4⟩, ⟨1, 5⟩⟩ ∧
      AeqSettles (k .add) (with1 (with1 (with1 (bare 3 []) ⟨1, 3⟩ (num 9)) ⟨1, 4⟩ (num 6)) ⟨1, 5⟩ (num 3)) ⟨⟨1, 3⟩,
        ⟨1, 4⟩, ⟨1, 5⟩⟩ (num 9) (num 3) none ∧
      nextAp Config.standard .regular (with1 (with1 (with1 (bare 3 []) ⟨1, 3⟩ (num 9)) ⟨1, 4⟩ (num 6)) ⟨1, 5⟩ (num 3))
        (some (num 9)) =
        .ok ⟨1, 3⟩ :=
  ⟨by decide +kernel, .check _ (num 6) _ (by decide +kernel) (by decide +kernel) (by decide +kernel)
    (by decide +kernel), by decide +kernel⟩

/-- K13. -/
theorem test_hyp_aeq_op0Add :
    operandAddresses Config.standard (k .add) (with1 (with1 (bare 3 []) ⟨1, 3⟩ (num 18)) ⟨1, 5⟩ (num 3)) =
        .ok ⟨⟨1, 3⟩, ⟨1, 4⟩, ⟨1, 5⟩⟩ ∧
      AeqSettles (k .add) (with1 (with1 (bare 3 []) ⟨1, 3⟩ (num 18)) ⟨1, 5⟩ (num 3)) ⟨⟨1, 3⟩, ⟨1, 4⟩, ⟨1, 5⟩⟩ (num 18)
        (num 3) (some (⟨1, 4⟩, num 15)) ∧
      nextAp Config.standard .regular (with1 (with1 (bare 3 []) ⟨1, 3⟩ (num 18)) ⟨1, 5⟩ (num 3)) (some (num 18)) =
        .ok ⟨1, 3⟩ :=
  ⟨by decide +kernel, .op0Add _ _ _ (by decide +kernel) (by decide +kernel) (by decide +kernel) (by decide +kernel)
    (by decide +kernel) (by decide +kernel), by decide +kernel⟩

/-- K31. -/
theorem test_hyp_aeq_op0Mul :
    operandAddresses Config.standard (k .mul) (with1 (with1 (bare 3 []) ⟨1, 3⟩ (num 18)) ⟨1, 5⟩ (num 3)) =
        .ok ⟨⟨1, 3⟩, ⟨1, 4⟩, ⟨1, 5⟩⟩ ∧
      AeqSettles (k .mul) (with1 (with1 (bare 3 []) ⟨1, 3⟩ (num 18)) ⟨1, 5⟩ (num 3)) ⟨⟨1, 3⟩, ⟨1, 4⟩, ⟨1, 5⟩⟩ (num 18)
        (num 3) (some (⟨1, 4⟩, num 6)) ∧
      nextAp Config.standard .regular (with1 (with1 (bare 3 []) ⟨1, 3⟩ (num 18)) ⟨1, 5⟩ (num 3)) (some (num 18)) =
        .ok ⟨1, 3⟩ :=
  ⟨by decide +kernel, .op0Mul _ _ _ (by decide +kernel) (by decide +kernel) (by decide +kernel) (by decide +kernel)
    (by decide +kernel) (by decide +kernel) (by decide +kernel), by decide +kernel⟩

/-- K6: op0 stays undefined. -/
theorem test_hyp_aeq_op1Op1 :
    operandAddresses Config.standard (k .op1) (with1 (bare 3 []) ⟨1, 3⟩ (num 18)) = .ok ⟨⟨1, 3⟩, ⟨1, 4⟩, ⟨1, 5⟩⟩ ∧
      AeqSettles (k .op1) (with1 (bare 3 []) ⟨1, 3⟩ (num 18)) ⟨⟨1, 3⟩, ⟨1, 4⟩, ⟨1, 5⟩⟩ (num 18) (num 18) (some (⟨1,
        5⟩, num 18)) ∧
      nextAp Config.standard .regular (with1 (bare 3 []) ⟨1, 3⟩ (num 18)) (some (num 18)) = .ok ⟨1, 3⟩ :=
  ⟨by decide +kernel, .op1Op1 _ (by decide +kernel) (by decide +kernel) (by decide +kernel) (by decide +kernel),
    by decide +kernel⟩

/-- K14. -/
theorem test_hyp_aeq_op1Add :
    operandAddresses Config.standard (k .add) (with1 (with1 (bare 3 []) ⟨1, 3⟩ (num 18)) ⟨1, 4⟩ (num 6)) =
        .ok ⟨⟨1, 3⟩, ⟨1, 4⟩, ⟨1, 5⟩⟩ ∧
      AeqSettles (k .add) (with1 (with1 (bare 3 []) ⟨1, 3⟩ (num 18)) ⟨1, 4⟩ (num 6)) ⟨⟨1, 3⟩, ⟨1, 4⟩, ⟨1, 5⟩⟩ (num 18)
        (num 12) (some (⟨1, 5⟩, num 12)) ∧
      nextAp Config.standard .regular (with1 (with1 (bare 3 []) ⟨1, 3⟩ (num 18)) ⟨1, 4⟩ (num 6)) (some (num 18)) =
        .ok ⟨1, 3⟩ :=
  ⟨by decide +kernel, .op1Add _ (num 6) _ (by decide +kernel) (by decide +kernel) (by decide +kernel)
    (by decide +kernel) (by decide +kernel) (by decide +kernel), by decide +kernel⟩

/-- K32. -/
theorem test_hyp_aeq_op1Mul :
    operandAddresses Config.standard (k .mul) (with1 (with1 (bare 3 []) ⟨1, 3⟩ (num 18)) ⟨1, 4⟩ (num 6)) =
        .ok ⟨⟨1, 3⟩, ⟨1, 4⟩, ⟨1, 5⟩⟩ ∧
      AeqSettles (k .mul) (with1 (with1 (bare 3 []) ⟨1, 3⟩ (num 18)) ⟨1, 4⟩ (num 6)) ⟨⟨1, 3⟩, ⟨1, 4⟩, ⟨1, 5⟩⟩ (num 18)
        (num 3) (some (⟨1, 5⟩, num 3)) ∧
      nextAp Config.standard .regular (with1 (with1 (bare 3 []) ⟨1, 3⟩ (num 18)) ⟨1, 4⟩ (num 6)) (some (num 18)) =
        .ok ⟨1, 3⟩ :=
  ⟨by decide +kernel, .op1Mul _ (num 6) _ (by decide +kernel) (by decide +kernel) (by decide +kernel)
    (by decide +kernel) (by decide +kernel) (by decide +kernel) (by decide +kernel), by decide +kernel⟩

/-! Hypotheses of the frames, of the fault statements and of the statements on an implementation's parameters. -/

/-- An instruction of each opcode that gives a next state; the same serve RegistersMoveForward and
CompletesOnlyByItsTransition. -/
theorem test_hyp_Frames :
    (Instr.nopReg ⟨0, -1, 1, .ap, .fp, .imm, .op1, .add⟩).opcode = .noOp ∧
      (nextOf (exec (.nopReg ⟨0, -1, 1, .ap, .fp, .imm, .op1, .add⟩) (stateS [num 0, num 3]))).isSome = true ∧
      (Instr.retReg ⟨-2, -1, -1, .fp, .fp, .fp, .op1, .regular⟩).opcode = .ret ∧
      (nextOf (exec (.retReg ⟨-2, -1, -1, .fp, .fp, .fp, .op1, .regular⟩) (stateS []))).isSome = true ∧
      (Instr.callJmp ⟨0, 1, -2, .ap, .ap, .fp, .op1, .add2⟩).opcode = .call ∧
      (nextOf (exec (.callJmp ⟨0, 1, -2, .ap, .ap, .fp, .op1, .add2⟩) (stateS []))).isSome = true ∧
      (Instr.aeqJrel ⟨0, -1, -1, .ap, .fp, .fp, .op1, .add1⟩).opcode = .assertEq ∧
      (nextOf (exec (.aeqJrel ⟨0, -1, -1, .ap, .fp, .fp, .op1, .add1⟩) (stateS []))).isSome = true ∧
      (Instr.nopReg ⟨0, -1, 1, .ap, .fp, .imm, .op1, .add⟩).pcUpdate ≠ .jump := by decide +kernel

/-- A step that faults with two cells written (V-S2a), and a NoOp that faults (NP5); the same serve
ErrorsAreThoseOfTheTable. -/
theorem test_hyp_FaultLeaves :
    errorOf (step (bare 0 [num 0x1084800180018000, num 5])) = some .invalidJumpTarget ∧
      errorOf (exec (.nopJmp (k .op1)) (with1 (with1 (bare 3 []) ⟨1, 4⟩ (num 0)) ⟨1, 5⟩ (num 7))) =
        some .invalidJumpTarget := by decide +kernel

/-- V-S6b: a step that ends in WriteOnce, and the right side's conditions there. -/
theorem test_hyp_WriteOnce :
    errorOf (step (bare 0 [num 0x1104800180008000, num 5])) = some .writeOnce ∧
      operandAddresses Config.standard ⟨0, 0, 1, .ap, .ap, .imm, .op1, .add2⟩ (bare 0 [num 0x1104800180008000, num 5]) =
        .ok ⟨⟨1, 0⟩, ⟨1, 0⟩, ⟨0, 1⟩⟩ ∧
      Memory.get (bare 0 [num 0x1104800180008000, num 5]).mem ⟨1, 0⟩ = none := by decide +kernel

/-- AJ5: the addresses exist. -/
theorem test_hyp_AeqJnzUnconstrained :
    operandAddresses Config.standard ⟨0, -1, -1, .ap, .fp, .fp, .unconstrained, .add1⟩ (stateS []) =
        .ok ⟨⟨1, 2⟩, ⟨1, 1⟩, ⟨1, 1⟩⟩ ∧
      errorOf (exec (.aeqJnz ⟨0, -1, -1, .ap, .fp, .fp, .unconstrained, .add1⟩) (stateS [])) = some .unconstrainedRes :=
      by decide +kernel

/-- K16, K24, K8 and K17: the operands of each clause. -/
theorem test_hyp_AssertEqFaults :
    operandAddresses Config.standard (k .add) (with1 (with1 (with1 (bare 3 []) ⟨1, 3⟩ (num 1)) ⟨1, 4⟩ (num 6)) ⟨1,
        5⟩ (num 3)) =
        .ok ⟨⟨1, 3⟩, ⟨1, 4⟩, ⟨1, 5⟩⟩ ∧
      operandAddresses Config.standard (k .add) (with1 (with1 (bare 3 []) ⟨1, 4⟩ (num 3)) ⟨1, 5⟩ (.ptr ⟨2, 9⟩)) =
        .ok ⟨⟨1, 3⟩, ⟨1, 4⟩, ⟨1, 5⟩⟩ ∧
      operandAddresses Config.standard (k .op1) (with1 (bare 3 []) ⟨1, 4⟩ (num 6)) = .ok ⟨⟨1, 3⟩, ⟨1, 4⟩, ⟨1, 5⟩⟩ ∧
      operandAddresses Config.standard (k .add) (with1 (bare 3 []) ⟨1, 3⟩ (num 18)) = .ok ⟨⟨1, 3⟩, ⟨1, 4⟩, ⟨1, 5⟩⟩ ∧
      readOperands (with1 (with1 (with1 (bare 3 []) ⟨1, 3⟩ (num 1)) ⟨1, 4⟩ (num 6)) ⟨1, 5⟩ (num 3)) ⟨⟨1, 3⟩, ⟨1, 4⟩,
        ⟨1, 5⟩⟩ =
        ⟨some (num 1), some (num 6), some (num 3), none⟩ ∧
      computeRes Config.standard .add (num 6) (num 3) = .ok (some (num 9)) ∧ num 1 ≠ num 9 ∧
      readOperands (with1 (with1 (bare 3 []) ⟨1, 4⟩ (num 3)) ⟨1, 5⟩ (.ptr ⟨2, 9⟩)) ⟨⟨1, 3⟩, ⟨1, 4⟩, ⟨1, 5⟩⟩ =
        ⟨none, some (num 3), some (.ptr ⟨2, 9⟩), none⟩ ∧
      computeRes Config.standard .add (num 3) (.ptr ⟨2, 9⟩) = .error .typeMismatch ∧
      readOperands (with1 (bare 3 []) ⟨1, 4⟩ (num 6)) ⟨⟨1, 3⟩, ⟨1, 4⟩, ⟨1, 5⟩⟩ = ⟨none, some (num 6), none, none⟩ ∧
      readOperands (with1 (bare 3 []) ⟨1, 3⟩ (num 18)) ⟨⟨1, 3⟩, ⟨1, 4⟩, ⟨1, 5⟩⟩ = ⟨some (num 18), none, none, none⟩ :=
      by decide +kernel

/-- K2's shape, a zero factor on either side, Unconstrained, and a deduction that fails on either side. -/
theorem test_hyp_AssertEqFaults_absent :
    operandAddresses Config.standard (k .op1) (with1 (with1 (bare 3 []) ⟨1, 3⟩ (num 18)) ⟨1, 5⟩ (num 3)) =
        .ok ⟨⟨1, 3⟩, ⟨1, 4⟩, ⟨1, 5⟩⟩ ∧
      operandAddresses Config.standard (k .mul) (with1 (with1 (bare 3 []) ⟨1, 3⟩ (num 18)) ⟨1, 5⟩ (num 0)) =
        .ok ⟨⟨1, 3⟩, ⟨1, 4⟩, ⟨1, 5⟩⟩ ∧
      operandAddresses Config.standard (k .mul) (with1 (with1 (bare 3 []) ⟨1, 3⟩ (num 18)) ⟨1, 4⟩ (num 0)) =
        .ok ⟨⟨1, 3⟩, ⟨1, 4⟩, ⟨1, 5⟩⟩ ∧
      operandAddresses Config.standard (k .unconstrained) (with1 (with1 (bare 3 []) ⟨1, 3⟩ (num 18)) ⟨1, 5⟩ (num 3)) =
        .ok ⟨⟨1, 3⟩, ⟨1, 4⟩, ⟨1, 5⟩⟩ ∧
      operandAddresses Config.standard (k .add) (with1 (with1 (bare 3 []) ⟨1, 3⟩ (num 18)) ⟨1, 5⟩ (.ptr ⟨2, 9⟩)) =
        .ok ⟨⟨1, 3⟩, ⟨1, 4⟩, ⟨1, 5⟩⟩ ∧
      operandAddresses Config.standard (k .mul) (with1 (with1 (bare 3 []) ⟨1, 3⟩ (num 18)) ⟨1, 4⟩ (.ptr ⟨2, 9⟩)) =
        .ok ⟨⟨1, 3⟩, ⟨1, 4⟩, ⟨1, 5⟩⟩ ∧
      readOperands (with1 (with1 (bare 3 []) ⟨1, 3⟩ (num 18)) ⟨1, 5⟩ (num 3)) ⟨⟨1, 3⟩, ⟨1, 4⟩, ⟨1, 5⟩⟩ =
        ⟨some (num 18), none, some (num 3), none⟩ ∧
      readOperands (with1 (with1 (bare 3 []) ⟨1, 3⟩ (num 18)) ⟨1, 5⟩ (num 0)) ⟨⟨1, 3⟩, ⟨1, 4⟩, ⟨1, 5⟩⟩ =
        ⟨some (num 18), none, some (.field (felt 0)), none⟩ ∧
      readOperands (with1 (with1 (bare 3 []) ⟨1, 3⟩ (num 18)) ⟨1, 4⟩ (num 0)) ⟨⟨1, 3⟩, ⟨1, 4⟩, ⟨1, 5⟩⟩ =
        ⟨some (num 18), some (.field (felt 0)), none, none⟩ ∧
      readOperands (with1 (with1 (bare 3 []) ⟨1, 3⟩ (num 18)) ⟨1, 5⟩ (.ptr ⟨2, 9⟩)) ⟨⟨1, 3⟩, ⟨1, 4⟩, ⟨1, 5⟩⟩ =
        ⟨some (num 18), none, some (.ptr ⟨2, 9⟩), none⟩ ∧
      wsub (num 18) (.ptr ⟨2, 9⟩) = .error .typeMismatch ∧
      readOperands (with1 (with1 (bare 3 []) ⟨1, 3⟩ (num 18)) ⟨1, 4⟩ (.ptr ⟨2, 9⟩)) ⟨⟨1, 3⟩, ⟨1, 4⟩, ⟨1, 5⟩⟩ =
        ⟨some (num 18), some (.ptr ⟨2, 9⟩), none, none⟩ ∧
      Word.ptr ⟨2, 9⟩ ≠ .field (felt 0) ∧ wdiv (num 18) (.ptr ⟨2, 9⟩) = .error .typeMismatch := by decide +kernel

/-- op1 is deduced in segment 1, which is not allocated. -/
theorem test_hyp_AssertEqFaults_segment :
    operandAddresses Config.standard (k .op1) { with1 (bare 3 []) ⟨1, 3⟩ (num 18) with nseg := 1 } =
        .ok ⟨⟨1, 3⟩, ⟨1, 4⟩, ⟨1, 5⟩⟩ ∧
      AeqSettles (k .op1) { { with1 (bare 3 []) ⟨1, 3⟩ (num 18) with nseg := 1 } with nseg := (⟨1, 5⟩ : Ptr).seg + 1 }
        ⟨⟨1, 3⟩, ⟨1, 4⟩, ⟨1, 5⟩⟩ (num 18) (num 18) (some (⟨1, 5⟩, num 18)) ∧
      ({ with1 (bare 3 []) ⟨1, 3⟩ (num 18) with nseg := 1 }).nseg ≤ (⟨1, 5⟩ : Ptr).seg :=
  ⟨by decide +kernel, .op1Op1 _ rfl (by decide +kernel) (by decide +kernel) (by decide +kernel), by decide +kernel⟩

/-- CL3 and CL4, at the operand addresses of both. -/
theorem test_hyp_NoOpRetCallFaults_assertion :
    operandAddresses Config.standard ⟨0, 1, 1, .ap, .ap, .imm, .op1, .add2⟩ (with1 (bare 3 [num 0, num 7]) ⟨1, 4⟩
        (.ptr ⟨0, 3⟩)) =
        .ok ⟨⟨1, 3⟩, ⟨1, 4⟩, ⟨0, 1⟩⟩ ∧
      Memory.get (with1 (bare 3 [num 0, num 7]) ⟨1, 4⟩ (.ptr ⟨0, 3⟩)).mem ⟨1, 4⟩ = some (.ptr ⟨0, 3⟩) ∧
      Word.ptr ⟨0, 3⟩ ≠ .ptr (pastInstr ⟨0, 1, 1, .ap, .ap, .imm, .op1, .add2⟩ (with1 (bare 3 [num 0, num 7]) ⟨1, 4⟩
        (.ptr ⟨0, 3⟩))) ∧
      1 < (with1 (bare 3 [num 0, num 7]) ⟨1, 4⟩ (.ptr ⟨0, 3⟩)).nseg ∧
      forwardRes Config.standard .op1 (some (.ptr ⟨0, 3⟩)) (Memory.get (with1 (bare 3 [num 0, num 7]) ⟨1, 4⟩ (.ptr ⟨0,
        3⟩)).mem ⟨0, 1⟩) =
        .ok (some (num 7)) ∧
      operandAddresses Config.standard ⟨0, 1, 1, .ap, .ap, .imm, .op1, .add2⟩ (with1 (bare 3 [num 0, num 7]) ⟨1, 3⟩
        (.ptr ⟨1, 2⟩)) =
        .ok ⟨⟨1, 3⟩, ⟨1, 4⟩, ⟨0, 1⟩⟩ ∧
      cellAccepts (with1 (bare 3 [num 0, num 7]) ⟨1, 3⟩ (.ptr ⟨1, 2⟩)) ⟨1, 4⟩ (.ptr (pastInstr ⟨0, 1, 1, .ap, .ap,
        .imm, .op1, .add2⟩ (with1 (bare 3 [num 0, num 7]) ⟨1, 3⟩ (.ptr ⟨1, 2⟩)))) ∧
      Memory.get (with1 (bare 3 [num 0, num 7]) ⟨1, 3⟩ (.ptr ⟨1, 2⟩)).mem ⟨1, 3⟩ = some (.ptr ⟨1, 2⟩) ∧
      Word.ptr ⟨1, 2⟩ ≠ .ptr (with1 (bare 3 [num 0, num 7]) ⟨1, 3⟩ (.ptr ⟨1, 2⟩)).fp ∧
      forwardRes Config.standard .op1 (some (.ptr (pastInstr ⟨0, 1, 1, .ap, .ap, .imm, .op1, .add2⟩ (with1 (bare 3
        [num 0, num 7]) ⟨1, 3⟩ (.ptr ⟨1, 2⟩))))) (Memory.get (with1 (bare 3 [num 0, num 7]) ⟨1, 3⟩ (.ptr ⟨1, 2⟩)).mem
        ⟨0, 1⟩) =
        .ok (some (num 7)) := by
  unfold cellAccepts
  decide +kernel

/-- NP2, the same operands for a Ret, and a Call whose return address plus a Ptr has no sum. -/
theorem test_hyp_NoOpRetCallFaults_res :
    operandAddresses Config.standard (k .add) (with1 (with1 (bare 3 []) ⟨1, 4⟩ (num 1)) ⟨1, 5⟩ (.ptr ⟨1, 0⟩)) =
        .ok ⟨⟨1, 3⟩, ⟨1, 4⟩, ⟨1, 5⟩⟩ ∧
      forwardRes Config.standard .add (Memory.get (with1 (with1 (bare 3 []) ⟨1, 4⟩ (num 1)) ⟨1, 5⟩ (.ptr ⟨1, 0⟩)).mem
        ⟨1, 4⟩) (Memory.get (with1 (with1 (bare 3 []) ⟨1, 4⟩ (num 1)) ⟨1, 5⟩ (.ptr ⟨1, 0⟩)).mem ⟨1, 5⟩) =
        .error .typeMismatch ∧
      errorOf (exec (.nopReg (k .add)) (with1 (with1 (bare 3 []) ⟨1, 4⟩ (num 1)) ⟨1, 5⟩ (.ptr ⟨1, 0⟩))) =
        some .typeMismatch ∧
      errorOf (exec (.retReg (k .add)) (with1 (with1 (bare 3 []) ⟨1, 4⟩ (num 1)) ⟨1, 5⟩ (.ptr ⟨1, 0⟩))) =
        some .typeMismatch ∧
      operandAddresses Config.standard ⟨0, 1, 1, .ap, .ap, .imm, .add, .add2⟩ (bare 3 [num 0, .ptr ⟨0, 7⟩]) =
        .ok ⟨⟨1, 3⟩, ⟨1, 4⟩, ⟨0, 1⟩⟩ ∧
      callOp0 ⟨0, 1, 1, .ap, .ap, .imm, .add, .add2⟩ (bare 3 [num 0, .ptr ⟨0, 7⟩]) ⟨⟨1, 3⟩, ⟨1, 4⟩, ⟨0, 1⟩⟩ (.ptr ⟨0,
        2⟩) ∧
      forwardRes Config.standard .add (some (.ptr ⟨0, 2⟩)) (Memory.get (bare 3 [num 0, .ptr ⟨0, 7⟩]).mem ⟨0, 1⟩) =
        .error .typeMismatch ∧
      errorOf (exec (.callReg ⟨0, 1, 1, .ap, .ap, .imm, .add, .add2⟩) (bare 3 [num 0, .ptr ⟨0, 7⟩])) =
        some .typeMismatch := by
  unfold callOp0
  decide +kernel

/-- The op0 cell, and then the dst cell, in segment NSEG. -/
theorem test_hyp_NoOpRetCallFaults_segment :
    operandAddresses Config.standard ⟨0, 1, 1, .fp, .ap, .imm, .op1, .add2⟩ { bare 3 [num 0, num 7] with ap := ⟨3,
        0⟩ } =
        .ok ⟨⟨1, 3⟩, ⟨3, 1⟩, ⟨0, 1⟩⟩ ∧
      Memory.get ({ bare 3 [num 0, num 7] with ap := ⟨3, 0⟩ }).mem ⟨3, 1⟩ = none ∧
      ({ bare 3 [num 0, num 7] with ap := ⟨3, 0⟩ }).nseg ≤ 3 ∧
      errorOf (exec (.callReg ⟨0, 1, 1, .fp, .ap, .imm, .op1, .add2⟩) { bare 3 [num 0, num 7] with ap := ⟨3, 0⟩ }) =
        some .segmentOutOfBounds ∧
      operandAddresses Config.standard ⟨0, 1, 1, .fp, .ap, .imm, .op1, .add2⟩ { bare 3 [num 0, num 7] with fp := ⟨3,
        0⟩ } =
        .ok ⟨⟨3, 0⟩, ⟨1, 4⟩, ⟨0, 1⟩⟩ ∧
      callOp0 ⟨0, 1, 1, .fp, .ap, .imm, .op1, .add2⟩ { bare 3 [num 0, num 7] with fp := ⟨3, 0⟩ } ⟨⟨3, 0⟩, ⟨1, 4⟩, ⟨0,
        1⟩⟩ (.ptr ⟨0, 2⟩) ∧
      forwardRes Config.standard .op1 (some (.ptr ⟨0, 2⟩)) (Memory.get ({ bare 3 [num 0, num 7] with fp := ⟨3, 0⟩
        }).mem ⟨0, 1⟩) =
        .ok (some (num 7)) ∧
      Memory.get ({ bare 3 [num 0, num 7] with fp := ⟨3, 0⟩ }).mem ⟨3, 0⟩ = none ∧
      errorOf (exec (.callReg ⟨0, 1, 1, .fp, .ap, .imm, .op1, .add2⟩) { bare 3 [num 0, num 7] with fp := ⟨3, 0⟩ }) =
        some .segmentOutOfBounds := by
  unfold callOp0
  decide +kernel

/-- NOP.JMP with a Field res, NOP.JREL with a Ptr, NOP.JNZ with dst absent, RET.JNZ taken with a Ptr op1. -/
theorem test_hyp_UpdateFaults_pc :
    ReachesUpdate (.nopJmp (k .op1)) (with1 (with1 (bare 3 []) ⟨1, 4⟩ (num 0)) ⟨1, 5⟩ (num 7)) ⟨⟨1, 3⟩, ⟨1, 4⟩, ⟨1,
        5⟩⟩ (Memory.get (with1 (with1 (bare 3 []) ⟨1, 4⟩ (num 0)) ⟨1, 5⟩ (num 7)).mem ⟨1, 3⟩) (Memory.get (with1
        (with1 (bare 3 []) ⟨1, 4⟩ (num 0)) ⟨1, 5⟩ (num 7)).mem ⟨1, 5⟩) (some (num 7)) (with1 (with1 (bare 3 []) ⟨1, 4⟩
        (num 0)) ⟨1, 5⟩ (num 7)).mem ∧
      ReachesUpdate (.nopJrel (k .op1)) (with1 (with1 (bare 3 []) ⟨1, 4⟩ (num 0)) ⟨1, 5⟩ (.ptr ⟨0, 7⟩)) ⟨⟨1, 3⟩, ⟨1,
        4⟩, ⟨1, 5⟩⟩ (Memory.get (with1 (with1 (bare 3 []) ⟨1, 4⟩ (num 0)) ⟨1, 5⟩ (.ptr ⟨0, 7⟩)).mem ⟨1, 3⟩)
        (Memory.get (with1 (with1 (bare 3 []) ⟨1, 4⟩ (num 0)) ⟨1, 5⟩ (.ptr ⟨0, 7⟩)).mem ⟨1, 5⟩) (some (.ptr ⟨0, 7⟩))
        (with1 (with1 (bare 3 []) ⟨1, 4⟩ (num 0)) ⟨1, 5⟩ (.ptr ⟨0, 7⟩)).mem ∧
      ReachesUpdate (.nopJnz (k .unconstrained)) (with1 (with1 (bare 3 []) ⟨1, 4⟩ (num 0)) ⟨1, 5⟩ (num 7)) ⟨⟨1, 3⟩,
        ⟨1, 4⟩, ⟨1, 5⟩⟩ (Memory.get (with1 (with1 (bare 3 []) ⟨1, 4⟩ (num 0)) ⟨1, 5⟩ (num 7)).mem ⟨1, 3⟩) (Memory.get
        (with1 (with1 (bare 3 []) ⟨1, 4⟩ (num 0)) ⟨1, 5⟩ (num 7)).mem ⟨1, 5⟩) none (with1 (with1 (bare 3 []) ⟨1, 4⟩
        (num 0)) ⟨1, 5⟩ (num 7)).mem ∧
      ReachesUpdate (.retJnz (k .unconstrained)) (with1 (with1 (with1 (bare 3 []) ⟨1, 3⟩ (num 1)) ⟨1, 4⟩ (num 0)) ⟨1,
        5⟩ (.ptr ⟨0, 7⟩)) ⟨⟨1, 3⟩, ⟨1, 4⟩, ⟨1, 5⟩⟩ (Memory.get (with1 (with1 (with1 (bare 3 []) ⟨1, 3⟩ (num 1)) ⟨1, 4⟩
        (num 0)) ⟨1, 5⟩ (.ptr ⟨0, 7⟩)).mem ⟨1, 3⟩) (Memory.get (with1 (with1 (with1 (bare 3 []) ⟨1, 3⟩ (num 1)) ⟨1, 4⟩
        (num 0)) ⟨1, 5⟩ (.ptr ⟨0, 7⟩)).mem ⟨1, 5⟩) none (with1 (with1 (with1 (bare 3 []) ⟨1, 3⟩ (num 1)) ⟨1, 4⟩ (num
        0)) ⟨1, 5⟩ (.ptr ⟨0, 7⟩)).mem ∧
      errorOf (exec (.nopJmp (k .op1)) (with1 (with1 (bare 3 []) ⟨1, 4⟩ (num 0)) ⟨1, 5⟩ (num 7))) =
        some .invalidJumpTarget ∧
      errorOf (exec (.nopJrel (k .op1)) (with1 (with1 (bare 3 []) ⟨1, 4⟩ (num 0)) ⟨1, 5⟩ (.ptr ⟨0, 7⟩))) =
        some .invalidJumpRelTarget ∧
      errorOf (exec (.nopJnz (k .unconstrained)) (with1 (with1 (bare 3 []) ⟨1, 4⟩ (num 0)) ⟨1, 5⟩ (num 7))) =
        some .unconstrainedJnzDst ∧
      errorOf (exec (.retJnz (k .unconstrained)) (with1 (with1 (with1 (bare 3 []) ⟨1, 3⟩ (num 1)) ⟨1, 4⟩ (num 0)) ⟨1,
        5⟩ (.ptr ⟨0, 7⟩))) =
        some .invalidJnzOp1 :=
  ⟨.plain _ (Or.inl rfl) (by decide +kernel) (by decide +kernel), .plain _ (Or.inl rfl) (by decide +kernel)
    (by decide +kernel), .plain _ (Or.inl rfl) (by decide +kernel) (by decide +kernel), .plain _ (Or.inr rfl)
    (by decide +kernel) (by decide +kernel), by decide +kernel, by decide +kernel, by decide +kernel,
    by decide +kernel⟩

/-- NOP.REG with ap=ADD and an absent or a Ptr res, RET.REG with a Field dst. -/
theorem test_hyp_UpdateFaults_ap_fp :
    ReachesUpdate (.nopReg { k .op1 with apUpdate := .add }) (bare 3 []) ⟨⟨1, 3⟩, ⟨1, 4⟩, ⟨1, 5⟩⟩ (Memory.get (bare
        3 []).mem ⟨1, 3⟩) (Memory.get (bare 3 []).mem ⟨1, 5⟩) none (bare 3 []).mem ∧
      ReachesUpdate (.nopReg { k .op1 with apUpdate := .add }) (with1 (with1 (bare 3 []) ⟨1, 4⟩ (num 0)) ⟨1, 5⟩ (.ptr
        ⟨0, 7⟩)) ⟨⟨1, 3⟩, ⟨1, 4⟩, ⟨1, 5⟩⟩ (Memory.get (with1 (with1 (bare 3 []) ⟨1, 4⟩ (num 0)) ⟨1, 5⟩ (.ptr ⟨0,
        7⟩)).mem ⟨1, 3⟩) (Memory.get (with1 (with1 (bare 3 []) ⟨1, 4⟩ (num 0)) ⟨1, 5⟩ (.ptr ⟨0, 7⟩)).mem ⟨1, 5⟩) (some
        (.ptr ⟨0, 7⟩)) (with1 (with1 (bare 3 []) ⟨1, 4⟩ (num 0)) ⟨1, 5⟩ (.ptr ⟨0, 7⟩)).mem ∧
      ReachesUpdate (.retReg (k .op1)) (with1 (with1 (with1 (bare 3 []) ⟨1, 3⟩ (num 1)) ⟨1, 4⟩ (num 0)) ⟨1, 5⟩ (.ptr
        ⟨0, 7⟩)) ⟨⟨1, 3⟩, ⟨1, 4⟩, ⟨1, 5⟩⟩ (Memory.get (with1 (with1 (with1 (bare 3 []) ⟨1, 3⟩ (num 1)) ⟨1, 4⟩ (num 0))
        ⟨1, 5⟩ (.ptr ⟨0, 7⟩)).mem ⟨1, 3⟩) (Memory.get (with1 (with1 (with1 (bare 3 []) ⟨1, 3⟩ (num 1)) ⟨1, 4⟩ (num 0))
        ⟨1, 5⟩ (.ptr ⟨0, 7⟩)).mem ⟨1, 5⟩) (some (.ptr ⟨0, 7⟩)) (with1 (with1 (with1 (bare 3 []) ⟨1, 3⟩ (num 1)) ⟨1, 4⟩
        (num 0)) ⟨1, 5⟩ (.ptr ⟨0, 7⟩)).mem ∧
      nextPc Config.standard (Instr.retReg (k .op1)).decoded (with1 (with1 (with1 (bare 3 []) ⟨1, 3⟩ (num 1)) ⟨1, 4⟩
        (num 0)) ⟨1, 5⟩ (.ptr ⟨0, 7⟩)) ⟨some (num 1), none, none, some (.ptr ⟨0, 7⟩)⟩ =
        .ok ⟨0, 1⟩ ∧
      nextAp Config.standard .regular (with1 (with1 (with1 (bare 3 []) ⟨1, 3⟩ (num 1)) ⟨1, 4⟩ (num 0)) ⟨1, 5⟩ (.ptr
        ⟨0, 7⟩)) (some (.ptr ⟨0, 7⟩)) =
        .ok ⟨1, 3⟩ ∧
      errorOf (exec (.nopReg { k .op1 with apUpdate := .add }) (bare 3 [])) = some .unconstrainedRes ∧
      errorOf (exec (.nopReg { k .op1 with apUpdate := .add }) (with1 (with1 (bare 3 []) ⟨1, 4⟩ (num 0)) ⟨1, 5⟩ (.ptr
        ⟨0, 7⟩))) =
        some .typeMismatch ∧
      errorOf (exec (.retReg (k .op1)) (with1 (with1 (with1 (bare 3 []) ⟨1, 3⟩ (num 1)) ⟨1, 4⟩ (num 0)) ⟨1, 5⟩ (.ptr
        ⟨0, 7⟩))) =
        some .invalidFpUpdate :=
  ⟨.plain _ (Or.inl rfl) (by decide +kernel) (by decide +kernel), .plain _ (Or.inl rfl) (by decide +kernel)
    (by decide +kernel), .plain _ (Or.inr rfl) (by decide +kernel) (by decide +kernel), by decide +kernel,
    by decide +kernel, by decide +kernel, by decide +kernel, by decide +kernel⟩

/-- V-S2a and CL7, and a taken CALL.JNZ with a Ptr op1: the frame is written and stays. The same serve
FaultLeavesRegistersAndKeepsWrites. -/
theorem test_hyp_UpdateFaults_call :
    CallReady ⟨0, 1, 1, .ap, .ap, .imm, .op1, .add2⟩ (bare 0 [num 0, num 5]) ⟨⟨1, 0⟩, ⟨1, 1⟩, ⟨0, 1⟩⟩ ∧
      forwardRes Config.standard .op1 (some (.ptr ⟨0, 2⟩)) (some (num 5)) = .ok (some (num 5)) ∧
      errorOf (exec (.callJmp ⟨0, 1, 1, .ap, .ap, .imm, .op1, .add2⟩) (bare 0 [num 0, num 5])) =
        some .invalidJumpTarget ∧
      CallReady ⟨0, 1, 1, .ap, .ap, .imm, .op1, .add2⟩ (bare 0 [num 0, .ptr ⟨0, 7⟩]) ⟨⟨1, 0⟩, ⟨1, 1⟩, ⟨0, 1⟩⟩ ∧
      errorOf (exec (.callJrel ⟨0, 1, 1, .ap, .ap, .imm, .op1, .add2⟩) (bare 0 [num 0, .ptr ⟨0, 7⟩])) =
        some .invalidJumpRelTarget ∧
      CallReady ⟨0, 1, 1, .ap, .ap, .imm, .unconstrained, .add2⟩ (bare 0 [num 0, .ptr ⟨0, 7⟩]) ⟨⟨1, 0⟩, ⟨1, 1⟩, ⟨0, 1⟩⟩ ∧
      errorOf (exec (.callJnz ⟨0, 1, 1, .ap, .ap, .imm, .unconstrained, .add2⟩) (bare 0 [num 0, .ptr ⟨0, 7⟩])) =
        some .invalidJnzOp1 ∧
      (Memory.get (bare 0 [num 0, num 5]).mem ⟨1, 1⟩ = none ∧ Memory.get (bare 0 [num 0, num 5]).mem ⟨1, 0⟩ = none ∧
      1 < (bare 0 [num 0, num 5]).nseg ∧
      callOp0 ⟨0, 1, 1, .ap, .ap, .imm, .op1, .add2⟩ (bare 0 [num 0, num 5]) ⟨⟨1, 0⟩, ⟨1, 1⟩, ⟨0, 1⟩⟩ (.ptr ⟨0, 2⟩)) := by
  unfold CallReady cellAccepts callOp0
  decide +kernel

/-- AEQ.JMP that deduces op1 and then has a Field res: the deduced cell stays. -/
theorem test_hyp_UpdateFaults_aeq :
    ReachesUpdate (.aeqJmp (k .add)) (with1 (with1 (bare 3 []) ⟨1, 3⟩ (num 18)) ⟨1, 4⟩ (num 6)) ⟨⟨1, 3⟩, ⟨1, 4⟩, ⟨1,
        5⟩⟩ (some (num 18)) (some (num 12)) (some (num 18)) (Memory.withCell (with1 (with1 (bare 3 []) ⟨1, 3⟩ (num
        18)) ⟨1, 4⟩ (num 6)).mem (some (⟨1, 5⟩, num 12))) ∧
      errorOf (exec (.aeqJmp (k .add)) (with1 (with1 (bare 3 []) ⟨1, 3⟩ (num 18)) ⟨1, 4⟩ (num 6))) =
        some .invalidJumpTarget :=
  ⟨.assertEq _ _ _ rfl (by decide +kernel) (.op1Add _ (num 6) _ rfl (by decide +kernel) (by decide +kernel)
    (by decide +kernel) (by decide +kernel) (by decide +kernel)), by decide +kernel⟩

/-- NP1: completes by default and faults with STRICT_OPERANDS; a NoOp with three Filled operands completes with it. -/
theorem test_hyp_StrictOperands :
    (nextOf (runDecoded ⟨none, none, false⟩ ((k .op1).decoded .noOp .regular) (bare 3 []))).isSome = true ∧
      errorOf (runDecoded ⟨none, none, true⟩ ((k .op1).decoded .noOp .regular) (bare 3 [])) = some .undefinedOperand ∧
      (nextOf (runDecoded ⟨none, none, true⟩ ((k .op1).decoded .noOp .regular) (with1 (with1 (with1 (bare 3 []) ⟨1, 3⟩
        (num 1)) ⟨1, 4⟩ (num 6)) ⟨1, 5⟩ (num 3)))).isSome =
        true ∧
      operandAddresses ⟨none, none, true⟩ (k .op1) (bare 3 []) = .ok ⟨⟨1, 3⟩, ⟨1, 4⟩, ⟨1, 5⟩⟩ ∧
      ((k .op1).decoded .noOp .regular).opcode = .noOp := by decide +kernel

/-- Under STRICT_OPERANDS a NoOp and a Ret with all cells Filled, a Call with op1 Filled and an AssertEq that deduces
op1 from op0 complete; an AssertEq without op0 does not. -/
theorem test_hyp_StrictOperands_defined :
    (nextOf (runDecoded ⟨none, none, true⟩ ((k .op1).decoded .ret .regular) (with1 (with1 (with1 (bare 3 []) ⟨1, 3⟩
        (.ptr ⟨1, 0⟩)) ⟨1, 4⟩ (num 6)) ⟨1, 5⟩ (num 3)))).isSome =
        true ∧
      (nextOf (runDecoded ⟨none, none, true⟩ (Instr.callReg ⟨0, 1, -1, .ap, .ap, .fp, .op1, .add2⟩).decoded (with1
        (bare 3 []) ⟨1, 2⟩ (num 4)))).isSome =
        true ∧
      (nextOf (runDecoded ⟨none, none, true⟩ ((k .add).decoded .assertEq .regular) (with1 (with1 (bare 3 []) ⟨1, 3⟩
        (num 18)) ⟨1, 4⟩ (num 6)))).isSome =
        true ∧
      errorOf (runDecoded ⟨none, none, true⟩ ((k .op1).decoded .assertEq .regular) (with1 (bare 3 []) ⟨1, 3⟩ (num 18))) =
        some .undefinedOperand := by decide +kernel

/-- A bound out of reach of one sum. -/
theorem test_hyp_FiniteMaxOffset_far :
    5 + P + 1 ≤ P + 6 ∧ (⟨some (P + 6), none, false⟩ : Config).maxOffset = some (P + 6) := by decide +kernel

/-- NP1 with the op1 address at the bound, and with the bound one lower. -/
theorem test_hyp_FiniteMaxOffset :
    (bare 3 [num 0x0010800280018000]).offsetsWithin 5 ∧ (bare 3 [num 0x0010800280018000]).offsetsWithin 4 ∧
      (nextOf (stepUnder ⟨some 5, none, false⟩ (bare 3 [num 0x0010800280018000]))).isSome = true ∧
      errorOf (stepUnder ⟨some 4, none, false⟩ (bare 3 [num 0x0010800280018000])) = some .capacityExceeded := by
  refine ⟨?_, ?_, by decide +kernel, by decide +kernel⟩ <;>
    exact ⟨by decide +kernel, by decide +kernel, by decide +kernel, by
      intro cell h
      rw [show (bare 3 [num 0x0010800280018000]).mem = [(⟨0, 0⟩, num 0x0010800280018000)] by decide +kernel] at h
      cases List.mem_singleton.1 h
      exact ⟨by decide, fun p hp => by simp [num, instructionCell] at hp⟩⟩

end Sys2Proof.Tests
end

section
/-! PROOFS. Unit U1, the field ALU (40_field_alu.md R70 to R76). The inverse exists because P is prime (R71): the computed
`a^(P-2)` is one by Fermat's little theorem, and division by `b` is undone because multiplication is associative. -/

open Sys2Proof Sys2Proof.Machine

namespace Sys2Proof.Proofs.FieldAlu

/-! Construction, addition and subtraction. -/

/-- An element is its own residue, so `felt i` is characterised by congruence (R70). -/
theorem eq_felt_iff_modEq (i : Int) (e : Felt) : e = felt i ↔ (e.val : Int) ≡ i [ZMOD P] := by
  have hres : (e.val : Int) % (P : Int) = e.val := Int.emod_eq_of_lt (by omega) (by exact_mod_cast e.isLt)
  rw [Fin.ext_iff, ← Nat.cast_inj (R := Int), felt_val, Int.ModEq, hres]

/-- The sum of two elements is below 2P, so one subtraction of P reduces it (R72). -/
theorem fadd_val_eq_ite (a b : Felt) :
    (fadd a b).val = if a.val + b.val < P then a.val + b.val else a.val + b.val - P := by
  rw [fadd_val]
  split
  case isTrue hlt => exact Nat.mod_eq_of_lt hlt
  case isFalse hge => rw [Nat.mod_eq_sub_mod (by omega), Nat.mod_eq_of_lt (by omega)]

/-- The difference of two elements is above -P, so one addition of P reduces it (R73). -/
theorem fsub_val_eq_ite (a b : Felt) :
    (fsub a b).val = if b.val ≤ a.val then a.val - b.val else a.val + P - b.val := by
  have hval := fsub_val a b
  split
  case isTrue hle =>
    rw [Int.emod_eq_of_lt (by omega) (by omega)] at hval
    omega
  case isFalse hlt =>
    rw [← Int.add_emod_right, Int.emod_eq_of_lt (by omega) (by omega)] at hval
    omega

/-! Multiplication. -/

@[simp] theorem felt_one_val : (felt 1).val = 1 := by decide +kernel

theorem fmul_comm (a b : Felt) : fmul a b = fmul b a := by
  ext
  rw [fmul_val, fmul_val, Nat.mul_comm]

theorem fmul_assoc (a b c : Felt) : fmul (fmul a b) c = fmul a (fmul b c) := by
  ext
  simp only [fmul_val, Nat.mod_mul_mod, Nat.mul_mod_mod, Nat.mul_assoc]

@[simp] theorem fmul_felt_one (a : Felt) : fmul a (felt 1) = a := by
  ext
  rw [fmul_val, felt_one_val, Nat.mul_one, Nat.mod_eq_of_lt a.isLt]

theorem fmul_eq_felt_one_iff (a b : Felt) : fmul a b = felt 1 ↔ a.val * b.val % P = 1 := by
  rw [Fin.ext_iff, fmul_val, felt_one_val]

/-! The inverse. -/

/-- A non-zero element is below the prime P, so it shares no factor with it. -/
theorem coprime_P {a : Felt} (ha : a.val ≠ 0) : Nat.Coprime a.val P :=
  (Nat.coprime_of_lt_prime ha a.isLt P_prime).symm

/-- Fermat's little theorem for the exponent that `finv` computes with. -/
theorem mul_pow_P_sub_two_mod {a : Felt} (ha : a.val ≠ 0) : a.val * a.val ^ (P - 2) % P = 1 := by
  have hexp : P - 2 + 1 = P.totient := by
    have := P_prime.two_le
    rw [Nat.totient_prime P_prime]
    omega
  calc a.val * a.val ^ (P - 2) % P
      = a.val ^ P.totient % P := by rw [← pow_succ', hexp]
    _ = 1 % P := Nat.ModEq.pow_totient (coprime_P ha)
    _ = 1 := Nat.mod_eq_of_lt P_prime.one_lt

theorem finv_of_zero {a : Felt} (ha : a.val = 0) : finv a = .error .divisionByZero := by
  rw [finv, if_pos ha]

/-- What `finv` answers is the power of Fermat's theorem. -/
theorem finv_ok_val {a y : Felt} (h : finv a = .ok y) : y.val = a.val ^ (P - 2) % P := by
  have hexp : P - 2 < 2 ^ 252 := by decide +kernel
  rw [(finv_ok h).2, powMod_eq 252 a.val (P - 2) hexp, Nat.mod_mod]

theorem fmul_finv {a y : Felt} (h : finv a = .ok y) : fmul a y = felt 1 := by
  rw [fmul_eq_felt_one_iff, finv_ok_val h, Nat.mul_mod_mod]
  exact mul_pow_P_sub_two_mod (finv_ok h).1

/-- On a non-zero element `finv` succeeds, since zero is its only error (R75). -/
theorem finv_of_ne_zero {a : Felt} (ha : a.val ≠ 0) : ∃ y : Felt, finv a = .ok y := by
  cases hinv : finv a with
  | error e => exact absurd (finv_error hinv).2 ha
  | ok y => exact ⟨y, rfl⟩

/-- Inverses are unique: `z = z · (a · y) = (a · z) · y = y`. -/
theorem inverse_unique {a y z : Felt} (hy : fmul a y = felt 1) (hz : fmul a z = felt 1) : z = y :=
  calc z = fmul z (fmul a y) := by rw [hy, fmul_felt_one]
    _ = fmul y (fmul a z) := by rw [← fmul_assoc, fmul_comm z a, fmul_comm]
    _ = y := by rw [hz, fmul_felt_one]

theorem val_pos_of_fmul_eq_felt_one {a y : Felt} (h : fmul a y = felt 1) : 1 ≤ y.val := by
  by_contra hlt
  have hzero : y.val = 0 := by omega
  rw [fmul_eq_felt_one_iff, hzero, Nat.mul_zero, Nat.zero_mod] at h
  exact absurd h (by decide)

/-- Multiplying by an inverse of `b` and then by `b` gives the element back (R76). -/
theorem fmul_fmul_inverse {b y : Felt} (a : Felt) (h : fmul b y = felt 1) : fmul (fmul a y) b = a := by
  rw [fmul_assoc, fmul_comm y b, h, fmul_felt_one]

/-! Division. -/

theorem fdiv_of_finv_error {a b : Felt} {e : ErrorKind} (h : finv b = .error e) : fdiv a b = .error e :=
  except_map_error.2 h

theorem fdiv_of_finv_ok {a b y : Felt} (h : finv b = .ok y) : fdiv a b = .ok (fmul a y) :=
  except_map_ok.2 ⟨y, h, rfl⟩

/-! The statements. -/

/-- Settles O3: the inverse that `finv` computes by Fermat's theorem is the only one. -/
theorem fieldInverseIsUnique : Obligations.FieldInverseIsUnique := by
  intro a
  refine ⟨finv_of_zero, fun ha => ?_⟩
  obtain ⟨y, hok⟩ := finv_of_ne_zero ha
  have hinv := fmul_finv hok
  exact ⟨y, hok, val_pos_of_fmul_eq_felt_one hinv, (fmul_eq_felt_one_iff a y).1 hinv,
    fun z hz => inverse_unique hinv ((fmul_eq_felt_one_iff a z).2 hz)⟩

/-- Settles O4: the quotient is the product with the inverse of O3, and the inverse cancels the divisor. -/
theorem fieldDivisionUndoesMultiplication : Obligations.FieldDivisionUndoesMultiplication := by
  intro a b
  refine ⟨fun hb => fdiv_of_finv_error (finv_of_zero hb), fun hb => ?_⟩
  obtain ⟨y, hok⟩ := finv_of_ne_zero hb
  exact ⟨fmul a y, y, hok, fdiv_of_finv_ok hok, rfl, fmul_fmul_inverse a (fmul_finv hok)⟩

/-- Settles O1: congruence modulo P is divisibility of the difference. -/
theorem feltIsTheUniqueResidue : Obligations.FeltIsTheUniqueResidue := by
  intro i e
  rw [eq_felt_iff_modEq, Int.modEq_iff_dvd]

/-- Settles O2: sums and differences of elements leave `[0, P)` by less than P. -/
theorem fieldAddSubMulWrapModuloP : Obligations.FieldAddSubMulWrapModuloP := by
  intro a b
  exact ⟨fadd_val_eq_ite a b, fsub_val_eq_ite a b, fmul_val a b⟩

end Sys2Proof.Proofs.FieldAlu
end

section
/-! PROOFS. Unit U3, the effective-address calculator (42_address_unit.md R101). The sign of an offset chooses the pointer
operation, and either operation is applied to the offset's absolute value. -/

open Sys2Proof Sys2Proof.Machine

namespace Sys2Proof.Proofs.AddressUnit

/-! Subtraction from a pointer, from its condition (R89). -/

theorem ptrSub_of_le {p : Ptr} {n : Nat} (h : n ≤ p.off) : ptrSub p n = .ok ⟨p.seg, p.off - n⟩ :=
  if_neg (Nat.not_lt.2 h)

theorem ptrSub_of_lt {p : Ptr} {n : Nat} (h : p.off < n) : ptrSub p n = .error .offsetUnderflow :=
  if_pos h

/-! Offsetting by the sign (R101). -/

theorem offsetBy_of_nonneg (c : Config) (b : Ptr) {k : Int} (h : 0 ≤ k) : offsetBy c b k = ptrAdd c b k.natAbs := by
  have habs : k.toNat = k.natAbs := by omega
  rw [offsetBy, if_pos h, habs]

theorem offsetBy_of_neg (c : Config) (b : Ptr) {k : Int} (h : k < 0) : offsetBy c b k = ptrSub b k.natAbs := by
  have habs : (-k).toNat = k.natAbs := by omega
  rw [offsetBy, if_neg (Int.not_le.2 h), habs]

/-! The base a register selector names (R53). -/

theorem computeAddress_ap (c : Config) (s : State) (k : Int) : computeAddress c s .ap k = offsetBy c s.ap k := rfl

theorem computeAddress_fp (c : Config) (s : State) (k : Int) : computeAddress c s .fp k = offsetBy c s.fp k := rfl

/-! The statement. -/

/-- Settles O24: the sign reduces `offsetBy` to `ptrAdd`, which never fails with unbounded offsets, or to `ptrSub`, which
fails exactly above the base's offset. -/
theorem addressesAreBasePlusOrMinusOffset : Obligations.AddressesAreBasePlusOrMinusOffset := by
  refine ⟨fun b k => ⟨fun hk => ?nonneg, fun hk hle => ?inRange, fun hk hlt => ?underflow⟩,
    fun s k => ⟨computeAddress_ap _ s k, computeAddress_fp _ s k⟩⟩
  case nonneg => rw [offsetBy_of_nonneg _ b hk, ptrAdd_standard]
  case inRange => rw [offsetBy_of_neg _ b hk, ptrSub_of_le hle]
  case underflow => rw [offsetBy_of_neg _ b hk, ptrSub_of_lt hlt]

end Sys2Proof.Proofs.AddressUnit
end

section
/-! PROOFS. Unit U5, the zero test of Jnz (44_assert_update.md R140). Each variant of Word has exactly one zero. -/

open Sys2Proof Sys2Proof.Machine

namespace Sys2Proof.Proofs.AssertUpdate

theorem eq_felt_zero_iff (e : Felt) : e = felt 0 ↔ e.val = 0 := by
  rw [Fin.ext_iff, felt_zero_val]

/-! The zero test on each variant. -/

@[simp] theorem isZero_field_iff (e : Felt) : isZero (.field e) = true ↔ e = felt 0 :=
  decide_eq_true_iff.trans (eq_felt_zero_iff e).symm

@[simp] theorem isZero_ptr_iff (p : Ptr) : isZero (.ptr p) = true ↔ p = ⟨0, 0⟩ := decide_eq_true_iff

/-! The statement. -/

/-- Settles O28, by the variant of the word: a word of one variant is not the other variant's zero. -/
theorem zeroTestIsFieldZeroOrPtrZero : Obligations.ZeroTestIsFieldZeroOrPtrZero := by
  intro w
  cases w with
  | field e => simp only [isZero_field_iff, Word.field.injEq, reduceCtorEq, or_false]
  | ptr p => simp only [isZero_ptr_iff, Word.ptr.injEq, reduceCtorEq, false_or]

end Sys2Proof.Proofs.AssertUpdate
end

section
/-! PROOFS. Unit U2, the decoder and the encoder (30_encoding.md R50 to R64). Each selector decoder is the inverse of
its code; so `decode w` is `i` exactly when `i` is well-formed and the bit fields of `w` are those that `encode`
writes for `i`, and the bit fields determine the word. -/

open Sys2Proof Sys2Proof.Machine

namespace Sys2Proof.Proofs.Decoder

/-! The selector decoders: which value each code gives, and when there is none (R53 to R58). -/

theorem decodeReg_eq_iff {u : Nat} (hu : u < 2) (r : Reg) : decodeReg u = r ↔ u = r.code := by
  unfold decodeReg
  cases r <;> simp only [Reg.code] <;> split <;> simp <;> omega

theorem decodeOp1Src_eq_ok_iff {u : Nat} {v : Op1Src} : decodeOp1Src u = .ok v ↔ u = v.code := by
  unfold decodeOp1Src
  split <;> cases v <;> simp_all [Op1Src.code]

theorem decodePcUpdate_eq_ok_iff {u : Nat} {v : PcUpdate} : decodePcUpdate u = .ok v ↔ u = v.code := by
  unfold decodePcUpdate
  split <;> cases v <;> simp_all [PcUpdate.code]

theorem decodeOpcode_eq_ok_iff {u : Nat} {v : Opcode} : decodeOpcode u = .ok v ↔ u = v.code := by
  unfold decodeOpcode
  split <;> cases v <;> simp_all [Opcode.code]

/-- Raw decoding never gives `Unconstrained`, which shares its code with `Op1` (R55). -/
theorem decodeRawRes_eq_ok_iff {u : Nat} {v : ResLogic} : decodeRawRes u = .ok v ↔ u = v.code ∧ v ≠ .unconstrained := by
  unfold decodeRawRes
  split <;> cases v <;> simp_all [ResLogic.code]

/-- Raw decoding never gives `Add2`, which shares its code with `Regular` (R57). -/
theorem decodeRawAp_eq_ok_iff {u : Nat} {v : ApUpdate} : decodeRawAp u = .ok v ↔ u = v.code ∧ v ≠ .add2 := by
  unfold decodeRawAp
  split <;> cases v <;> simp_all [ApUpdate.code]

/-! The two answers of each selector decoder (R54 to R58, R61). -/

theorem decodeOp1Src_cases (u : Nat) :
    (u ∈ [0, 1, 2, 4] ∧ ∃ v, decodeOp1Src u = .ok v) ∨
      (u ∉ [0, 1, 2, 4] ∧ decodeOp1Src u = .error .invalidOp1Src) := by
  unfold decodeOp1Src
  split <;> simp_all

theorem decodePcUpdate_cases (u : Nat) :
    (u ∈ [0, 1, 2, 4] ∧ ∃ v, decodePcUpdate u = .ok v) ∨
      (u ∉ [0, 1, 2, 4] ∧ decodePcUpdate u = .error .invalidPcUpdate) := by
  unfold decodePcUpdate
  split <;> simp_all

theorem decodeOpcode_cases (u : Nat) :
    (u ∈ [0, 1, 2, 4] ∧ ∃ v, decodeOpcode u = .ok v) ∨
      (u ∉ [0, 1, 2, 4] ∧ decodeOpcode u = .error .invalidOpcode) := by
  unfold decodeOpcode
  split <;> simp_all

theorem decodeRawRes_cases (u : Nat) :
    (u ∈ [0, 1, 2] ∧ ∃ v, decodeRawRes u = .ok v) ∨ (u ∉ [0, 1, 2] ∧ decodeRawRes u = .error .invalidResLogic) := by
  unfold decodeRawRes
  split <;> simp_all

theorem decodeRawAp_cases (u : Nat) :
    (u ∈ [0, 1, 2] ∧ ∃ v, decodeRawAp u = .ok v) ∨ (u ∉ [0, 1, 2] ∧ decodeRawAp u = .error .invalidApUpdate) := by
  unfold decodeRawAp
  split <;> simp_all

/-! The substitutions of raw 0 (R55, R57). -/

/-- A res_logic fits a pc update exactly when it is the substitution of a raw one with its own code (R55). -/
theorem substRes_eq_iff {u : PcUpdate} {v : ResLogic} :
    (∃ raw, raw.code = v.code ∧ raw ≠ .unconstrained ∧ substRes u raw = v) ↔ resLogicFits u v = true := by
  constructor
  · rintro ⟨raw, -, hraw, rfl⟩
    cases raw <;> cases u <;> simp_all [substRes, resLogicFits]
  · intro h
    cases v with
    | op1 => exact ⟨.op1, rfl, by decide, by simpa [substRes, resLogicFits] using h⟩
    | unconstrained => exact ⟨.op1, rfl, by decide, by simpa [substRes, resLogicFits] using h⟩
    | add => exact ⟨.add, rfl, by decide, rfl⟩
    | mul => exact ⟨.mul, rfl, by decide, rfl⟩

/-- An ap_update fits an opcode exactly when it is the substitution of a raw one with its own code (R57). -/
theorem substAp_eq_iff {o : Opcode} {v : ApUpdate} :
    (∃ raw, raw.code = v.code ∧ raw ≠ .add2 ∧ substAp o raw = v) ↔ apUpdateFits o v = true := by
  constructor
  · rintro ⟨raw, -, hraw, rfl⟩
    cases raw <;> cases o <;> simp_all [substAp, apUpdateFits]
  · intro h
    cases v with
    | regular => exact ⟨.regular, rfl, by decide, by simpa [substAp, apUpdateFits] using h⟩
    | add2 => exact ⟨.regular, rfl, by decide, by simpa [substAp, apUpdateFits] using h⟩
    | add => exact ⟨.add, rfl, by decide, rfl⟩
    | add1 => exact ⟨.add1, rfl, by decide, rfl⟩

@[simp] theorem code_substRes (u : PcUpdate) (v : ResLogic) : (substRes u v).code = v.code := by
  unfold substRes
  split
  · next h => rw [h.1]; rfl
  · rfl

@[simp] theorem code_substAp (o : Opcode) (v : ApUpdate) : (substAp o v).code = v.code := by
  unfold substAp
  split
  · next h => rw [h.1]; rfl
  · rfl

/-! Instructions by their parts (R64). -/

@[simp] theorem ofParts_opcode (o : Opcode) (u : PcUpdate) (f : Fields) : (Instr.ofParts o u f).opcode = o := by
  cases o <;> cases u <;> rfl

@[simp] theorem ofParts_pcUpdate (o : Opcode) (u : PcUpdate) (f : Fields) : (Instr.ofParts o u f).pcUpdate = u := by
  cases o <;> cases u <;> rfl

@[simp] theorem ofParts_fields (o : Opcode) (u : PcUpdate) (f : Fields) : (Instr.ofParts o u f).fields = f := by
  cases o <;> cases u <;> rfl

/-- An instruction is its opcode, its pc update and its fields. -/
theorem ofParts_self (i : Instr) : Instr.ofParts i.opcode i.pcUpdate i.fields = i := by
  cases i <;> rfl

/-! The bit fields of a word and the instruction they spell (R51). -/

/-- The bit fields of `w` are those that R63 writes for `i`. -/
structure Spells (w : BitVec 64) (i : Instr) : Prop where
  offDst : bits w 15 0 = bias16 i.fields.offDst
  offOp0 : bits w 31 16 = bias16 i.fields.offOp0
  offOp1 : bits w 47 32 = bias16 i.fields.offOp1
  dstReg : bits w 48 48 = i.fields.dstReg.code
  op0Reg : bits w 49 49 = i.fields.op0Reg.code
  op1Src : bits w 52 50 = i.fields.op1Src.code
  resLogic : bits w 54 53 = i.fields.resLogic.code
  pcUpdate : bits w 57 55 = i.pcUpdate.code
  apUpdate : bits w 59 58 = i.fields.apUpdate.code
  opcode : bits w 62 60 = i.opcode.code
  high : bits w 63 63 = 0

/-- What `encode` writes for a well-formed instruction are its fields. -/
theorem spells_encode {i : Instr} (h : i.wf = true) : Spells (encode i) i := by
  obtain ⟨h₁, h₂, h₃, h₄, h₅, h₆, h₇, h₈, h₉, h₁₀, h₁₁⟩ := bits_encode h
  exact ⟨h₁, h₂, h₃, h₄, h₅, h₆, h₇, h₈, h₉, h₁₀, h₁₁⟩

theorem bits_eq_div_mod (w : BitVec 64) (hi lo : Nat) : bits w hi lo = w.toNat / 2 ^ lo % 2 ^ (hi - lo + 1) := by
  rw [bits, Nat.shiftRight_eq_div_pow]

theorem bits_lt (w : BitVec 64) (hi lo : Nat) : bits w hi lo < 2 ^ (hi - lo + 1) :=
  Nat.mod_lt _ (Nat.two_pow_pos _)

/-- The eleven fields cover the word, so they determine it: `encode` is their weighted sum (R51, R63). -/
theorem encode_of_spells {w : BitVec 64} {i : Instr} (h : Spells w i) : encode i = w := by
  have hw := w.isLt
  apply BitVec.eq_of_toNat_eq
  rw [encode, BitVec.toNat_ofNat, ← h.offDst, ← h.offOp0, ← h.offOp1, ← h.dstReg, ← h.op0Reg, ← h.op1Src,
    ← h.resLogic, ← h.pcUpdate, ← h.apUpdate, ← h.opcode]
  have hhigh := h.high
  simp only [bits_eq_div_mod] at hhigh ⊢
  omega

theorem bias16_unbias16 (u : Nat) : bias16 (unbias16 u) = u := by
  unfold bias16 unbias16
  omega

theorem offsetInRange_unbias16 {u : Nat} (h : u < 2 ^ 16) : offsetInRange (unbias16 u) = true := by
  rw [offsetInRange_iff]
  unfold unbias16
  omega

/-- What a word decodes to is well-formed, and the word spells it. -/
theorem wf_and_spells_of_decode {w : BitVec 64} {i : Instr} (h : decode w = .ok i) : i.wf = true ∧ Spells w i := by
  unfold decode at h
  split at h
  · cases h
  next hhigh =>
  obtain ⟨src, hsrc, h⟩ := except_bind_ok.1 h
  obtain ⟨res, hres, h⟩ := except_bind_ok.1 h
  obtain ⟨pc, hpc, h⟩ := except_bind_ok.1 h
  obtain ⟨ap, hap, h⟩ := except_bind_ok.1 h
  obtain ⟨op, hop, h⟩ := except_bind_ok.1 h
  obtain ⟨hres, hresNe⟩ := decodeRawRes_eq_ok_iff.1 hres
  obtain ⟨hap, hapNe⟩ := decodeRawAp_eq_ok_iff.1 hap
  have hbit : bits w 63 63 = 0 := by have := bits_lt w 63 63; omega
  cases h
  refine ⟨wf_iff.2 ?_, ?_⟩
  · simp only [ofParts_fields, ofParts_opcode, ofParts_pcUpdate]
    exact ⟨offsetInRange_unbias16 (bits_lt _ _ _), offsetInRange_unbias16 (bits_lt _ _ _),
      offsetInRange_unbias16 (bits_lt _ _ _), substRes_eq_iff.1 ⟨res, (code_substRes _ _).symm, hresNe, rfl⟩,
      substAp_eq_iff.1 ⟨ap, (code_substAp _ _).symm, hapNe, rfl⟩⟩
  · exact {
      offDst := by rw [ofParts_fields, bias16_unbias16]
      offOp0 := by rw [ofParts_fields, bias16_unbias16]
      offOp1 := by rw [ofParts_fields, bias16_unbias16]
      dstReg := by rw [ofParts_fields]; exact (decodeReg_eq_iff (bits_lt w 48 48) _).1 rfl
      op0Reg := by rw [ofParts_fields]; exact (decodeReg_eq_iff (bits_lt w 49 49) _).1 rfl
      op1Src := by rw [ofParts_fields]; exact decodeOp1Src_eq_ok_iff.1 hsrc
      resLogic := by rw [ofParts_fields, code_substRes, hres]
      pcUpdate := by rw [ofParts_pcUpdate]; exact decodePcUpdate_eq_ok_iff.1 hpc
      apUpdate := by rw [ofParts_fields, code_substAp, hap]
      opcode := by rw [ofParts_opcode]; exact decodeOpcode_eq_ok_iff.1 hop
      high := hbit }

/-- A word that spells a well-formed instruction decodes to it. -/
theorem decode_of_spells {w : BitVec 64} {i : Instr} (hwf : i.wf = true) (hw : Spells w i) : decode w = .ok i := by
  obtain ⟨h₁, h₂, h₃, h₄, h₅⟩ := wf_iff.1 hwf
  obtain ⟨res, hres, hresNe, hresEq⟩ := substRes_eq_iff.2 h₄
  obtain ⟨ap, hap, hapNe, hapEq⟩ := substAp_eq_iff.2 h₅
  have hhigh : ¬ bits w 63 63 = 1 := by rw [hw.high]; decide
  have hsrc := decodeOp1Src_eq_ok_iff.2 hw.op1Src
  have hraw := decodeRawRes_eq_ok_iff.2 ⟨hw.resLogic.trans hres.symm, hresNe⟩
  have hpc := decodePcUpdate_eq_ok_iff.2 hw.pcUpdate
  have hrawAp := decodeRawAp_eq_ok_iff.2 ⟨hw.apUpdate.trans hap.symm, hapNe⟩
  have hop := decodeOpcode_eq_ok_iff.2 hw.opcode
  have hdst := (decodeReg_eq_iff (bits_lt w 48 48) _).2 hw.dstReg
  have hop0 := (decodeReg_eq_iff (bits_lt w 49 49) _).2 hw.op0Reg
  simp only [decode, if_neg hhigh, hsrc, hraw, hpc, hrawAp, hop, bind, Except.bind, hw.offDst, hw.offOp0, hw.offOp1,
    unbias16_bias16 h₁, unbias16_bias16 h₂, unbias16_bias16 h₃, hdst, hop0, hresEq, hapEq]
  exact congrArg _ (ofParts_self i)

/-- Said once: what decoding is. A word decodes to `i` exactly when `i` is well-formed and the word spells it. -/
theorem decode_eq_ok_iff {w : BitVec 64} {i : Instr} : decode w = .ok i ↔ i.wf = true ∧ Spells w i :=
  ⟨wf_and_spells_of_decode, fun ⟨hwf, hw⟩ => decode_of_spells hwf hw⟩

/-! The order of the checks (R61, D10). -/

theorem legalWord_iff {w : BitVec 64} : legalWord w = true ↔
    bits w 63 63 = 0 ∧ bits w 52 50 ∈ [0, 1, 2, 4] ∧ bits w 57 55 ∈ [0, 1, 2, 4] ∧ bits w 62 60 ∈ [0, 1, 2, 4] ∧
      bits w 54 53 ∈ [0, 1, 2] ∧ bits w 59 58 ∈ [0, 1, 2] := by
  simp [legalWord, and_assoc]

theorem decodeOp1Src_ok_of_mem {u : Nat} (h : u ∈ [0, 1, 2, 4]) : ∃ v, decodeOp1Src u = .ok v :=
  (decodeOp1Src_cases u).elim And.right fun hn => absurd h hn.1

theorem decodePcUpdate_ok_of_mem {u : Nat} (h : u ∈ [0, 1, 2, 4]) : ∃ v, decodePcUpdate u = .ok v :=
  (decodePcUpdate_cases u).elim And.right fun hn => absurd h hn.1

/-- A two-bit field holds one of its three values or 3 (R55, R57). -/
theorem mem_of_ne_three {u : Nat} (hu : u < 4) (h : u ≠ 3) : u ∈ [0, 1, 2] := by
  simp only [List.mem_cons, List.not_mem_nil, or_false]
  omega

/-! The statements. -/

/-- Settles O16: what `encode` writes spells the instruction, and a word that spells it decodes to it. -/
theorem decodeOfEncodeIsTheInstruction : Obligations.DecodeOfEncodeIsTheInstruction :=
  fun _ hwf => decode_eq_ok_iff.2 ⟨hwf, spells_encode hwf⟩

/-- Settles O17: a word that decodes to an instruction spells it, and the fields determine the word. -/
theorem encodeOfDecodeIsTheWord : Obligations.EncodeOfDecodeIsTheWord := by
  intro w i h
  obtain ⟨hwf, hw⟩ := decode_eq_ok_iff.1 h
  exact ⟨encode_of_spells hw, hwf⟩

/-- Settles O19: each clause makes the checks before its own pass, and its own fail. -/
theorem firstBadFieldGivesTheDecodeError : Obligations.FirstBadFieldGivesTheDecodeError := by
  intro w
  have hzero : bits w 63 63 = 0 → ¬ bits w 63 63 = 1 := fun h => by rw [h]; decide
  have hres : bits w 54 53 ≠ 3 → ∃ v, decodeRawRes (bits w 54 53) = .ok v := fun h =>
    (decodeRawRes_cases _).elim And.right fun hn => absurd (mem_of_ne_three (bits_lt w 54 53) h) hn.1
  have hap : bits w 59 58 ≠ 3 → ∃ v, decodeRawAp (bits w 59 58) = .ok v := fun h =>
    (decodeRawAp_cases _).elim And.right fun hn => absurd (mem_of_ne_three (bits_lt w 59 58) h) hn.1
  refine ⟨fun h => ?high, fun h h₁ => ?op1Src, fun h h₁ h₂ => ?resLogic, fun h h₁ h₂ h₃ => ?pcUpdate,
    fun h h₁ h₂ h₃ h₄ => ?apUpdate, fun h h₁ h₂ h₃ h₄ h₅ => ?opcode⟩
  case high => exact if_pos h
  case op1Src =>
    have hbad := (decodeOp1Src_cases (bits w 52 50)).resolve_left fun hm => h₁ hm.1
    simp only [decode, if_neg (hzero h), hbad.2, bind, Except.bind]
  case resLogic =>
    obtain ⟨src, hsrc⟩ := decodeOp1Src_ok_of_mem h₁
    simp only [decode, if_neg (hzero h), hsrc, h₂, decodeRawRes, bind, Except.bind]
  case pcUpdate =>
    obtain ⟨src, hsrc⟩ := decodeOp1Src_ok_of_mem h₁
    obtain ⟨res, hres⟩ := hres h₂
    have hbad := (decodePcUpdate_cases (bits w 57 55)).resolve_left fun hm => h₃ hm.1
    simp only [decode, if_neg (hzero h), hsrc, hres, hbad.2, bind, Except.bind]
  case apUpdate =>
    obtain ⟨src, hsrc⟩ := decodeOp1Src_ok_of_mem h₁
    obtain ⟨res, hres⟩ := hres h₂
    obtain ⟨pc, hpc⟩ := decodePcUpdate_ok_of_mem h₃
    simp only [decode, if_neg (hzero h), hsrc, hres, hpc, h₄, decodeRawAp, bind, Except.bind]
  case opcode =>
    obtain ⟨src, hsrc⟩ := decodeOp1Src_ok_of_mem h₁
    obtain ⟨res, hres⟩ := hres h₂
    obtain ⟨pc, hpc⟩ := decodePcUpdate_ok_of_mem h₃
    obtain ⟨ap, hap⟩ := hap h₄
    have hbad := (decodeOpcode_cases (bits w 62 60)).resolve_left fun hm => h₅ hm.1
    simp only [decode, if_neg (hzero h), hsrc, hres, hpc, hap, hbad.2, bind, Except.bind]

/-- Settles O18: the fields of a legal word all decode; the fields that an instruction is spelled with are legal. -/
theorem legalWordsAreThoseThatDecode : Obligations.LegalWordsAreThoseThatDecode := by
  intro w
  rw [legalWord_iff]
  constructor
  · rintro ⟨i, h⟩
    obtain ⟨-, hw⟩ := decode_eq_ok_iff.1 h
    rw [hw.op1Src, hw.pcUpdate, hw.opcode, hw.resLogic, hw.apUpdate]
    refine ⟨hw.high, ?_, ?_, ?_, ?_, ?_⟩
    · cases i.fields.op1Src <;> decide
    · cases i.pcUpdate <;> decide
    · cases i.opcode <;> decide
    · cases i.fields.resLogic <;> decide
    · cases i.fields.apUpdate <;> decide
  · rintro ⟨hhigh, hsrc, hpc, hop, hres, hap⟩
    obtain ⟨src, hsrc⟩ := decodeOp1Src_ok_of_mem hsrc
    obtain ⟨pc, hpc⟩ := decodePcUpdate_ok_of_mem hpc
    obtain ⟨op, hop⟩ := (decodeOpcode_cases _).elim And.right fun hn => absurd hop hn.1
    obtain ⟨res, hres⟩ := (decodeRawRes_cases _).elim And.right fun hn => absurd hres hn.1
    obtain ⟨ap, hap⟩ := (decodeRawAp_cases _).elim And.right fun hn => absurd hap hn.1
    have hzero : ¬ bits w 63 63 = 1 := by rw [hhigh]; decide
    simp only [decode, if_neg hzero, hsrc, hres, hpc, hap, hop, bind, Except.bind, Except.ok.injEq, exists_eq']

/-- Settles O20: five words by evaluation of the decoder, which is what the spec's table of words lists. -/
theorem specWordsDecodeAsListed : Obligations.SpecWordsDecodeAsListed := by
  refine ⟨?_, ?_, ?_, ?_, ?_⟩ <;> decide

/-! From the fetched cell to the instruction (R50, R110, R111). -/

/-- An encoded instruction stored in a cell is read back from it. -/
theorem decodeCell_encode {i : Instr} (hwf : i.wf = true) :
    decodeCell (instructionCell (encode i).toNat) = .ok i := by
  obtain ⟨e, hcell, hval⟩ := instructionCell_field (encode i).isLt
  rw [hcell, decodeCell_field (by rw [hval]; exact (encode i).isLt), hval, BitVec.ofNat_toNat, BitVec.setWidth_eq]
  exact decodeOfEncodeIsTheInstruction i hwf

/-- Settles O23: both readings are the decoding of the cell that stores the encoded word. -/
theorem encodedInstructionPlacedAtPcIsRun : Obligations.EncodedInstructionPlacedAtPcIsRun := by
  intro i s hwf
  have hcell := decodeCell_encode hwf
  constructor
  · rw [decodeTableWord, if_pos le_rfl, Nat.mod_eq_of_lt (encode i).isLt, hcell]
    rfl
  · rw [withFetchWord_eq s (encode i).isLt]
    exact step_of_fetch (placeInstruction_launched s _) ((fetch_placeInstruction s _).trans hcell)

end Sys2Proof.Proofs.Decoder
end

section
/-! PROOFS. The field laws of unit U1 (40_field_alu.md R79) and the tables of unit U1b (41_word_alu.md R86 to R95). -/

open Sys2Proof Sys2Proof.Machine

namespace Sys2Proof.Proofs.WordAlu

open Sys2Proof.Proofs.FieldAlu

/-! The laws of the field. -/

theorem fadd_comm (a b : Felt) : fadd a b = fadd b a := by
  ext
  rw [fadd_val, fadd_val, Nat.add_comm]

theorem fadd_assoc (a b c : Felt) : fadd (fadd a b) c = fadd a (fadd b c) := by
  ext
  simp only [fadd_val, Nat.mod_add_mod, Nat.add_mod_mod, Nat.add_assoc]

@[simp] theorem fadd_felt_zero (a : Felt) : fadd a (felt 0) = a := by
  ext
  rw [fadd_val, felt_zero_val, Nat.add_zero, Nat.mod_eq_of_lt a.isLt]

theorem fmul_fadd (a b c : Felt) : fmul a (fadd b c) = fadd (fmul a b) (fmul a c) := by
  ext
  simp only [fadd_val, fmul_val, Nat.mul_mod_mod, Nat.mod_add_mod, Nat.add_mod_mod, Nat.mul_add]

theorem fsub_self (a : Felt) : fsub a a = felt 0 := by
  rw [fsub, sub_self]

/-- The residue of an integer does not change with a multiple of P added to it. -/
theorem felt_val_add_P (a : Felt) : felt ((a.val : Int) + (P : Int)) = a := by
  refine ((eq_felt_iff_modEq _ a).2 ?_).symm
  rw [Int.ModEq, Int.add_emod_right]

/-- Subtraction is addition of the negative (R73, R79). -/
theorem fsub_eq_fadd_neg (a b : Felt) : fsub a b = fadd a (felt (-(b.val : Int))) := by
  refine ((eq_felt_iff_modEq _ _).2 ?_).symm
  have hval := felt_val (-(b.val : Int))
  rw [fadd_val, Int.ModEq, Int.natCast_mod, Int.emod_emod, Int.natCast_add, hval, Int.add_emod_emod, sub_eq_add_neg]

/-- Settles O5: residues of the laws of the integers, and the inverse of O3. -/
theorem fieldLawsHold : Obligations.FieldLawsHold := by
  refine ⟨fun x => ⟨felt_val_add_P x, fsub_self x, fun hx => ?inverse⟩,
    fun a b => ⟨fadd_comm a b, fmul_comm a b, fsub_eq_fadd_neg a b, rfl⟩,
    fun a b d => ⟨fadd_assoc a b d, fmul_assoc a b d, fmul_fadd a b d⟩,
    fun a => ⟨fadd_felt_zero a, fmul_felt_one a⟩⟩
  case inverse =>
    obtain ⟨y, hok⟩ := finv_of_ne_zero hx
    exact ⟨y, hok, fmul_finv hok⟩

/-! Pointer sums under a bound (R88). -/

theorem ptrAdd_unbounded {c : Config} (h : c.maxOffset = none) (p : Ptr) (n : Nat) :
    ptrAdd c p n = .ok ⟨p.seg, p.off + n⟩ := by
  simp only [ptrAdd, Config.offsetFits, h, if_true]

theorem ptrAdd_bounded {c : Config} {m : Nat} (h : c.maxOffset = some m) (p : Ptr) (n : Nat) :
    ptrAdd c p n = if p.off + n ≤ m then .ok ⟨p.seg, p.off + n⟩ else .error .capacityExceeded := by
  simp only [ptrAdd, Config.offsetFits, h, decide_eq_true_eq]

/-- Settles O6: each cell of the table is the arm of that pair of variants. -/
theorem wordArithmeticTable : Obligations.WordArithmeticTable := by
  intro c x y p q
  refine ⟨⟨rfl, fun hc => ?sum, fun m hc => ?boundedSum, rfl, rfl⟩, ⟨rfl, ?difference, rfl, rfl⟩, ⟨rfl, rfl, rfl, rfl⟩,
    fun hy => ?zeroDivisor, fun hy => ?quotient, rfl, rfl, rfl⟩
  case sum => rw [wadd, ptrAdd_unbounded hc]; rfl
  case boundedSum => rw [wadd, ptrAdd_bounded hc]; split <;> rfl
  case difference => rw [wsub, ptrSub]; split <;> rfl
  case zeroDivisor => exact except_map_error.2 (fdiv_of_finv_error (finv_of_zero hy))
  case quotient =>
    obtain ⟨z, hok⟩ := finv_of_ne_zero hy
    exact ⟨fmul x z, fdiv_of_finv_ok hok, except_map_ok.2 ⟨_, fdiv_of_finv_ok hok, rfl⟩⟩

/-! What a Ptr result comes from (R88, R89, R95). -/

theorem wadd_ptr {c : Config} {a b : Word} {r : Ptr} (h : wadd c a b = .ok (.ptr r)) :
    ∃ p y, a = .ptr p ∧ b = .field y ∧ ptrAdd c p y.val = .ok r := by
  rcases a with x | p <;> rcases b with y | q
  · cases h
  · cases h
  · obtain ⟨_, hq, hr⟩ := except_map_ok.1 h
    cases hr
    exact ⟨p, y, rfl, rfl, hq⟩
  · cases h

theorem wsub_ptr {a b : Word} {r : Ptr} (h : wsub a b = .ok (.ptr r)) :
    ∃ p y, a = .ptr p ∧ b = .field y ∧ ptrSub p y.val = .ok r := by
  rcases a with x | p <;> rcases b with y | q
  · cases h
  · cases h
  · obtain ⟨_, hq, hr⟩ := except_map_ok.1 h
    cases hr
    exact ⟨p, y, rfl, rfl, hq⟩
  · rw [wsub] at h
    split at h <;> cases h

theorem wmul_ne_ptr {a b : Word} {r : Ptr} : wmul a b ≠ .ok (.ptr r) := by
  cases a <;> cases b <;> simp [wmul]

theorem wdiv_ne_ptr {a b : Word} {r : Ptr} : wdiv a b ≠ .ok (.ptr r) := by
  cases a <;> cases b <;> simp [wdiv, except_map_ok]

/-- Settles O7: only a sum or a difference of a Ptr and a Field is a Ptr, and both keep the segment. -/
theorem wordOperationsKeepTheSegment : Obligations.WordOperationsKeepTheSegment := by
  rintro c a b r (h | h | h | h)
  · obtain ⟨p, y, rfl, -, hr⟩ := wadd_ptr h
    exact ⟨p, rfl, by rw [(ptrAdd_ok hr).2]⟩
  · obtain ⟨p, y, rfl, -, hr⟩ := wsub_ptr h
    exact ⟨p, rfl, by rw [(ptrSub_ok hr).2]⟩
  · exact absurd h wmul_ne_ptr
  · exact absurd h wdiv_ne_ptr

end Sys2Proof.Proofs.WordAlu
end

section
/-! PROOFS. Unit U4 and the host surface (20_memory.md R30 to R37; 70_reset_and_hazards.md R190 to R207), and what every
host call and every step keeps. -/

open Sys2Proof Sys2Proof.Machine

namespace Sys2Proof.Proofs.HostSurface

/-! The operations of unit U4 (R32, R34, R37). -/

/-- In an allocated segment, an `insert` into a Filled cell succeeds exactly for the equal word (R34, R35). -/
theorem insert_filled_ok_iff {s : State} {a : Ptr} {v w : Word} (hseg : a.seg < s.nseg)
    (h : Memory.get s.mem a = some v) : (∃ t, Machine.insert s a w = .ok t) ↔ w = v := by
  constructor
  · rintro ⟨t, ht⟩
    obtain ⟨-, ⟨hw, -⟩ | ⟨hn, -⟩⟩ := insert_ok ht
    · exact Option.some.inj (hw.symm.trans h)
    · rw [hn] at h
      cases h
  · rintro rfl
    exact ⟨s, insert_equal hseg h⟩

theorem insert_unallocated {s : State} {a : Ptr} (w : Word) (hseg : s.nseg ≤ a.seg) :
    Machine.insert s a w = .error .segmentOutOfBounds := if_pos hseg

theorem insert_unequal {s : State} {a : Ptr} {v w : Word} (hseg : a.seg < s.nseg) (h : Memory.get s.mem a = some v)
    (hne : v ≠ w) : Machine.insert s a w = .error .writeOnce := by
  simp [Machine.insert, h, Nat.not_le.2 hseg, hne]

/-- Settles O8: the segment, then the cell, decide the outcome. -/
theorem insertFollowsTheWriteOnceRule : Obligations.InsertFollowsTheWriteOnceRule := by
  intro s a w
  refine ⟨insert_unallocated w, fun hseg v hv => ⟨?equal, insert_unequal hseg hv⟩, fun hseg hn => ?empty⟩
  case equal =>
    rintro rfl
    exact insert_equal hseg hv
  case empty =>
    have hok := insert_empty w hseg hn
    obtain ⟨hregs, -, -, hother, hself⟩ := insert_keeps hok
    exact ⟨_, hok, hregs, hself, hother⟩

theorem addSegment_of_fits {c : Config} {s : State} (h : c.segmentFits s.nseg = true) :
    addSegment c s = .ok (⟨s.nseg, 0⟩, { s with nseg := s.nseg + 1 }) := if_pos h

/-- Settles O9: the bound, if there is one, is compared with NSEG. -/
theorem addSegmentAllocatesTheNext : Obligations.AddSegmentAllocatesTheNext := by
  intro c s
  refine ⟨fun hc => addSegment_of_fits ?unbounded, fun m hc hlt => addSegment_of_fits ?below, fun hc => ?reached⟩
  case unbounded => simp only [Config.segmentFits, hc]
  case below => simpa only [Config.segmentFits, hc, decide_eq_true_eq] using hlt
  case reached => simp [addSegment, Config.segmentFits, hc]

/-! `load_data`, by induction on the words. -/

theorem loadData_cons_ok {s t : State} {a : Ptr} {w : Word} (ws : List Word) (h : Machine.insert s a w = .ok t) :
    loadData s a (w :: ws) = loadData t ⟨a.seg, a.off + 1⟩ ws := by
  rw [loadData, h]

theorem loadData_cons_error {s : State} {a : Ptr} {w : Word} {e : ErrorKind} (ws : List Word)
    (h : Machine.insert s a w = .error e) : loadData s a (w :: ws) = (.error e, s) := by
  rw [loadData, h]

/-- A `load_data` that succeeds returns the address past its words, and its cells read the words. -/
theorem loadData_ok {s t : State} {a p : Ptr} {ws : List Word} (h : loadData s a ws = (.ok p, t)) :
    p = ⟨a.seg, a.off + ws.length⟩ ∧ (∀ k w, ws[k]? = some w → Memory.get t.mem ⟨a.seg, a.off + k⟩ = some w) ∧
      ∀ b : Ptr, (∀ k, k < ws.length → b ≠ ⟨a.seg, a.off + k⟩) → Memory.get t.mem b = Memory.get s.mem b := by
  induction ws generalizing s a with
  | nil =>
    cases h
    exact ⟨rfl, by simp, fun _ _ => rfl⟩
  | cons w ws ih =>
    cases hins : Machine.insert s a w with
    | error e =>
      rw [loadData_cons_error ws hins] at h
      cases h
    | ok u =>
      rw [loadData_cons_ok ws hins] at h
      obtain ⟨-, -, -, hother, hself⟩ := insert_keeps hins
      obtain ⟨-, hgrows, -⟩ := loadData_keeps u ⟨a.seg, a.off + 1⟩ ws
      obtain ⟨hp, hcells, hframe⟩ := ih h
      have hnext : ∀ k, a.off + 1 + k = a.off + (k + 1) := fun k => by omega
      simp only [hnext] at hp hcells hframe
      refine ⟨hp, fun k v hk => ?_, fun b hb => ?_⟩
      · cases k with
        | zero =>
          cases hk
          rw [h] at hgrows
          exact hgrows a w hself
        | succ k => exact hcells k v hk
      · rw [hframe b fun k hk => hb (k + 1) (Nat.succ_lt_succ hk), hother b (hb 0 (Nat.zero_lt_succ _))]

/-- A `load_data` that fails is one that succeeds up to the word whose `insert` fails. -/
theorem loadData_error {s t : State} {a : Ptr} {ws : List Word} {e : ErrorKind} (h : loadData s a ws = (.error e, t)) :
    ∃ k w, ws[k]? = some w ∧ loadData s a (ws.take k) = (.ok ⟨a.seg, a.off + k⟩, t) ∧
      Machine.insert t ⟨a.seg, a.off + k⟩ w = .error e := by
  induction ws generalizing s a with
  | nil => cases h
  | cons w ws ih =>
    cases hins : Machine.insert s a w with
    | error e' =>
      rw [loadData_cons_error ws hins] at h
      cases h
      exact ⟨0, w, rfl, rfl, hins⟩
    | ok u =>
      rw [loadData_cons_ok ws hins] at h
      obtain ⟨k, v, hk, hload, hfail⟩ := ih h
      have hnext : a.off + 1 + k = a.off + (k + 1) := by omega
      simp only [hnext] at hload hfail
      exact ⟨k + 1, v, hk, by rw [List.take_succ_cons, loadData_cons_ok _ hins, hload], hfail⟩

/-- Settles O10, by induction on the words. -/
theorem loadDataFillsConsecutiveCells : Obligations.LoadDataFillsConsecutiveCells := by
  intro s t a ws
  refine ⟨fun p h => ?_, fun e h => loadData_error h⟩
  obtain ⟨hp, hcells, hframe⟩ := loadData_ok h
  have hregs := (loadData_keeps s a ws).1
  rw [h] at hregs
  exact ⟨hp, hregs, hcells, hframe⟩

/-! What every host call and every step keeps (R207). -/

/-- The order of R207 on states: counters and memory grow, the invariant and a launch stay. -/
structure Grows (s t : State) : Prop where
  nseg : s.nseg ≤ t.nseg
  steps : s.steps ≤ t.steps
  mem : Memory.grows s.mem t.mem
  inv : s.inv → t.inv
  launched : s.launched = true → t.launched = true

theorem Grows.refl (s : State) : Grows s s := ⟨le_rfl, le_rfl, grows_refl _, id, id⟩

theorem Grows.trans {s t u : State} (h : Grows s t) (h' : Grows t u) : Grows s u where
  nseg := h.nseg.trans h'.nseg
  steps := h.steps.trans h'.steps
  mem := grows_trans h.mem h'.mem
  inv := h'.inv ∘ h.inv
  launched := h'.launched ∘ h.launched

/-- What writes memory only, and grows it, goes up in the order. -/
theorem Grows.of_sameRegs {s t : State} (hregs : sameRegs s t) (hmem : Memory.grows s.mem t.mem)
    (hinv : s.inv → t.inv) : Grows s t := by
  obtain ⟨-, -, -, hnseg, hsteps, hl⟩ := hregs
  exact ⟨hnseg.ge, hsteps.ge, hmem, hinv, fun h => hl.trans h⟩

theorem Grows.of_Kept {x : Addrs} {s t : State} (h : Kept x s t) : Grows s t := by
  obtain ⟨hregs, hmem, hinv, -⟩ := h
  exact .of_sameRegs hregs hmem hinv

theorem Grows.of_commit (s : State) (pc ap fp : Ptr) : Grows s (commit s pc ap fp) :=
  ⟨le_rfl, Nat.le_succ _, grows_refl _, commit_inv pc ap fp, id⟩

/-- Said once: the host's step. It is refused before the launch; after it, it is done, with one more in STEPS, or
failed, with the same STEPS. -/
theorem hostCall_step_cases (c : Config) (s : State) :
    hostCall c .step s = (.refused, s) ∨
      (∃ t, hostCall c .step s = (.done, t) ∧ t.steps = s.steps + 1 ∧ Grows s t) ∨
      ∃ e t, hostCall c .step s = (.failed e, t) ∧ t.steps = s.steps ∧ Grows s t := by
  rcases stepUnder_cases c s with ⟨-, h⟩ | ⟨-, ⟨i, x, u, pc, ap, fp, -, -, hk, h⟩ | ⟨e, h⟩ | ⟨i, x, e, u, -, -, hk, h⟩⟩
  · exact .inl (by rw [hostCall, h])
  · obtain ⟨-, -, -, -, hsteps, -⟩ := hk.1
    exact .inr (.inl ⟨_, by rw [hostCall, h], congrArg (· + 1) hsteps,
      (Grows.of_Kept hk).trans (.of_commit u pc ap fp)⟩)
  · exact .inr (.inr ⟨e, s, by rw [hostCall, h], rfl, .refl s⟩)
  · obtain ⟨-, -, -, -, hsteps, -⟩ := hk.1
    exact .inr (.inr ⟨e, u, by rw [hostCall, h], hsteps, .of_Kept hk⟩)

/-! What each host call answers and leaves (R191). -/

section Replies

variable {c : Config} {s t : State} {e : ErrorKind}

theorem hostCall_addSegment_ok {p : Ptr} (h : addSegment c s = .ok (p, t)) :
    hostCall c .addSegment s = (.pointer p, t) := by
  rw [hostCall, h]

theorem hostCall_addSegment_error (h : addSegment c s = .error e) : hostCall c .addSegment s = (.failed e, s) := by
  rw [hostCall, h]

theorem hostCall_insert_ok {a : Ptr} {w : Word} (h : Machine.insert s a w = .ok t) :
    hostCall c (.insert a w) s = (.done, t) := by
  rw [hostCall, h]

theorem hostCall_insert_error {a : Ptr} {w : Word} (h : Machine.insert s a w = .error e) :
    hostCall c (.insert a w) s = (.failed e, s) := by
  rw [hostCall, h]

theorem hostCall_loadData_ok {a p : Ptr} {ws : List Word} (h : loadData s a ws = (.ok p, t)) :
    hostCall c (.loadData a ws) s = (.pointer p, t) := by
  rw [hostCall, h]

theorem hostCall_loadData_error {a : Ptr} {ws : List Word} (h : loadData s a ws = (.error e, t)) :
    hostCall c (.loadData a ws) s = (.failed e, t) := by
  rw [hostCall, h]

/-- Whatever it answers, the host's `load_data` leaves the state that the operation leaves. -/
theorem hostCall_loadData_state (a : Ptr) (ws : List Word) :
    (hostCall c (.loadData a ws) s).2 = (loadData s a ws).2 := by
  rcases h : loadData s a ws with ⟨_ | _, u⟩
  · rw [hostCall_loadData_error h]
  · rw [hostCall_loadData_ok h]

theorem hostCall_launch_some {pc0 ap0 : Ptr} (h : launch s pc0 ap0 = some t) :
    hostCall c (.launch pc0 ap0) s = (.done, t) := by
  rw [hostCall, h]

theorem hostCall_launch_none {pc0 ap0 : Ptr} (h : launch s pc0 ap0 = none) :
    hostCall c (.launch pc0 ap0) s = (.refused, s) := by
  rw [hostCall, h]

end Replies

/-- Every host call goes up in the order of R207. -/
theorem hostCall_grows (c : Config) (q : HostCall) (s : State) : Grows s (hostCall c q s).2 := by
  cases q with
  | addSegment =>
    cases h : addSegment c s with
    | error e => rw [hostCall_addSegment_error h]; exact .refl s
    | ok r =>
      obtain ⟨p, t⟩ := r
      rw [hostCall_addSegment_ok h]
      have hinv := addSegment_inv h
      obtain ⟨-, -, rfl⟩ := addSegment_ok h
      exact ⟨Nat.le_succ _, le_rfl, grows_refl _, hinv, id⟩
  | loadData a ws =>
    rw [hostCall_loadData_state]
    obtain ⟨hregs, hmem, hinv⟩ := loadData_keeps s a ws
    exact .of_sameRegs hregs hmem hinv
  | insert a w =>
    cases h : Machine.insert s a w with
    | error e => rw [hostCall_insert_error h]; exact .refl s
    | ok t =>
      rw [hostCall_insert_ok h]
      obtain ⟨hregs, hmem, hinv, -⟩ := insert_keeps h
      exact .of_sameRegs hregs hmem hinv
  | launch pc0 ap0 =>
    cases h : launch s pc0 ap0 with
    | none => rw [hostCall_launch_none h]; exact .refl s
    | some t =>
      rw [hostCall_launch_some h]
      have hinv := launch_inv h
      obtain ⟨-, rfl⟩ := launch_some.1 h
      exact ⟨le_rfl, le_rfl, grows_refl _, hinv, fun _ => rfl⟩
  | step =>
    rcases hostCall_step_cases c s with h | ⟨t, h, -, hg⟩ | ⟨e, t, h, -, hg⟩ <;> rw [h]
    · exact .refl s
    · exact hg
    · exact hg
  | get _ | readPc | readAp | readFp | readSteps | readNseg => exact .refl s

/-- Any host calls go up in the order of R207, by induction on the calls. -/
theorem hostCalls_grows (c : Config) (qs : List HostCall) (s : State) : Grows s (hostCalls c qs s) := by
  induction qs generalizing s with
  | nil => exact .refl s
  | cons q qs ih => exact (hostCall_grows c q s).trans (ih _)

/-- Settles O12: the order of R207 over any calls, and STEPS over the host's step. -/
theorem hostCallsAndStepsOnlyGrow : Obligations.HostCallsAndStepsOnlyGrow := by
  intro c s
  refine ⟨fun qs => ?calls, fun t ht => ?done, fun e t ht => ?failed⟩
  case calls =>
    obtain ⟨hnseg, hsteps, hmem, hinv, hl⟩ := hostCalls_grows c qs s
    exact ⟨hnseg, hsteps, hmem, hinv, hl⟩
  case done =>
    rcases hostCall_step_cases c s with h | ⟨u, h, hsteps, -⟩ | ⟨e, u, h, -⟩ <;> rw [h] at ht <;> cases ht
    exact hsteps
  case failed =>
    rcases hostCall_step_cases c s with h | ⟨u, h, -⟩ | ⟨e', u, h, hsteps, -⟩ <;> rw [h] at ht <;> cases ht
    exact hsteps

/-- Settles O11: the inserted word stays through any calls (O12), and `insert` compares with it. -/
theorem writeOnceLaw : Obligations.WriteOnceLaw := by
  intro c s t a w w' qs h
  obtain ⟨hregs, -, -, -, hw⟩ := insert_keeps h
  obtain ⟨-, -, -, hnseg, -⟩ := hregs
  have hgrows := hostCalls_grows c qs t
  have hseg : a.seg < (hostCalls c qs t).nseg := by
    have := (insert_ok h).1
    have := hgrows.nseg
    omega
  have hstays := hgrows.mem a w hw
  exact ⟨insert_filled_ok_iff hseg hstays, hstays, hgrows.mem, hgrows.nseg⟩

/-- Settles O14: a step is a fault that keeps the invariant, or a commit on top of write-backs that keep it. -/
theorem stepKeepsTheInvariant : Obligations.StepKeepsTheInvariant := by
  intro s t hinv hstep
  rw [← stepUnder_standard] at hstep
  rcases stepUnder_cases Config.standard s with
    ⟨-, h⟩ | ⟨-, ⟨i, x, u, pc, ap, fp, -, -, hk, h⟩ | ⟨e, h⟩ | ⟨i, x, e, u, -, -, hk, h⟩⟩ <;>
    rw [h] at hstep <;> rcases hstep with hstep | ⟨_, hstep⟩ <;> cases hstep
  · exact commit_inv pc ap fp ((Grows.of_Kept hk).inv hinv)
  · exact hinv
  · exact (Grows.of_Kept hk).inv hinv

/-- Settles O15: reset is a literal state, and it is not launched. -/
theorem resetIsEmptyAndMeetsTheInvariant : Obligations.ResetIsEmptyAndMeetsTheInvariant :=
  ⟨⟨reset_mem_wf, by simp⟩, fun _ => rfl, rfl, rfl, step_not_launched rfl⟩

/-- Settles O13, row by row of the table of R191. -/
theorem hostCallsAreTheirOperations : Obligations.HostCallsAreTheirOperations := by
  intro c s
  refine ⟨⟨fun p t => hostCall_addSegment_ok, fun e => hostCall_addSegment_error⟩,
    fun a w => ⟨fun t => hostCall_insert_ok, fun e => hostCall_insert_error⟩,
    fun a ws t => ⟨fun p => hostCall_loadData_ok, fun e => hostCall_loadData_error⟩,
    ⟨fun a => rfl, rfl, rfl, rfl, rfl, rfl⟩,
    fun t => ⟨fun h => by rw [hostCall, h], fun e h => by rw [hostCall, h]⟩, ⟨rfl, fun q qs => rfl⟩,
    fun hl => ⟨stepUnder_not_launched c hl, by rw [hostCall, stepUnder_not_launched c hl],
      fun pc0 ap0 => hostCall_launch_some (launch_some.2 ⟨hl, rfl⟩)⟩,
    fun hl => ⟨fun pc0 ap0 => hostCall_launch_none (launch_none.2 hl), fun q hq => ?registers⟩⟩
  case registers =>
    cases q with
    | addSegment =>
      cases h : addSegment c s with
      | error e => rw [hostCall_addSegment_error h]; exact ⟨rfl, rfl, rfl⟩
      | ok r =>
        obtain ⟨-, -, ht⟩ := addSegment_ok (p := r.1) (t := r.2) h
        rw [hostCall_addSegment_ok (p := r.1) (t := r.2) h, ht]
        exact ⟨rfl, rfl, rfl⟩
    | loadData a ws =>
      obtain ⟨hpc, hap, hfp, -⟩ := (loadData_keeps s a ws).1
      rw [hostCall_loadData_state]
      exact ⟨hpc, hap, hfp⟩
    | insert a w =>
      cases h : Machine.insert s a w with
      | error e => rw [hostCall_insert_error h]; exact ⟨rfl, rfl, rfl⟩
      | ok t =>
        obtain ⟨hpc, hap, hfp, -⟩ := (insert_keeps h).1
        rw [hostCall_insert_ok h]
        exact ⟨hpc, hap, hfp⟩
    | launch pc0 ap0 => rw [hostCall_launch_none (launch_none.2 hl)]; exact ⟨rfl, rfl, rfl⟩
    | step => exact absurd rfl hq
    | get _ | readPc | readAp | readFp | readSteps | readNseg => exact ⟨rfl, rfl, rfl⟩

/-! The step around `exec` (R110 to R112). -/

/-- Settles O21: the fetch gives the instruction, and the launch lets it run. -/
theorem stepRunsTheDecodedInstruction : Obligations.StepRunsTheDecodedInstruction := by
  refine ⟨fun s e i hl hcell hlt hdec => ?_, fun s => step_not_launched, stepUnder_standard⟩
  exact step_of_fetch hl (by rw [fetch_filled hcell, decodeCell_field hlt, hdec])

/-- Settles O22: each clause is one way in which the fetch fails. -/
theorem fetchErrorsLeaveTheState : Obligations.FetchErrorsLeaveTheState := by
  intro s hl
  refine ⟨fun h => step_of_fetch_error hl (fetch_empty h), fun p h => step_of_fetch_error hl ?pointer,
    fun e h hwide => step_of_fetch_error hl ?wide, fun e k h hlt hdec => step_of_fetch_error hl ?word⟩
  case pointer => rw [fetch_filled h]; rfl
  case wide => rw [fetch_filled h, decodeCell_wide hwide]
  case word => rw [fetch_filled h, decodeCell_field hlt, hdec]

end Sys2Proof.Proofs.HostSurface
end

section
/-! PROOFS. The operand addresses (42_address_unit.md R102 to R108) and the selectors of the register updates
(44_assert_update.md R136 to R147). -/

open Sys2Proof Sys2Proof.Machine

namespace Sys2Proof.Proofs.Operands

/-! The address stage (R108, R113). -/

theorem operandAddresses_of_dst_error {c : Config} {f : Fields} {s : State} {e : ErrorKind}
    (h : dstAddress c f s = .error e) : operandAddresses c f s = .error e := by
  simp only [operandAddresses, h, bind, Except.bind]

theorem operandAddresses_of_op0_error {c : Config} {f : Fields} {s : State} {d : Ptr} {e : ErrorKind}
    (hd : dstAddress c f s = .ok d) (h : op0Address c f s = .error e) : operandAddresses c f s = .error e := by
  simp only [operandAddresses, hd, h, bind, Except.bind]

theorem operandAddresses_of_op0_ok {c : Config} {f : Fields} {s : State} {d a : Ptr} (hd : dstAddress c f s = .ok d)
    (ha : op0Address c f s = .ok a) :
    operandAddresses c f s = (op1Address c f s a).map fun b => { dst := d, op0 := a, op1 := b } := by
  simp only [operandAddresses, hd, ha, bind, Except.bind]
  cases op1Address c f s a <;> rfl

/-- An error of the address stage ends the instruction and leaves the state (R108, R176). -/
theorem exec_of_addresses_error {i : Instr} {s : State} {e : ErrorKind}
    (h : operandAddresses Config.standard i.fields s = .error e) : exec i s = .fault (.raised e s) := by
  rw [exec_eq_runDecoded, runDecoded_fault, Machine.sequence, show i.decoded.toFields = i.fields from rfl, h]
  rfl

/-- Settles O25: the sources one by one, then the three addresses in their order. -/
theorem operandAddressesByTheirSources : Obligations.OperandAddressesByTheirSources := by
  constructor
  · intro f s a
    refine ⟨?dst, ?op0, fun hsrc b hb => ?pointer, fun hsrc hno => ?noPointer, fun hsrc hoff => ?imm,
      fun hsrc hoff => ?badImm, fun hsrc => ?fp, fun hsrc => ?ap⟩
    case dst => cases hr : f.dstReg <;> simp only [dstAddress, computeAddress, baseOf, hr]
    case op0 => cases hr : f.op0Reg <;> simp only [op0Address, computeAddress, baseOf, hr]
    case pointer => simp only [op1Address, hsrc, hb]
    case noPointer =>
      rcases hcell : Memory.get s.mem a with _ | e | p
      · simp only [op1Address, hsrc, hcell]
      · simp only [op1Address, hsrc, hcell]
      · exact absurd hcell (hno p)
    case imm => simp only [op1Address, hsrc, if_pos hoff, ptrAdd_standard]
    case badImm => simp only [op1Address, hsrc, if_neg hoff]
    case fp => simp only [op1Address, hsrc]
    case ap => simp only [op1Address, hsrc]
  · intro i s
    refine ⟨fun e hd => exec_of_addresses_error (operandAddresses_of_dst_error hd),
      fun d e hd ha => exec_of_addresses_error (operandAddresses_of_op0_error hd ha),
      fun d a e hd ha hb => exec_of_addresses_error ?_, fun d a b hd ha hb => ?_⟩
    · rw [operandAddresses_of_op0_ok hd ha, hb]; rfl
    · rw [operandAddresses_of_op0_ok hd ha, hb]; rfl

/-! res, and the next registers, by their selectors. -/

@[simp] theorem forwardRes_none_left (c : Config) (r : ResLogic) (o : Option Word) :
    forwardRes c r none o = .ok none := rfl

@[simp] theorem forwardRes_none_right (c : Config) (r : ResLogic) (o : Option Word) :
    forwardRes c r o none = .ok none := by
  cases o <;> rfl

@[simp] theorem forwardRes_some (c : Config) (r : ResLogic) (a b : Word) :
    forwardRes c r (some a) (some b) = computeRes c r a b := rfl

/-- Settles O26: each selector is its arm; a sum with ap has no bound at the standard configuration. -/
theorem resAndNextApByTheirSelectors : Obligations.ResAndNextApByTheirSelectors :=
  ⟨fun _ _ => ⟨rfl, rfl, rfl, rfl⟩, fun r o => ⟨forwardRes_none_left _ r o, forwardRes_none_right _ r o⟩,
    fun s _ e _ => ⟨rfl, rfl, rfl, ptrAdd_standard s.ap e.val, ptrAdd_standard s.ap 1, ptrAdd_standard s.ap 2⟩⟩

theorem nextPc_regular {d : Decoded} (h : d.pcUpdate = .regular) (s : State) (l : Locals) :
    nextPc Config.standard d s l = .ok (pastInstr d.toFields s) := by
  simp only [nextPc, h, ptrAdd_standard, pastInstr]

theorem nextPc_jump {d : Decoded} (h : d.pcUpdate = .jump) (s : State) (l : Locals) :
    nextPc Config.standard d s l = match l.res with | some (.ptr p) => .ok p | _ => .error .invalidJumpTarget := by
  rcases hr : l.res with _ | e | p <;> simp only [nextPc, h, hr]

theorem nextPc_jumpRel {d : Decoded} (h : d.pcUpdate = .jumpRel) (s : State) (l : Locals) :
    nextPc Config.standard d s l =
      match l.res with | some (.field e) => .ok ⟨s.pc.seg, s.pc.off + e.val⟩ | _ => .error .invalidJumpRelTarget := by
  rcases hr : l.res with _ | e | p <;> simp only [nextPc, h, hr, ptrAdd_standard]

theorem nextPc_jnz_absent {d : Decoded} {l : Locals} (h : d.pcUpdate = .jnz) (hd : l.dst = none) (s : State) :
    nextPc Config.standard d s l = .error .unconstrainedJnzDst := by
  simp only [nextPc, h, hd]

theorem nextPc_jnz_zero {d : Decoded} {l : Locals} {v : Word} (h : d.pcUpdate = .jnz) (hd : l.dst = some v)
    (hz : isZero v = true) (s : State) : nextPc Config.standard d s l = .ok (pastInstr d.toFields s) := by
  simp only [nextPc, h, hd, hz, if_true, ptrAdd_standard, pastInstr]

theorem nextPc_jnz_taken {d : Decoded} {l : Locals} {v : Word} (h : d.pcUpdate = .jnz) (hd : l.dst = some v)
    (hz : isZero v = false) (s : State) : nextPc Config.standard d s l =
      match l.op1 with | some (.field e) => .ok ⟨s.pc.seg, s.pc.off + e.val⟩ | _ => .error .invalidJnzOp1 := by
  rcases ho : l.op1 with _ | e | p <;>
    simp only [nextPc, h, hd, hz, ho, ptrAdd_standard, Bool.false_eq_true, if_false]

theorem nextFp_dst (s : State) (o : Option Word) :
    nextFp Config.standard .dst s o = match o with | some (.ptr p) => .ok p | _ => .error .invalidFpUpdate := by
  rcases o with _ | e | p <;> rfl

/-- Settles O27: one lemma per selector, and the size by op1_src. -/
theorem nextPcAndFpByTheirSelectors : Obligations.NextPcAndFpByTheirSelectors := by
  constructor
  · intro f s
    constructor <;> intro h <;> simp [Fields.size, pastInstr, h]
  · intro d s l
    exact ⟨fun h => nextPc_regular h s l, fun h => (nextPc_jump h s l).trans rfl,
      fun h => (nextPc_jumpRel h s l).trans rfl, fun h hd => nextPc_jnz_absent h hd s,
      fun v h hd hz => nextPc_jnz_zero h hd hz s, fun v h hd hz => (nextPc_jnz_taken h hd hz s).trans rfl,
      rfl, ptrAdd_standard s.ap 2, (nextFp_dst s l.dst).trans rfl⟩

end Sys2Proof.Proofs.Operands
end

section
/-! PROOFS. A finite MAX_OFFSET, part 1: no pointer above it is made (10_state.md R27; 41_word_alu.md R88; D2). The
bound is an invariant of the state and of the step's locals, kept by every stage. -/

open Sys2Proof Sys2Proof.Machine

namespace Sys2Proof.Proofs.Bound

open Sys2Proof.Proofs.WordAlu

/-- A present Ptr has an offset of at most `n`. -/
def WordWithin (n : Nat) (o : Option Word) : Prop := ∀ p, o = some (.ptr p) → p.off ≤ n

theorem wordWithin_none (n : Nat) : WordWithin n none := fun _ h => nomatch h

theorem wordWithin_field (n : Nat) (e : Felt) : WordWithin n (some (.field e)) := fun _ h => nomatch h

theorem wordWithin_ptr {n : Nat} {p : Ptr} : WordWithin n (some (.ptr p)) ↔ p.off ≤ n :=
  ⟨fun h => h p rfl, fun h q hq => by cases hq; exact h⟩

theorem wordWithin_mono {m n : Nat} {o : Option Word} (hmn : m ≤ n) (h : WordWithin m o) : WordWithin n o :=
  fun p hp => (h p hp).trans hmn

/-- The step's locals hold no Ptr above `n`. -/
structure LocalsWithin (n : Nat) (l : Locals) : Prop where
  dst : WordWithin n l.dst
  op0 : WordWithin n l.op0
  op1 : WordWithin n l.op1
  res : WordWithin n l.res

/-- The operand addresses have offsets of at most `n`. -/
structure AddrsWithin (n : Nat) (x : Addrs) : Prop where
  dst : x.dst.off ≤ n
  op0 : x.op0.off ≤ n
  op1 : x.op1.off ≤ n

/-! Memory and inserts. -/

theorem get_within {n : Nat} {s : State} (hs : s.offsetsWithin n) (a : Ptr) : WordWithin n (Memory.get s.mem a) := by
  obtain ⟨-, -, -, hcells⟩ := hs
  exact fun p hp => (hcells _ (mem_of_get hp)).2 p rfl

theorem insert_within {n : Nat} {s t : State} {a : Ptr} {w : Word} (hs : s.offsetsWithin n) (ha : a.off ≤ n)
    (hw : WordWithin n (some w)) (h : Machine.insert s a w = .ok t) : t.offsetsWithin n := by
  obtain ⟨-, ⟨-, rfl⟩ | ⟨-, rfl⟩⟩ := insert_ok h
  · exact hs
  · obtain ⟨hpc, hap, hfp, hcells⟩ := hs
    refine ⟨hpc, hap, hfp, fun cell hcell => ?_⟩
    rcases mem_put hcell with rfl | hcell
    · exact ⟨ha, fun p hp => hw p (congrArg some hp)⟩
    · exact hcells cell hcell

theorem writeBack_within {n : Nat} {s t : State} {a : Ptr} {v : Option Word} (hs : s.offsetsWithin n) (ha : a.off ≤ n)
    (hv : WordWithin n v) (h : writeBack s a v = .ok t) : t.offsetsWithin n := by
  rcases writeBack_ok h with ⟨-, rfl⟩ | ⟨w, rfl, hi⟩
  · exact hs
  · exact insert_within hs ha hv hi

/-! Sums, differences and addresses. -/

theorem ptrAdd_within {c : Config} {n m : Nat} {p q : Ptr} (hc : c.maxOffset = some n) (h : ptrAdd c p m = .ok q) :
    q.off ≤ n := by
  obtain ⟨hfits, rfl⟩ := ptrAdd_ok h
  simpa only [Config.offsetFits, hc, decide_eq_true_eq] using hfits

theorem ptrSub_within {n m : Nat} {p q : Ptr} (hp : p.off ≤ n) (h : ptrSub p m = .ok q) : q.off ≤ n := by
  obtain ⟨-, rfl⟩ := ptrSub_ok h
  exact (Nat.sub_le _ _).trans hp

theorem offsetBy_within {c : Config} {n : Nat} {b q : Ptr} {k : Int} (hc : c.maxOffset = some n) (hb : b.off ≤ n)
    (h : offsetBy c b k = .ok q) : q.off ≤ n := by
  unfold offsetBy at h
  split at h
  · exact ptrAdd_within hc h
  · exact ptrSub_within hb h

theorem baseOf_within {n : Nat} {s : State} (hs : s.offsetsWithin n) (r : Reg) : (baseOf s r).off ≤ n := by
  obtain ⟨-, hap, hfp, -⟩ := hs
  cases r
  · exact hap
  · exact hfp

theorem op1Address_within {c : Config} {n : Nat} {f : Fields} {s : State} {a q : Ptr} (hc : c.maxOffset = some n)
    (hs : s.offsetsWithin n) (h : op1Address c f s a = .ok q) : q.off ≤ n := by
  unfold op1Address at h
  split at h
  · split at h
    · next b hb => exact offsetBy_within hc (get_within hs a b hb) h
    · cases h
    · cases h
  · split at h
    · exact ptrAdd_within hc h
    · cases h
  · exact offsetBy_within hc (baseOf_within hs .fp) h
  · exact offsetBy_within hc (baseOf_within hs .ap) h

theorem operandAddresses_within {c : Config} {n : Nat} {f : Fields} {s : State} {x : Addrs} (hc : c.maxOffset = some n)
    (hs : s.offsetsWithin n) (h : operandAddresses c f s = .ok x) : AddrsWithin n x := by
  obtain ⟨hd, ha, hb⟩ := operandAddresses_ok h
  exact ⟨offsetBy_within hc (baseOf_within hs _) hd, offsetBy_within hc (baseOf_within hs _) ha,
    op1Address_within hc hs hb⟩

/-! Deduced and computed words. -/

/-- A difference is a Field, or a Ptr at most as far as the one it was taken from. -/
theorem wsub_within {n : Nat} {a b v : Word} (ha : WordWithin n (some a)) (h : wsub a b = .ok v) :
    WordWithin n (some v) := by
  cases v with
  | field e => exact wordWithin_field n e
  | ptr q =>
    obtain ⟨p, y, rfl, -, hq⟩ := wsub_ptr h
    exact wordWithin_ptr.2 (ptrSub_within (wordWithin_ptr.1 ha) hq)

theorem wdiv_within {a b v : Word} (n : Nat) (h : wdiv a b = .ok v) : WordWithin n (some v) := by
  cases v with
  | field e => exact wordWithin_field n e
  | ptr q => exact absurd h wdiv_ne_ptr

/-- What op0 is deduced as: the return address under Call, and no further than dst under AssertEq. -/
theorem deduceOp0_within {c : Config} {n : Nat} {d : Decoded} {pc : Ptr} {dst op1 v r : Option Word}
    (hret : ∀ q, ptrAdd c pc d.size = .ok q → q.off ≤ n) (hdst : WordWithin n dst)
    (h : deduceOp0 c d pc dst op1 = .ok (v, r)) : WordWithin n v ∧ WordWithin n r := by
  unfold deduceOp0 at h
  split at h
  · obtain ⟨q, hq, hv⟩ := except_map_ok.1 h
    cases hv
    exact ⟨wordWithin_ptr.2 (hret q hq), wordWithin_none n⟩
  · split at h
    · obtain ⟨w, hw, hv⟩ := except_map_ok.1 h
      cases hv
      exact ⟨wsub_within hdst hw, hdst⟩
    · split at h
      · cases h
        exact ⟨wordWithin_none n, wordWithin_none n⟩
      · obtain ⟨w, hw, hv⟩ := except_map_ok.1 h
        cases hv
        exact ⟨wdiv_within n hw, hdst⟩
    · cases h
      exact ⟨wordWithin_none n, wordWithin_none n⟩
  · cases h
    exact ⟨wordWithin_none n, wordWithin_none n⟩
  · cases h
    exact ⟨wordWithin_none n, wordWithin_none n⟩

/-- What op1 is deduced as is no further than dst. -/
theorem deduceOp1_within {n : Nat} {d : Decoded} {dst op0 v r : Option Word} (hdst : WordWithin n dst)
    (h : deduceOp1 d dst op0 = .ok (v, r)) : WordWithin n v ∧ WordWithin n r := by
  unfold deduceOp1 at h
  split at h
  · split at h
    · cases h
      exact ⟨hdst, hdst⟩
    · obtain ⟨w, hw, hv⟩ := except_map_ok.1 h
      cases hv
      exact ⟨wsub_within hdst hw, hdst⟩
    · split at h
      · cases h
        exact ⟨wordWithin_none n, wordWithin_none n⟩
      · obtain ⟨w, hw, hv⟩ := except_map_ok.1 h
        cases hv
        exact ⟨wdiv_within n hw, hdst⟩
    · cases h
      exact ⟨wordWithin_none n, wordWithin_none n⟩
  · cases h
    exact ⟨wordWithin_none n, wordWithin_none n⟩
  · cases h
    exact ⟨wordWithin_none n, wordWithin_none n⟩
  · cases h
    exact ⟨wordWithin_none n, wordWithin_none n⟩

/-- res computed forward is op1, a Field, or a sum that fits. -/
theorem forwardRes_within {c : Config} {n : Nat} {r : ResLogic} {op0 op1 v : Option Word} (hc : c.maxOffset = some n)
    (hop1 : WordWithin n op1) (h : forwardRes c r op0 op1 = .ok v) : WordWithin n v := by
  unfold forwardRes at h
  split at h
  · unfold computeRes at h
    split at h
    · cases h
      exact hop1
    · obtain ⟨w, hw, rfl⟩ := except_map_ok.1 h
      intro p hp
      cases hp
      obtain ⟨q, y, -, -, hq⟩ := wadd_ptr hw
      exact ptrAdd_within hc hq
    · obtain ⟨w, hw, rfl⟩ := except_map_ok.1 h
      intro p hp
      cases hp
      exact absurd hw wmul_ne_ptr
    · cases h
      exact wordWithin_none n
  · cases h
    exact wordWithin_none n

theorem deduceDst_within {n : Nat} {o : Opcode} {fp : Ptr} {res : Option Word} (hfp : fp.off ≤ n)
    (hres : WordWithin n res) : WordWithin n (deduceDst o fp res) := by
  cases o
  · exact wordWithin_none n
  · exact wordWithin_ptr.2 hfp
  · exact wordWithin_none n
  · exact hres

/-! The stages of the cascade keep the bound. -/

section Stages

variable {c : Config} {n : Nat} {d : Decoded} {x : Addrs} {l l' : Locals} {s t : State}

theorem readOperands_within (hs : s.offsetsWithin n) : LocalsWithin n (readOperands s x) :=
  ⟨get_within hs _, get_within hs _, get_within hs _, wordWithin_none n⟩

theorem resolveOp0_within (hc : c.maxOffset = some n) (hs : s.offsetsWithin n) (hx : AddrsWithin n x)
    (hl : LocalsWithin n l) (h : resolveOp0 c d x l s = .ok (l', t)) : t.offsetsWithin n ∧ LocalsWithin n l' := by
  rcases resolveOp0_ok h with ⟨_, -, rfl, rfl⟩ | ⟨-, v, r, hd, hw, rfl⟩
  · exact ⟨hs, hl⟩
  · obtain ⟨hv, hr⟩ := deduceOp0_within (fun _ => ptrAdd_within hc) hl.dst hd
    exact ⟨writeBack_within hs hx.op0 hv hw, ⟨hl.dst, hv, hl.op1, hr⟩⟩

theorem resolveOp1_within (hs : s.offsetsWithin n) (hx : AddrsWithin n x) (hl : LocalsWithin n l)
    (h : resolveOp1 d x l s = .ok (l', t)) : t.offsetsWithin n ∧ LocalsWithin n l' := by
  rcases resolveOp1_ok h with ⟨_, -, rfl, rfl⟩ | ⟨-, v, r, hd, hw, rfl⟩
  · exact ⟨hs, hl⟩
  · obtain ⟨hv, hr⟩ := deduceOp1_within hl.dst hd
    refine ⟨writeBack_within hs hx.op1 hv hw, ⟨hl.dst, hl.op0, hv, ?_⟩⟩
    cases hres : l.res with
    | none => exact hr
    | some w =>
      have hkept := hl.res
      rw [hres] at hkept
      exact hkept

theorem resolveRes_within (hc : c.maxOffset = some n) (hl : LocalsWithin n l) (h : resolveRes c d l s = .ok l') :
    LocalsWithin n l' := by
  rcases resolveRes_ok h with ⟨_, -, rfl⟩ | ⟨-, r, hr, rfl⟩
  · exact hl
  · exact ⟨hl.dst, hl.op0, hl.op1, forwardRes_within hc hl.op1 hr⟩

theorem resolveDst_within (hs : s.offsetsWithin n) (hx : AddrsWithin n x) (hl : LocalsWithin n l)
    (h : resolveDst d x l s = .ok (l', t)) : t.offsetsWithin n ∧ LocalsWithin n l' := by
  rcases resolveDst_ok h with ⟨_, -, rfl, rfl⟩ | ⟨-, hw, rfl⟩
  · exact ⟨hs, hl⟩
  · obtain ⟨-, -, hfp, -⟩ := id hs
    have hv := deduceDst_within (o := d.opcode) hfp hl.res
    exact ⟨writeBack_within hs hx.dst hv hw, ⟨hv, hl.op0, hl.op1, hl.res⟩⟩

theorem resolve_within (hc : c.maxOffset = some n) (hs : s.offsetsWithin n) (hx : AddrsWithin n x)
    (h : resolve c d x (readOperands s x) s = .ok (l', t)) : t.offsetsWithin n ∧ LocalsWithin n l' := by
  obtain ⟨l₁, s₁, l₂, s₂, l₃, h₁, h₂, h₃, h₄⟩ := resolve_ok h
  obtain ⟨hs₁, hl₁⟩ := resolveOp0_within hc hs hx (readOperands_within hs) h₁
  obtain ⟨hs₂, hl₂⟩ := resolveOp1_within hs₁ hx hl₁ h₂
  exact resolveDst_within hs₂ hx (resolveRes_within hc hl₂ h₃) h₄

/-- The state a fault of the cascade leaves is one that an earlier stage left. -/
theorem resolve_error_within (hc : c.maxOffset = some n) (hs : s.offsetsWithin n) (hx : AddrsWithin n x)
    {e : ErrorKind} (h : resolve c d x (readOperands s x) s = .error (.raised e t)) : t.offsetsWithin n := by
  rcases resolve_error h with h | ⟨l₁, s₁, h₁, h⟩
  · rcases (resolveOp0_error h).2 with ⟨_, -, hf⟩ | ⟨_, _, -, hw⟩
    · cases hf
      exact hs
    · obtain ⟨_, _, -, -, hf⟩ := writeBack_error hw
      cases hf
      exact hs
  obtain ⟨hs₁, hl₁⟩ := resolveOp0_within hc hs hx (readOperands_within hs) h₁
  rcases h with h | ⟨l₂, s₂, h₂, h⟩
  · rcases (resolveOp1_error h).2 with ⟨_, -, hf⟩ | ⟨_, _, -, hw⟩
    · cases hf
      exact hs₁
    · obtain ⟨_, _, -, -, hf⟩ := writeBack_error hw
      cases hf
      exact hs₁
  obtain ⟨hs₂, -⟩ := resolveOp1_within hs₁ hx hl₁ h₂
  rcases h with h | ⟨l₃, -, h⟩
  · obtain ⟨-, _, -, hf⟩ := resolveRes_error h
    cases hf
    exact hs₂
  · obtain ⟨-, hw⟩ := resolveDst_error h
    obtain ⟨_, _, -, -, hf⟩ := writeBack_error hw
    cases hf
    exact hs₂

/-! The next registers keep the bound. -/

theorem nextPc_within {pc : Ptr} (hc : c.maxOffset = some n) (hl : LocalsWithin n l) (h : nextPc c d s l = .ok pc) :
    pc.off ≤ n := by
  unfold nextPc at h
  split at h
  · exact ptrAdd_within hc h
  · split at h
    · next hp =>
      cases h
      exact hl.res _ hp
    · cases h
    · cases h
  · split at h
    · exact ptrAdd_within hc h
    · cases h
    · cases h
  · split at h
    · cases h
    · split at h
      · exact ptrAdd_within hc h
      · split at h
        · exact ptrAdd_within hc h
        · cases h
        · cases h

theorem nextAp_within {a : ApUpdate} {res : Option Word} {ap : Ptr} (hc : c.maxOffset = some n)
    (hs : s.offsetsWithin n) (h : nextAp c a s res = .ok ap) : ap.off ≤ n := by
  obtain ⟨-, hap, -⟩ := hs
  unfold nextAp at h
  split at h
  · cases h
    exact hap
  · split at h
    · cases h
    · cases h
    · exact ptrAdd_within hc h
  · exact ptrAdd_within hc h
  · exact ptrAdd_within hc h

theorem nextFp_within {u : FpUpdate} {dst : Option Word} {fp : Ptr} (hc : c.maxOffset = some n)
    (hs : s.offsetsWithin n) (hd : WordWithin n dst) (h : nextFp c u s dst = .ok fp) : fp.off ≤ n := by
  obtain ⟨-, -, hfp, -⟩ := hs
  unfold nextFp at h
  split at h
  · cases h
    exact hfp
  · exact ptrAdd_within hc h
  · split at h
    · cases h
      exact hd _ rfl
    · cases h
    · cases h

theorem commit_within {pc ap fp : Ptr} (hs : s.offsetsWithin n) (hpc : pc.off ≤ n) (hap : ap.off ≤ n)
    (hfp : fp.off ≤ n) : (commit s pc ap fp).offsetsWithin n := by
  obtain ⟨-, -, -, hcells⟩ := hs
  exact ⟨hpc, hap, hfp, hcells⟩

theorem sequence_within (hc : c.maxOffset = some n) (hs : s.offsetsWithin n) (h : Machine.sequence c d s = .ok t) :
    t.offsetsWithin n := by
  obtain ⟨x, l, u, pc, ap, fp, hx, hr, -, hpc, hap, hfp, -, rfl⟩ := sequence_ok h
  obtain ⟨hu, hl⟩ := resolve_within hc hs (operandAddresses_within hc hs hx) hr
  exact commit_within hu (nextPc_within hc hl hpc) (nextAp_within hc hs hap) (nextFp_within hc hs hl.dst hfp)

theorem sequence_error_within {e : ErrorKind} (hc : c.maxOffset = some n) (hs : s.offsetsWithin n)
    (h : Machine.sequence c d s = .error (.raised e t)) : t.offsetsWithin n := by
  rcases sequence_error h with ⟨_, -, hf⟩ | ⟨x, hx, hr | ⟨l, u, _, hr, hf, -⟩⟩
  · cases hf
    exact hs
  · exact resolve_error_within hc hs (operandAddresses_within hc hs hx) hr
  · cases hf
    exact (resolve_within hc hs (operandAddresses_within hc hs hx) hr).1

/-- With a finite MAX_OFFSET no step makes a pointer above it, completing or not (R88, D2). -/
theorem stepUnder_within (hc : c.maxOffset = some n) (hs : s.offsetsWithin n)
    (h : stepUnder c s = .next t ∨ ∃ e, stepUnder c s = .fault (.raised e t)) : t.offsetsWithin n := by
  cases hl : s.launched with
  | false =>
    rw [stepUnder_not_launched c hl] at h
    rcases h with h | ⟨e, h⟩ <;> cases h
  | true =>
    rw [stepUnder, whenLaunched_true s hl] at h
    cases hf : fetch s with
    | error e =>
      rw [hf] at h
      rcases h with h | ⟨_, h⟩ <;> cases h
      exact hs
    | ok i =>
      rw [hf] at h
      rcases h with h | ⟨e, h⟩
      · exact sequence_within hc hs (runDecoded_next.1 h)
      · exact sequence_error_within hc hs (runDecoded_fault.1 h)

end Stages

end Sys2Proof.Proofs.Bound
end

section
/-! PROOFS. A finite MAX_OFFSET, part 2: a step under a bound is the step without it, or faults with CapacityExceeded
(10_state.md R27; 41_word_alu.md R88; D2). The two steps are compared stage by stage. -/

open Sys2Proof Sys2Proof.Machine

namespace Sys2Proof.Proofs.Bound

open Sys2Proof.Proofs.WordAlu Sys2Proof.Proofs.Decoder

/-! Comparing fallible computations: equal, or the first ends in one of the errors `bad`. -/

/-- `x` is `y`, or an error in `bad`. -/
def Agrees {ε α : Type} (bad : ε → Prop) (x y : Except ε α) : Prop := x = y ∨ ∃ e, x = .error e ∧ bad e

section Agreement

variable {ε α β : Type} {bad : ε → Prop}

theorem Agrees.of_eq {x y : Except ε α} (h : x = y) : Agrees bad x y := .inl h

theorem Agrees.refl (x : Except ε α) : Agrees bad x x := .of_eq rfl

theorem Agrees.bind {x y : Except ε α} {f g : α → Except ε β} (h : Agrees bad x y)
    (hf : ∀ a, x = .ok a → Agrees bad (f a) (g a)) : Agrees bad (x >>= f) (y >>= g) := by
  rcases h with rfl | ⟨e, rfl, he⟩
  · cases x with
    | error e => exact .refl _
    | ok a => exact hf a rfl
  · exact .inr ⟨e, rfl, he⟩

theorem Agrees.map {x y : Except ε α} (f : α → β) (h : Agrees bad x y) : Agrees bad (x.map f) (y.map f) := by
  rcases h with rfl | ⟨e, rfl, he⟩
  · exact .refl _
  · exact .inr ⟨e, rfl, he⟩

end Agreement

/-- A fault whose error is in `bad`. -/
def FaultIn (bad : ErrorKind → Prop) (f : Fault) : Prop := ∃ e t, f = .raised e t ∧ bad e

theorem Agrees.orAbort {α : Type} {bad : ErrorKind → Prop} {x y : Result α} (s : State) (h : Agrees bad x y) :
    Agrees (FaultIn bad) (Machine.orAbort s x) (Machine.orAbort s y) := by
  rcases h with rfl | ⟨e, rfl, he⟩
  · exact .refl _
  · exact .inr ⟨_, rfl, e, s, rfl, he⟩

/-! When the bound is out of reach: one sum from a pointer of the state stays below it. -/

/-- Every pointer of the state is P + 1 or more below the bound, and the offsets of the instruction are below P. -/
structure OutOfReach (c : Config) (k : Nat) (s : State) (f : Fields) : Prop where
  fits : ∀ m, m ≤ k + P + 1 → c.offsetFits m = true
  state : s.offsetsWithin k
  offDst : f.offDst.toNat ≤ P
  offOp0 : f.offOp0.toNat ≤ P
  offOp1 : f.offOp1.toNat ≤ P

/-- CapacityExceeded, and only where the bound can be reached. -/
def Over (c : Config) (k : Nat) (s : State) (f : Fields) (e : ErrorKind) : Prop :=
  e = .capacityExceeded ∧ ¬ OutOfReach c k s f

section Stages

variable {c c' : Config} {k : Nat} {s : State} {d : Decoded}

theorem ptrAdd_agrees {f : Fields} (hc' : c'.maxOffset = none) {p : Ptr} {m : Nat}
    (h : OutOfReach c k s f → p.off + m ≤ k + P + 1) : Agrees (Over c k s f) (ptrAdd c p m) (ptrAdd c' p m) := by
  by_cases hfits : c.offsetFits (p.off + m) = true
  · exact .inl (by rw [ptrAdd_unbounded hc', ptrAdd, if_pos hfits])
  · exact .inr ⟨_, if_neg hfits, rfl, fun hr => hfits (hr.fits _ (h hr))⟩

theorem offsetBy_agrees {f : Fields} (hc' : c'.maxOffset = none) {b : Ptr} {j : Int}
    (hb : OutOfReach c k s f → b.off ≤ k) (hj : OutOfReach c k s f → j.toNat ≤ P) :
    Agrees (Over c k s f) (offsetBy c b j) (offsetBy c' b j) := by
  unfold offsetBy
  split
  · refine ptrAdd_agrees hc' fun hr => ?_
    have := hb hr
    have := hj hr
    omega
  · exact .refl _

theorem op1Address_agrees (hc' : c'.maxOffset = none) (f : Fields) (a : Ptr) :
    Agrees (Over c k s f) (op1Address c f s a) (op1Address c' f s a) := by
  unfold op1Address
  split
  · split
    · next b hb => exact offsetBy_agrees hc' (fun hr => get_within hr.state a b hb) OutOfReach.offOp1
    · exact .refl _
    · exact .refl _
  · split
    · refine ptrAdd_agrees hc' fun hr => ?_
      obtain ⟨hpc, -⟩ := hr.state
      omega
    · exact .refl _
  · exact offsetBy_agrees hc' (fun hr => baseOf_within hr.state .fp) OutOfReach.offOp1
  · exact offsetBy_agrees hc' (fun hr => baseOf_within hr.state .ap) OutOfReach.offOp1

theorem operandAddresses_agrees (hc' : c'.maxOffset = none) (f : Fields) :
    Agrees (Over c k s f) (operandAddresses c f s) (operandAddresses c' f s) :=
  Agrees.bind (offsetBy_agrees hc' (fun hr => baseOf_within hr.state _) OutOfReach.offDst) fun _ _ =>
    Agrees.bind (offsetBy_agrees hc' (fun hr => baseOf_within hr.state _) OutOfReach.offOp0) fun _ _ =>
      Agrees.bind (op1Address_agrees hc' f _) fun _ _ => .refl _

theorem size_le_two (f : Fields) : f.size ≤ 2 := by
  unfold Fields.size
  split <;> omega

theorem returnAddress_agrees (hc' : c'.maxOffset = none) :
    Agrees (Over c k s d.toFields) (ptrAdd c s.pc d.size) (ptrAdd c' s.pc d.size) := by
  refine ptrAdd_agrees hc' fun hr => ?_
  obtain ⟨hpc, -⟩ := hr.state
  have hsize := size_le_two d.toFields
  have hP : 2 ≤ P := by decide +kernel
  omega

theorem deduceOp0_agrees (hc' : c'.maxOffset = none) (dst op1 : Option Word) :
    Agrees (Over c k s d.toFields) (deduceOp0 c d s.pc dst op1) (deduceOp0 c' d s.pc dst op1) := by
  unfold deduceOp0
  split
  · exact (returnAddress_agrees hc').map _
  · exact .refl _
  · exact .refl _
  · exact .refl _

/-- The sum of a local op0 and a Field: op0 is at most two cells past a pointer of the state. -/
theorem forwardRes_agrees (hc' : c'.maxOffset = none) {r : ResLogic} {op0 op1 : Option Word}
    (hop0 : OutOfReach c k s d.toFields → WordWithin (k + 2) op0) :
    Agrees (Over c k s d.toFields) (forwardRes c r op0 op1) (forwardRes c' r op0 op1) := by
  unfold forwardRes
  split
  · next a b =>
    cases r with
    | add =>
      rcases a with x | p <;> rcases b with y | q
      · exact .refl _
      · exact .refl _
      · refine ((ptrAdd_agrees hc' fun hr => ?_).map Word.ptr).map some
        have hp := wordWithin_ptr.1 (hop0 hr)
        have hy := y.isLt
        omega
      · exact .refl _
    | op1 => exact .refl _
    | mul => exact .refl _
    | unconstrained => exact .refl _
  · exact .refl _

variable {x : Addrs} {l l' : Locals} {t : State}

theorem resolveOp0_agrees (hc' : c'.maxOffset = none) (l : Locals) :
    Agrees (FaultIn (Over c k s d.toFields)) (resolveOp0 c d x l s) (resolveOp0 c' d x l s) := by
  unfold resolveOp0
  split
  · exact .refl _
  · exact ((deduceOp0_agrees hc' _ _).orAbort s).bind fun _ _ => .refl _

theorem resolveRes_agrees (hc' : c'.maxOffset = none) (hop0 : OutOfReach c k s d.toFields → WordWithin (k + 2) l.op0) :
    Agrees (FaultIn (Over c k s d.toFields)) (resolveRes c d l t) (resolveRes c' d l t) := by
  unfold resolveRes
  split
  · exact .refl _
  · exact ((forwardRes_agrees hc' hop0).orAbort t).bind fun _ _ => .refl _

/-- The local op0 after stages 4a and 4b is a word of the state or at most two cells past the pc. -/
theorem resolve_op0_within (hs : s.offsetsWithin k) {l₁ l₂ : Locals} {s₁ s₂ : State}
    (h₁ : resolveOp0 c d x (readOperands s x) s = .ok (l₁, s₁)) (h₂ : resolveOp1 d x l₁ s₁ = .ok (l₂, s₂)) :
    WordWithin (k + 2) l₂.op0 := by
  have hop1 : l₂.op0 = l₁.op0 := by
    rcases resolveOp1_ok h₂ with ⟨_, -, rfl, -⟩ | ⟨-, _, _, -, -, rfl⟩ <;> rfl
  rw [hop1]
  have hread := fun a => wordWithin_mono (Nat.le_add_right k 2) (get_within hs a)
  rcases resolveOp0_ok h₁ with ⟨_, -, rfl, -⟩ | ⟨-, v, r, hd, -, rfl⟩
  · exact hread _
  · refine (deduceOp0_within (fun q hq => ?_) (hread _) hd).1
    obtain ⟨-, rfl⟩ := ptrAdd_ok hq
    obtain ⟨hpc, -⟩ := hs
    exact Nat.add_le_add hpc (size_le_two d.toFields)

theorem resolve_agrees (hc' : c'.maxOffset = none) :
    Agrees (FaultIn (Over c k s d.toFields)) (resolve c d x (readOperands s x) s)
      (resolve c' d x (readOperands s x) s) :=
  Agrees.bind (resolveOp0_agrees hc' _) fun _ h₁ => Agrees.bind (.refl _) fun _ h₂ =>
    Agrees.bind (resolveRes_agrees hc' fun hr => resolve_op0_within hr.state h₁ h₂) fun _ _ => .refl _

theorem assertOpcode_agrees (hc' : c'.maxOffset = none) (l : Locals) :
    Agrees (Over c k s d.toFields) (assertOpcode c d s l) (assertOpcode c' d s l) := by
  unfold assertOpcode
  split
  · exact .refl _
  · exact (returnAddress_agrees hc').bind fun _ _ => .refl _
  · exact .refl _
  · exact .refl _

theorem fieldSum_agrees {f : Fields} (hc' : c'.maxOffset = none) {p : Ptr} (hp : OutOfReach c k s f → p.off ≤ k)
    (e : Felt) : Agrees (Over c k s f) (ptrAdd c p e.val) (ptrAdd c' p e.val) := by
  refine ptrAdd_agrees hc' fun hr => ?_
  have := hp hr
  have := e.isLt
  omega

theorem nextPc_agrees (hc' : c'.maxOffset = none) (l : Locals) :
    Agrees (Over c k s d.toFields) (nextPc c d s l) (nextPc c' d s l) := by
  have hpc : OutOfReach c k s d.toFields → s.pc.off ≤ k := fun hr => by
    obtain ⟨hpc, -⟩ := hr.state
    exact hpc
  unfold nextPc
  split
  · exact returnAddress_agrees hc'
  · exact .refl _
  · split
    · exact fieldSum_agrees hc' hpc _
    · exact .refl _
    · exact .refl _
  · split
    · exact .refl _
    · split
      · exact returnAddress_agrees hc'
      · split
        · exact fieldSum_agrees hc' hpc _
        · exact .refl _
        · exact .refl _

theorem apSum_agrees {f : Fields} (hc' : c'.maxOffset = none) {m : Nat} (hm : m ≤ 2) :
    Agrees (Over c k s f) (ptrAdd c s.ap m) (ptrAdd c' s.ap m) := by
  refine ptrAdd_agrees hc' fun hr => ?_
  obtain ⟨-, hap, -⟩ := hr.state
  have hP : 2 ≤ P := by decide +kernel
  omega

theorem nextAp_agrees {f : Fields} (hc' : c'.maxOffset = none) (a : ApUpdate) (res : Option Word) :
    Agrees (Over c k s f) (nextAp c a s res) (nextAp c' a s res) := by
  unfold nextAp
  split
  · exact .refl _
  · split
    · exact .refl _
    · exact .refl _
    · exact fieldSum_agrees hc' (fun hr => baseOf_within hr.state .ap) _
  · exact apSum_agrees hc' (by decide)
  · exact apSum_agrees hc' le_rfl

theorem nextFp_agrees {f : Fields} (hc' : c'.maxOffset = none) (u : FpUpdate) (dst : Option Word) :
    Agrees (Over c k s f) (nextFp c u s dst) (nextFp c' u s dst) := by
  unfold nextFp
  split
  · exact .refl _
  · exact apSum_agrees hc' le_rfl
  · exact .refl _

theorem strictCheck_congr (h : c'.strictOperands = c.strictOperands) (l : Locals) :
    strictCheck c l = strictCheck c' l := by
  simp only [strictCheck, h]

/-- Said once: the bound changes a step's stages at most into a CapacityExceeded fault. -/
theorem sequence_agrees (hc' : c'.maxOffset = none) (hstrict : c'.strictOperands = c.strictOperands) :
    Agrees (FaultIn (Over c k s d.toFields)) (Machine.sequence c d s) (Machine.sequence c' d s) :=
  Agrees.bind ((operandAddresses_agrees hc' _).orAbort s) fun _ _ => Agrees.bind (resolve_agrees hc') fun r _ =>
    Agrees.bind ((assertOpcode_agrees hc' _).orAbort r.2) fun _ _ =>
      Agrees.bind ((nextPc_agrees hc' _).orAbort r.2) fun _ _ =>
        Agrees.bind ((nextAp_agrees hc' _ _).orAbort r.2) fun _ _ =>
          Agrees.bind ((nextFp_agrees hc' _ _).orAbort r.2) fun _ _ =>
            Agrees.bind ((Agrees.of_eq (strictCheck_congr hstrict _)).orAbort r.2) fun _ _ => .refl _

theorem runDecoded_agrees (k : Nat) (d : Decoded) (s : State) (hc' : c'.maxOffset = none)
    (hstrict : c'.strictOperands = c.strictOperands) :
    runDecoded c d s = runDecoded c' d s ∨
      ∃ t, runDecoded c d s = .fault (.raised .capacityExceeded t) ∧ ¬ OutOfReach c k s d.toFields := by
  rcases sequence_agrees (k := k) (d := d) (s := s) hc' hstrict with h | ⟨_, h, e, t, rfl, rfl, hr⟩
  · exact .inl (congrArg toOutcome h)
  · exact .inr ⟨t, runDecoded_fault.2 h, hr⟩

end Stages

/-- The step with and without the bound, from the instruction fetched. -/
theorem stepUnder_agrees (c : Config) (k : Nat) (s : State) :
    stepUnder c s = stepUnder { c with maxOffset := none } s ∨
      ∃ i t, fetch s = .ok i ∧ stepUnder c s = .fault (.raised .capacityExceeded t) ∧ ¬ OutOfReach c k s i.fields := by
  cases hl : s.launched with
  | false => exact .inl (by rw [stepUnder_not_launched _ hl, stepUnder_not_launched _ hl])
  | true =>
    rw [stepUnder, stepUnder, whenLaunched_true s hl, whenLaunched_true s hl]
    cases fetch s with
    | error e => exact .inl rfl
    | ok i =>
      rcases runDecoded_agrees (c := c) (c' := { c with maxOffset := none }) k i.decoded s rfl rfl with h | ⟨t, h, hr⟩
      · exact .inl h
      · exact .inr ⟨i, t, rfl, h, hr⟩

/-- A fault of a step leaves the registers (R176). -/
theorem stepUnder_fault_sameRegs {c : Config} {s t : State} {e : ErrorKind} (h : stepUnder c s = .fault (.raised e t)) :
    sameRegs s t := by
  rcases stepUnder_cases c s with
    ⟨-, h'⟩ | ⟨-, ⟨i, x, u, pc, ap, fp, -, -, hk, h'⟩ | ⟨e', h'⟩ | ⟨i, x, e', u, -, -, hk, h'⟩⟩ <;>
    rw [h'] at h <;> cases h
  · exact sameRegs_refl s
  · exact hk.1

/-- What is fetched is well-formed (R59). -/
theorem fetch_wf {s : State} {i : Instr} (h : fetch s = .ok i) : i.wf = true := by
  cases hcell : Memory.get s.mem s.pc with
  | none =>
    rw [fetch_empty hcell] at h
    cases h
  | some v =>
    rw [fetch_filled hcell] at h
    cases v with
    | ptr p => cases h
    | field e =>
      rcases Nat.lt_or_ge e.val (2 ^ 64) with hlt | hge
      · rw [decodeCell_field hlt] at h
        exact (decode_eq_ok_iff.1 h).1
      · rw [decodeCell_wide hge] at h
        cases h

theorem offset_toNat_le_P {j : Int} (h : offsetInRange j = true) : j.toNat ≤ P := by
  obtain ⟨-, hhi⟩ := offsetInRange_iff.1 h
  have hP : 32767 ≤ P := by decide +kernel
  omega

/-- Settles O60: the bound is an invariant of every stage, and the only thing it changes is where a sum does not fit. -/
theorem finiteMaxOffsetIsNeverExceeded : Obligations.FiniteMaxOffsetIsNeverExceeded := by
  refine ⟨fun c n s t hc hs h => stepUnder_within hc hs h, fun c s => ?faults, fun c n k s hc hs hk => ?far,
    fun n => ?reset⟩
  case faults =>
    rcases stepUnder_agrees c 0 s with h | ⟨i, t, -, h, -⟩
    · exact .inl h
    · exact .inr ⟨t, h, stepUnder_fault_sameRegs h⟩
  case far =>
    rcases stepUnder_agrees c k s with h | ⟨i, t, hf, -, hr⟩
    · exact h
    · obtain ⟨hdst, hop0, hop1, -⟩ := wf_iff.1 (fetch_wf hf)
      refine absurd ⟨fun m hm => ?_, hs, offset_toNat_le_P hdst, offset_toNat_le_P hop0, offset_toNat_le_P hop1⟩ hr
      simpa only [Config.offsetFits, hc, decide_eq_true_eq] using hm.trans hk
  case reset => exact ⟨Nat.zero_le n, Nat.zero_le n, Nat.zero_le n, by simp⟩

end Sys2Proof.Proofs.Bound
end

section
/-! PROOFS. The cascade and the assertion, opcode by opcode, at the standard configuration (43_step_resolution.md R115
to R127; 44_assert_update.md R130 to R132): with its addresses formed, an instruction reaches the register updates or it
faults in one of the ways listed here, and each way fixes the state that is left. -/

open Sys2Proof Sys2Proof.Machine

namespace Sys2Proof.Proofs.Cascade

open Sys2Proof.Proofs.Operands Sys2Proof.Proofs.HostSurface

/-! The stages of the cascade, each from what it finds. -/

section Stages

variable {c : Config} {d : Decoded} {x : Addrs} {l : Locals} {s : State}

theorem resolveOp0_known {a : Word} (h : l.op0 = some a) : resolveOp0 c d x l s = .ok (l, s) := by
  simp only [resolveOp0, h]

theorem resolveOp0_deduced {v r : Option Word} (h : l.op0 = none) (hd : deduceOp0 c d s.pc l.dst l.op1 = .ok (v, r)) :
    resolveOp0 c d x l s = (writeBack s x.op0 v).map fun t => ({ l with op0 := v, res := r }, t) := by
  simp only [resolveOp0, h, hd, orAbort_ok, bind, Except.bind]
  cases writeBack s x.op0 v <;> rfl

theorem resolveOp0_deduce_error {e : ErrorKind} (h : l.op0 = none) (hd : deduceOp0 c d s.pc l.dst l.op1 = .error e) :
    resolveOp0 c d x l s = .error (.raised e s) := by
  simp only [resolveOp0, h, hd, orAbort_error, bind, Except.bind]

theorem resolveOp1_known {b : Word} (h : l.op1 = some b) : resolveOp1 d x l s = .ok (l, s) := by
  simp only [resolveOp1, h]

theorem resolveOp1_deduced {v r : Option Word} (h : l.op1 = none) (hd : deduceOp1 d l.dst l.op0 = .ok (v, r)) :
    resolveOp1 d x l s = (writeBack s x.op1 v).map fun t => ({ l with op1 := v, res := l.res.or r }, t) := by
  simp only [resolveOp1, h, hd, orAbort_ok, bind, Except.bind]
  cases writeBack s x.op1 v <;> rfl

theorem resolveOp1_deduce_error {e : ErrorKind} (h : l.op1 = none) (hd : deduceOp1 d l.dst l.op0 = .error e) :
    resolveOp1 d x l s = .error (.raised e s) := by
  simp only [resolveOp1, h, hd, orAbort_error, bind, Except.bind]

/-- Where nothing is deduced for an absent op0, nothing is written and the locals stay. -/
theorem resolveOp0_nothing (hres : l.res = none)
    (hd : l.op0 = none → deduceOp0 c d s.pc l.dst l.op1 = .ok (none, none)) :
    resolveOp0 c d x l s = .ok (l, s) := by
  cases h : l.op0 with
  | some a => exact resolveOp0_known h
  | none =>
    rw [resolveOp0_deduced h (hd h)]
    obtain ⟨dst, op0, op1, res⟩ := l
    cases h
    cases hres
    rfl

/-- Where nothing is deduced for an absent op1, nothing is written and the locals stay. -/
theorem resolveOp1_nothing (hd : l.op1 = none → deduceOp1 d l.dst l.op0 = .ok (none, none)) :
    resolveOp1 d x l s = .ok (l, s) := by
  cases h : l.op1 with
  | some b => exact resolveOp1_known h
  | none =>
    rw [resolveOp1_deduced h (hd h), Option.or_none]
    obtain ⟨dst, op0, op1, res⟩ := l
    cases h
    rfl

theorem resolveRes_known {v : Word} (h : l.res = some v) : resolveRes c d l s = .ok l := by
  simp only [resolveRes, h]

theorem resolveRes_forward {r : Option Word} (h : l.res = none) (hf : forwardRes c d.resLogic l.op0 l.op1 = .ok r) :
    resolveRes c d l s = .ok { l with res := r } := by
  simp only [resolveRes, h, hf, orAbort_ok, bind, Except.bind]

theorem resolveRes_error {e : ErrorKind} (h : l.res = none) (hf : forwardRes c d.resLogic l.op0 l.op1 = .error e) :
    resolveRes c d l s = .error (.raised e s) := by
  simp only [resolveRes, h, hf, orAbort_error, bind, Except.bind]

theorem resolveDst_known {v : Word} (h : l.dst = some v) : resolveDst d x l s = .ok (l, s) := by
  simp only [resolveDst, h]

theorem resolveDst_deduced (h : l.dst = none) : resolveDst d x l s =
    (writeBack s x.dst (deduceDst d.opcode s.fp l.res)).map fun t =>
      ({ l with dst := deduceDst d.opcode s.fp l.res }, t) := by
  simp only [resolveDst, h, bind, Except.bind]
  cases writeBack s x.dst (deduceDst d.opcode s.fp l.res) <;> rfl

/-! The cascade from its stages. -/

variable {l₁ l₂ l₃ : Locals} {s₁ s₂ : State} {e : Fault}

theorem resolve_of_op0_error (h₁ : resolveOp0 c d x l s = .error e) : resolve c d x l s = .error e := by
  simp only [resolve, h₁, bind, Except.bind]

theorem resolve_of_op1_error (h₁ : resolveOp0 c d x l s = .ok (l₁, s₁)) (h₂ : resolveOp1 d x l₁ s₁ = .error e) :
    resolve c d x l s = .error e := by
  simp only [resolve, h₁, h₂, bind, Except.bind]

theorem resolve_of_res_error (h₁ : resolveOp0 c d x l s = .ok (l₁, s₁)) (h₂ : resolveOp1 d x l₁ s₁ = .ok (l₂, s₂))
    (h₃ : resolveRes c d l₂ s₂ = .error e) : resolve c d x l s = .error e := by
  simp only [resolve, h₁, h₂, h₃, bind, Except.bind]

theorem resolve_of_res_ok (h₁ : resolveOp0 c d x l s = .ok (l₁, s₁)) (h₂ : resolveOp1 d x l₁ s₁ = .ok (l₂, s₂))
    (h₃ : resolveRes c d l₂ s₂ = .ok l₃) : resolve c d x l s = resolveDst d x l₃ s₂ := by
  simp only [resolve, h₁, h₂, h₃, bind, Except.bind]

end Stages

/-! The sequence from its first stages. -/

/-- Stages 6 and 7 of a step after its cascade gave the locals `l` and the state `u`: the three next values and the
commit (R136 to R148). -/
def registerUpdates (d : Decoded) (s u : State) (l : Locals) : Except Fault State := do
  let pc ← orAbort u (nextPc Config.standard d s l)
  let ap ← orAbort u (nextAp Config.standard d.apUpdate s l.res)
  let fp ← orAbort u (nextFp Config.standard d.fpUpdate s l.dst)
  .ok (commit u pc ap fp)

/-- No register update looks at the local op0. -/
theorem registerUpdates_op0 (d : Decoded) (s u : State) (dst op0 op0' op1 res : Option Word) :
    registerUpdates d s u { dst := dst, op0 := op0, op1 := op1, res := res } =
      registerUpdates d s u { dst := dst, op0 := op0', op1 := op1, res := res } := rfl

section Sequence

variable {d : Decoded} {s u : State} {x : Addrs} {l : Locals}

theorem sequence_of_assert_ok (hx : operandAddresses Config.standard d.toFields s = .ok x)
    (hr : resolve Config.standard d x (readOperands s x) s = .ok (l, u))
    (ha : assertOpcode Config.standard d s l = .ok ()) :
    Machine.sequence Config.standard d s = registerUpdates d s u l := by
  simp only [Machine.sequence, registerUpdates, hx, hr, ha, strictCheck_standard, orAbort_ok, bind, Except.bind]

theorem sequence_of_assert_error {e : ErrorKind} (hx : operandAddresses Config.standard d.toFields s = .ok x)
    (hr : resolve Config.standard d x (readOperands s x) s = .ok (l, u))
    (ha : assertOpcode Config.standard d s l = .error e) :
    Machine.sequence Config.standard d s = .error (.raised e u) := by
  simp only [Machine.sequence, hx, hr, ha, orAbort_ok, orAbort_error, bind, Except.bind]

theorem sequence_of_resolve_error {f : Fault} (hx : operandAddresses Config.standard d.toFields s = .ok x)
    (hr : resolve Config.standard d x (readOperands s x) s = .error f) :
    Machine.sequence Config.standard d s = .error f := by
  simp only [Machine.sequence, hx, hr, orAbort_ok, bind, Except.bind]

end Sequence

/-! Inserts and `Memory.fill`. -/

theorem fill_filled {m : Memory} {a : Ptr} {v : Word} (h : Memory.get m a = some v) (w : Word) :
    Memory.fill m a w = m := by
  simp only [Memory.fill, h]

theorem fill_empty {m : Memory} {a : Ptr} (h : Memory.get m a = none) (w : Word) :
    Memory.fill m a w = Memory.put m a w := by
  simp only [Memory.fill, h]

theorem get_fill_other (m : Memory) {a b : Ptr} (w : Word) (h : b ≠ a) :
    Memory.get (Memory.fill m a w) b = Memory.get m b := by
  cases hget : Memory.get m a with
  | some v => rw [fill_filled hget]
  | none => rw [fill_empty hget, get_put_other m w h]

theorem get_fill_self {m : Memory} {a : Ptr} {w : Word} (h : ∀ v, Memory.get m a = some v → v = w) :
    Memory.get (Memory.fill m a w) a = some w := by
  cases hget : Memory.get m a with
  | some v => rw [fill_filled hget, hget, h v hget]
  | none => rw [fill_empty hget, get_put_self]

theorem grows_fill (m : Memory) (a : Ptr) (w : Word) : Memory.grows m (Memory.fill m a w) := by
  cases hget : Memory.get m a with
  | some v => rw [fill_filled hget]; exact grows_refl m
  | none => rw [fill_empty hget]; exact grows_put hget w

/-- An `insert` into a cell that accepts the word fills it (R34). -/
theorem insert_of_cellAccepts {s : State} {a : Ptr} {w : Word} (hseg : a.seg < s.nseg)
    (h : ∀ v, Memory.get s.mem a = some v → v = w) :
    Machine.insert s a w = .ok { s with mem := Memory.fill s.mem a w } := by
  cases hget : Memory.get s.mem a with
  | some v =>
    rw [h v hget] at hget
    rw [fill_filled hget, insert_equal hseg hget]
  | none => rw [fill_empty hget, insert_empty w hseg hget]

theorem writeBack_of_insert_ok {s t : State} {a : Ptr} {w : Word} (h : Machine.insert s a w = .ok t) :
    writeBack s a (some w) = .ok t := by
  simp only [writeBack, h, orAbort_ok]

theorem writeBack_of_insert_error {s : State} {a : Ptr} {w : Word} {e : ErrorKind}
    (h : Machine.insert s a w = .error e) : writeBack s a (some w) = .error (.raised e s) := by
  simp only [writeBack, h, orAbort_error]

/-! NoOp and Ret deduce nothing (R115 to R120). -/

section Plain

variable {d : Decoded} {s : State} {x : Addrs}

theorem deduceOp0_plain {c : Config} {pc : Ptr} {dst op1 : Option Word} (hop : d.opcode = .noOp ∨ d.opcode = .ret) :
    deduceOp0 c d pc dst op1 = .ok (none, none) := by
  rcases hop with h | h <;> simp only [deduceOp0, h]

theorem deduceOp1_of_ne_assertEq {dst op0 : Option Word} (hop : d.opcode ≠ .assertEq) :
    deduceOp1 d dst op0 = .ok (none, none) := by
  unfold deduceOp1
  split
  · next h => exact absurd h hop
  · rfl
  · rfl
  · rfl

theorem resolveDst_plain {l : Locals} (hop : d.opcode = .noOp ∨ d.opcode = .ret) : resolveDst d x l s = .ok (l, s) := by
  cases h : l.dst with
  | some v => exact resolveDst_known h
  | none =>
    have hnone : deduceDst d.opcode s.fp l.res = none := by rcases hop with hop | hop <;> rw [hop] <;> rfl
    rw [resolveDst_deduced h, hnone]
    obtain ⟨dst, op0, op1, res⟩ := l
    cases h
    rfl

theorem opcode_ne_assertEq (hop : d.opcode = .noOp ∨ d.opcode = .ret) : d.opcode ≠ .assertEq := by
  rcases hop with h | h <;> rw [h] <;> decide

theorem resolveOp0_plain {c : Config} (hop : d.opcode = .noOp ∨ d.opcode = .ret) :
    resolveOp0 c d x (readOperands s x) s = .ok (readOperands s x, s) :=
  resolveOp0_nothing rfl fun _ => deduceOp0_plain hop

theorem resolveOp1_of_ne_assertEq {l : Locals} (hop : d.opcode ≠ .assertEq) : resolveOp1 d x l s = .ok (l, s) :=
  resolveOp1_nothing fun _ => deduceOp1_of_ne_assertEq hop

/-- The cascade of a NoOp or a Ret only computes res. -/
theorem resolve_plain {c : Config} {r : Option Word} (hop : d.opcode = .noOp ∨ d.opcode = .ret)
    (hr : forwardRes c d.resLogic (Memory.get s.mem x.op0) (Memory.get s.mem x.op1) = .ok r) :
    resolve c d x (readOperands s x) s = .ok ({ readOperands s x with res := r }, s) := by
  rw [resolve_of_res_ok (resolveOp0_plain hop) (resolveOp1_of_ne_assertEq (opcode_ne_assertEq hop))
    (resolveRes_forward rfl hr), resolveDst_plain hop]

theorem resolve_plain_error {c : Config} {e : ErrorKind} (hop : d.opcode = .noOp ∨ d.opcode = .ret)
    (hr : forwardRes c d.resLogic (Memory.get s.mem x.op0) (Memory.get s.mem x.op1) = .error e) :
    resolve c d x (readOperands s x) s = .error (.raised e s) :=
  resolve_of_res_error (resolveOp0_plain hop) (resolveOp1_of_ne_assertEq (opcode_ne_assertEq hop))
    (resolveRes_error rfl hr)

theorem assertOpcode_plain {c : Config} {l : Locals} (hop : d.opcode = .noOp ∨ d.opcode = .ret) :
    assertOpcode c d s l = .ok () := by
  rcases hop with h | h <;> simp only [assertOpcode, h]

end Plain

/-! Call deduces op0 and dst (R115, R120, R132). -/

/-- The ways a Call whose addresses exist faults before the register updates, with the memory it leaves (R116, R119,
R121, R132, R198). -/
inductive CallFaults (f : Fields) (s : State) (x : Addrs) : ErrorKind → Memory → Prop where
  /-- op0 is Empty in an unallocated segment. -/
  | op0Unallocated : Memory.get s.mem x.op0 = none → s.nseg ≤ x.op0.seg → CallFaults f s x .segmentOutOfBounds s.mem
  /-- res is an error. -/
  | res (w : Word) (e : ErrorKind) : callOp0 f s x w →
      forwardRes Config.standard f.resLogic (some w) (Memory.get s.mem x.op1) = .error e →
      CallFaults f s x e (Memory.fill s.mem x.op0 w)
  /-- dst is Empty in an unallocated segment. -/
  | dstUnallocated (w : Word) (r : Option Word) : callOp0 f s x w →
      forwardRes Config.standard f.resLogic (some w) (Memory.get s.mem x.op1) = .ok r →
      Memory.get s.mem x.dst = none → s.nseg ≤ x.dst.seg →
      CallFaults f s x .segmentOutOfBounds (Memory.fill s.mem x.op0 w)
  /-- dst and op0 are one Empty cell, which is to take two words. -/
  | oneCell (r : Option Word) : x.dst = x.op0 → Memory.get s.mem x.op0 = none → x.op0.seg < s.nseg →
      pastInstr f s ≠ s.fp →
      forwardRes Config.standard f.resLogic (some (.ptr (pastInstr f s))) (Memory.get s.mem x.op1) = .ok r →
      CallFaults f s x .writeOnce (Memory.put s.mem x.op0 (.ptr (pastInstr f s)))
  /-- The op0 cell holds another word than the return address. -/
  | badOp0 (v : Word) (r : Option Word) : Memory.get s.mem x.op0 = some v → v ≠ .ptr (pastInstr f s) →
      (Memory.get s.mem x.dst = none → x.dst.seg < s.nseg) →
      forwardRes Config.standard f.resLogic (some v) (Memory.get s.mem x.op1) = .ok r →
      CallFaults f s x .invalidOp0ForCall (Memory.fill s.mem x.dst (.ptr s.fp))
  /-- The dst cell holds another word than fp. -/
  | badDst (v : Word) (r : Option Word) : cellAccepts s x.op0 (.ptr (pastInstr f s)) → Memory.get s.mem x.dst = some v →
      v ≠ .ptr s.fp →
      forwardRes Config.standard f.resLogic (some (.ptr (pastInstr f s))) (Memory.get s.mem x.op1) = .ok r →
      CallFaults f s x .invalidDstForCall (Memory.fill s.mem x.op0 (.ptr (pastInstr f s)))

section Call

variable {d : Decoded} {s : State} {x : Addrs}

theorem callOp0_of_cellAccepts {f : Fields} (h : cellAccepts s x.op0 (.ptr (pastInstr f s))) :
    callOp0 f s x (.ptr (pastInstr f s)) :=
  h.imp_right fun ⟨hn, hseg⟩ => ⟨hn, hseg, rfl⟩

/-- The state of a Call after stage 4a. -/
theorem resolveOp0_call {w : Word} (hop : d.opcode = .call) (hw : callOp0 d.toFields s x w) :
    resolveOp0 Config.standard d x (readOperands s x) s =
      .ok ({ readOperands s x with op0 := some w }, { s with mem := Memory.fill s.mem x.op0 w }) := by
  rcases hw with hget | ⟨hget, hseg, rfl⟩
  · rw [resolveOp0_known hget, fill_filled hget, ← hget]
    rfl
  · have hded : deduceOp0 Config.standard d s.pc (readOperands s x).dst (readOperands s x).op1 =
        .ok (some (.ptr (pastInstr d.toFields s)), none) := by
      simp only [deduceOp0, hop, ptrAdd_standard, pastInstr, Except.map]
    rw [resolveOp0_deduced hget hded, writeBack_of_insert_ok (insert_empty _ hseg hget), fill_empty hget]
    rfl

theorem resolveOp0_call_unallocated (hop : d.opcode = .call) (hget : Memory.get s.mem x.op0 = none)
    (hseg : s.nseg ≤ x.op0.seg) :
    resolveOp0 Config.standard d x (readOperands s x) s = .error (.raised .segmentOutOfBounds s) := by
  have hded : deduceOp0 Config.standard d s.pc (readOperands s x).dst (readOperands s x).op1 =
      .ok (some (.ptr (pastInstr d.toFields s)), none) := by
    simp only [deduceOp0, hop, ptrAdd_standard, pastInstr, Except.map]
  rw [resolveOp0_deduced hget hded, writeBack_of_insert_error (insert_unallocated _ hseg)]
  rfl

theorem call_ne_assertEq (hop : d.opcode = .call) : d.opcode ≠ .assertEq := by
  rw [hop]
  decide

/-- The cascade of a Call up to dst. -/
theorem resolve_call {w : Word} {r : Option Word} (hop : d.opcode = .call) (hw : callOp0 d.toFields s x w)
    (hr : forwardRes Config.standard d.resLogic (some w) (Memory.get s.mem x.op1) = .ok r) :
    resolve Config.standard d x (readOperands s x) s =
      resolveDst d x { dst := Memory.get s.mem x.dst, op0 := some w, op1 := Memory.get s.mem x.op1, res := r }
        { s with mem := Memory.fill s.mem x.op0 w } :=
  resolve_of_res_ok (resolveOp0_call hop hw) (resolveOp1_of_ne_assertEq (call_ne_assertEq hop))
    (resolveRes_forward rfl hr)

theorem resolve_call_res_error {w : Word} {e : ErrorKind} (hop : d.opcode = .call) (hw : callOp0 d.toFields s x w)
    (hr : forwardRes Config.standard d.resLogic (some w) (Memory.get s.mem x.op1) = .error e) :
    resolve Config.standard d x (readOperands s x) s =
      .error (.raised e { s with mem := Memory.fill s.mem x.op0 w }) :=
  resolve_of_res_error (resolveOp0_call hop hw) (resolveOp1_of_ne_assertEq (call_ne_assertEq hop))
    (resolveRes_error rfl hr)

theorem resolveDst_call {l : Locals} (hop : d.opcode = .call) (h : l.dst = none) : resolveDst d x l s =
    (writeBack s x.dst (some (.ptr s.fp))).map fun t => ({ l with dst := some (.ptr s.fp) }, t) := by
  rw [resolveDst_deduced h, hop]
  rfl

/-- The assertion of a Call on its locals op0 and dst (R132). -/
theorem assertOpcode_call {l : Locals} (hop : d.opcode = .call) : assertOpcode Config.standard d s l =
    if l.op0 ≠ some (.ptr (pastInstr d.toFields s)) then .error .invalidOp0ForCall
    else if l.dst ≠ some (.ptr s.fp) then .error .invalidDstForCall else .ok () := by
  simp only [assertOpcode, hop, assertCall, ptrAdd_standard, bind, Except.bind, pastInstr]
  rfl

/-- Where dst is Empty in an allocated segment and may take fp, a Call fills it. -/
theorem resolveDst_call_fill {l : Locals} (hop : d.opcode = .call) (h : l.dst = none) (hseg : x.dst.seg < s.nseg)
    (hcell : ∀ v, Memory.get s.mem x.dst = some v → v = .ptr s.fp) : resolveDst d x l s =
      .ok ({ l with dst := some (.ptr s.fp) }, { s with mem := Memory.fill s.mem x.dst (.ptr s.fp) }) := by
  rw [resolveDst_call hop h, writeBack_of_insert_ok (insert_of_cellAccepts hseg hcell)]
  rfl

theorem resolveDst_call_error {l : Locals} {e : ErrorKind} (hop : d.opcode = .call) (h : l.dst = none)
    (hins : Machine.insert s x.dst (.ptr s.fp) = .error e) : resolveDst d x l s = .error (.raised e s) := by
  rw [resolveDst_call hop h, writeBack_of_insert_error hins]
  rfl

/-- After the return address is written, the dst cell of a Call that is ready is Empty or holds fp: one Empty cell is
not asked to take two words (R198). -/
theorem callReady_dst {f : Fields} (h : CallReady f s x) (v : Word)
    (hv : Memory.get (Memory.fill s.mem x.op0 (.ptr (pastInstr f s))) x.dst = some v) : v = .ptr s.fp := by
  obtain ⟨-, -, hdst, hshared⟩ := h
  rcases hdst with hget | ⟨hget, -⟩
  · exact Option.some.inj (hv.symm.trans (grows_fill _ _ _ _ _ hget))
  · by_cases heq : x.dst = x.op0
    · have hempty : Memory.get s.mem x.op0 = none := heq ▸ hget
      rw [fill_empty hempty, heq, get_put_self] at hv
      cases hv
      exact congrArg Word.ptr (hshared heq hempty)
    · rw [get_fill_other _ _ heq, hget] at hv
      cases hv

/-- A Call that is ready passes its cascade with the frame written (R132). -/
theorem resolve_callReady {r : Option Word} (hop : d.opcode = .call) (h : CallReady d.toFields s x)
    (hr : forwardRes Config.standard d.resLogic (some (.ptr (pastInstr d.toFields s))) (Memory.get s.mem x.op1)
      = .ok r) :
    resolve Config.standard d x (readOperands s x) s =
      .ok ({ dst := some (.ptr s.fp), op0 := some (.ptr (pastInstr d.toFields s)), op1 := Memory.get s.mem x.op1,
             res := r }, { s with mem := callMemory d.toFields s x }) := by
  have hcell := callReady_dst h
  obtain ⟨-, hop0, hdst, -⟩ := h
  rw [resolve_call hop (callOp0_of_cellAccepts hop0) hr]
  rcases hdst with hget | ⟨hget, hseg⟩
  · rw [resolveDst_known hget, callMemory, fill_filled (grows_fill _ _ _ _ _ hget), hget]
  · exact resolveDst_call_fill (s := { s with mem := _ }) hop hget hseg hcell

end Call

end Sys2Proof.Proofs.Cascade
end

section
/-! PROOFS. The faults of a Call and the cases of an AssertEq (43_step_resolution.md R115 to R127; 44_assert_update.md
R131, R132). -/

open Sys2Proof Sys2Proof.Machine

namespace Sys2Proof.Proofs.Cascade

open Sys2Proof.Proofs.Operands Sys2Proof.Proofs.HostSurface

section Call

variable {d : Decoded} {s : State} {x : Addrs}

/-- Each way of `CallFaults` ends the step with its error, the memory as it says. -/
theorem sequence_of_callFaults {e : ErrorKind} {m : Memory} (hop : d.opcode = .call)
    (hx : operandAddresses Config.standard d.toFields s = .ok x) (h : CallFaults d.toFields s x e m) :
    Machine.sequence Config.standard d s = .error (.raised e { s with mem := m }) := by
  cases h with
  | op0Unallocated hget hseg =>
    exact sequence_of_resolve_error hx (resolve_of_op0_error (resolveOp0_call_unallocated hop hget hseg))
  | res w _ hw hr => exact sequence_of_resolve_error hx (resolve_call_res_error hop hw hr)
  | dstUnallocated w r hw hr hget hseg =>
    refine sequence_of_resolve_error hx ?_
    rw [resolve_call hop hw hr]
    exact resolveDst_call_error hop hget (insert_unallocated _ hseg)
  | oneCell r heq hget hseg hne hr =>
    have hself := get_put_self s.mem x.op0 (.ptr (pastInstr d.toFields s))
    have hdst : Memory.get s.mem x.dst = none := heq ▸ hget
    refine sequence_of_resolve_error hx ?_
    rw [resolve_call hop (.inr ⟨hget, hseg, rfl⟩) hr, fill_empty hget]
    refine resolveDst_call_error hop hdst ?_
    rw [heq]
    exact insert_unequal hseg hself fun h => hne (Word.ptr.inj h)
  | badOp0 v r hget hne hdst hr =>
    have hassert : ∀ l : Locals, l.op0 = some v → assertOpcode Config.standard d s l = .error .invalidOp0ForCall :=
      fun l hl => by rw [assertOpcode_call hop, if_pos (by rw [hl]; exact fun h => hne (Option.some.inj h))]
    have hresolve := resolve_call hop (.inl hget) hr
    rw [fill_filled hget] at hresolve
    cases hd : Memory.get s.mem x.dst with
    | some u =>
      rw [resolveDst_known hd] at hresolve
      rw [fill_filled hd]
      exact sequence_of_assert_error hx hresolve (hassert _ rfl)
    | none =>
      have hcell : ∀ u, Memory.get s.mem x.dst = some u → u = .ptr s.fp := fun u hu => by rw [hd] at hu; cases hu
      rw [resolveDst_call_fill (s := s) hop hd (hdst hd) hcell] at hresolve
      exact sequence_of_assert_error hx hresolve (hassert _ rfl)
  | badDst v r hop0 hget hne hr =>
    have hresolve := resolve_call hop (callOp0_of_cellAccepts hop0) hr
    rw [resolveDst_known hget] at hresolve
    refine sequence_of_assert_error hx hresolve ?_
    rw [assertOpcode_call hop, if_neg (by simp), if_pos (by rw [hget]; exact fun h => hne (Option.some.inj h))]

/-- A Call whose addresses exist is ready and its res is computed, or it faults in one of the ways of `CallFaults`. -/
theorem callReady_or_callFaults (f : Fields) (s : State) {x : Addrs}
    (hx : operandAddresses Config.standard f s = .ok x) :
    (∃ r, CallReady f s x ∧
      forwardRes Config.standard f.resLogic (some (.ptr (pastInstr f s))) (Memory.get s.mem x.op1) = .ok r) ∨
    ∃ e m, CallFaults f s x e m := by
  -- what the local op0 is after stage 4a
  have hlocal : (∃ w, callOp0 f s x w) ∨ ∃ e m, CallFaults f s x e m := by
    cases hget : Memory.get s.mem x.op0 with
    | some w => exact .inl ⟨w, .inl hget⟩
    | none =>
      rcases Nat.lt_or_ge x.op0.seg s.nseg with hseg | hseg
      · exact .inl ⟨_, .inr ⟨hget, hseg, rfl⟩⟩
      · exact .inr ⟨_, _, .op0Unallocated hget hseg⟩
  obtain ⟨w, hw⟩ | hfault := hlocal
  swap
  · exact .inr hfault
  cases hr : forwardRes Config.standard f.resLogic (some w) (Memory.get s.mem x.op1) with
  | error e => exact .inr ⟨_, _, .res w e hw hr⟩
  | ok r =>
  by_cases hpast : w = .ptr (pastInstr f s)
  · subst hpast
    have hop0 : cellAccepts s x.op0 (.ptr (pastInstr f s)) := hw.imp_right fun ⟨hn, hseg, _⟩ => ⟨hn, hseg⟩
    cases hdst : Memory.get s.mem x.dst with
    | some v =>
      by_cases hfp : v = .ptr s.fp
      · subst hfp
        exact .inl ⟨r, ⟨hx, hop0, .inl hdst, fun heq hn => by rw [heq, hn] at hdst; cases hdst⟩, hr⟩
      · exact .inr ⟨_, _, .badDst v r hop0 hdst hfp hr⟩
    | none =>
      rcases Nat.lt_or_ge x.dst.seg s.nseg with hseg | hseg
      · by_cases hshared : x.dst = x.op0 → Memory.get s.mem x.op0 = none → pastInstr f s = s.fp
        · exact .inl ⟨r, ⟨hx, hop0, .inr ⟨hdst, hseg⟩, hshared⟩, hr⟩
        · simp only [Classical.not_imp] at hshared
          obtain ⟨heq, hn, hne⟩ := hshared
          exact .inr ⟨_, _, .oneCell r heq hn (heq ▸ hseg) hne hr⟩
      · exact .inr ⟨_, _, .dstUnallocated _ r hw hr hdst hseg⟩
  · have hget : Memory.get s.mem x.op0 = some w := hw.resolve_right fun ⟨_, _, h⟩ => hpast h
    by_cases hdst : Memory.get s.mem x.dst = none → x.dst.seg < s.nseg
    · exact .inr ⟨_, _, .badOp0 w r hget hpast hdst hr⟩
    · simp only [Classical.not_imp, Nat.not_lt] at hdst
      exact .inr ⟨_, _, .dstUnallocated w r hw hr hdst.1 hdst.2⟩

end Call

/-! AssertEq deduces the one absent operand (R115 to R121, R127). -/

/-- The ways an AssertEq whose addresses exist faults before the register updates (R119, R124, R131). -/
inductive AeqFaults (f : Fields) (s : State) (x : Addrs) : ErrorKind → Prop where
  /-- All three cells Filled, dst other than res. -/
  | differs (v a b w : Word) : Memory.get s.mem x.dst = some v → Memory.get s.mem x.op0 = some a →
      Memory.get s.mem x.op1 = some b → computeRes Config.standard f.resLogic a b = .ok (some w) → v ≠ w →
      AeqFaults f s x .diffAssertValues
  /-- res is an error. -/
  | res (a b : Word) (e : ErrorKind) : Memory.get s.mem x.op0 = some a → Memory.get s.mem x.op1 = some b →
      computeRes Config.standard f.resLogic a b = .error e → AeqFaults f s x e
  /-- dst and an operand are Empty. -/
  | noDst : Memory.get s.mem x.dst = none → Memory.get s.mem x.op0 = none ∨ Memory.get s.mem x.op1 = none →
      AeqFaults f s x .unconstrainedRes
  /-- Both operands are Empty, and op1 alone is not res. -/
  | noOperands : f.resLogic ≠ .op1 → Memory.get s.mem x.op0 = none → Memory.get s.mem x.op1 = none →
      AeqFaults f s x .unconstrainedRes
  /-- op0 is Empty under Op1, which does not deduce it. -/
  | noOp0 (b : Word) : f.resLogic = .op1 → Memory.get s.mem x.op0 = none → Memory.get s.mem x.op1 = some b →
      AeqFaults f s x .unconstrainedRes
  /-- The known factor op1 is zero. -/
  | zeroOp1 : f.resLogic = .mul → Memory.get s.mem x.op0 = none → Memory.get s.mem x.op1 = some (.field (felt 0)) →
      AeqFaults f s x .unconstrainedRes
  /-- The known factor op0 is zero. -/
  | zeroOp0 : f.resLogic = .mul → Memory.get s.mem x.op1 = none → Memory.get s.mem x.op0 = some (.field (felt 0)) →
      AeqFaults f s x .unconstrainedRes
  /-- There is no res. -/
  | unconstrained : f.resLogic = .unconstrained → AeqFaults f s x .unconstrainedRes
  /-- The deduction of the absent operand from dst and the known operand `k` is an error. -/
  | deduction (v k : Word) (e : ErrorKind) : Memory.get s.mem x.dst = some v →
      Memory.get s.mem x.op0 = none ∧ Memory.get s.mem x.op1 = some k ∨
        Memory.get s.mem x.op0 = some k ∧ Memory.get s.mem x.op1 = none →
      f.resLogic = .add ∧ wsub v k = .error e ∨ f.resLogic = .mul ∧ k ≠ .field (felt 0) ∧ wdiv v k = .error e →
      AeqFaults f s x e
  /-- The cell to be written lies in an unallocated segment. -/
  | unallocated (v b : Word) (cell : Cell) : AeqSettles f { s with nseg := cell.1.seg + 1 } x v b (some cell) →
      s.nseg ≤ cell.1.seg → AeqFaults f s x .segmentOutOfBounds

section AssertEq

variable {d : Decoded} {s : State} {x : Addrs}

/-! What each operand is deduced as, by res_logic (R115, R117). -/

section Deduction

variable {c : Config} {pc : Ptr} {dst op0 op1 : Option Word} {v k : Word}

theorem deduceOp0_add (hop : d.opcode = .assertEq) (hr : d.resLogic = .add) :
    deduceOp0 c d pc (some v) (some k) = (wsub v k).map fun a => (some a, some v) := by
  simp only [deduceOp0, hop, hr]

theorem deduceOp0_mul (hop : d.opcode = .assertEq) (hr : d.resLogic = .mul) (hk : k ≠ .field (felt 0)) :
    deduceOp0 c d pc (some v) (some k) = (wdiv v k).map fun a => (some a, some v) := by
  simp only [deduceOp0, hop, hr, if_neg hk]

theorem deduceOp1_add (hop : d.opcode = .assertEq) (hr : d.resLogic = .add) :
    deduceOp1 d (some v) (some k) = (wsub v k).map fun b => (some b, some v) := by
  simp only [deduceOp1, hop, hr]

theorem deduceOp1_mul (hop : d.opcode = .assertEq) (hr : d.resLogic = .mul) (hk : k ≠ .field (felt 0)) :
    deduceOp1 d (some v) (some k) = (wdiv v k).map fun b => (some b, some v) := by
  simp only [deduceOp1, hop, hr, if_neg hk]

theorem deduceOp1_op1 (hop : d.opcode = .assertEq) (hr : d.resLogic = .op1) : deduceOp1 d dst op0 = .ok (dst, dst) := by
  simp only [deduceOp1, hop, hr]

/-- op0 is not deduced without dst, without op1, by a zero factor, or under another res_logic than Add and Mul. -/
theorem deduceOp0_nothing (hop : d.opcode = .assertEq)
    (h : dst = none ∨ op1 = none ∨ d.resLogic = .op1 ∨ d.resLogic = .unconstrained ∨
      d.resLogic = .mul ∧ op1 = some (.field (felt 0))) : deduceOp0 c d pc dst op1 = .ok (none, none) := by
  rcases h with rfl | rfl | hr | hr | ⟨hr, rfl⟩
  · cases hr : d.resLogic <;> simp only [deduceOp0, hop, hr]
  · cases hr : d.resLogic <;> simp only [deduceOp0, hop, hr]
  · simp only [deduceOp0, hop, hr]
  · simp only [deduceOp0, hop, hr]
  · cases dst <;> simp only [deduceOp0, hop, hr, if_true]

/-- op1 is not deduced without dst, by a zero factor, under Unconstrained, or without op0 but under Op1. -/
theorem deduceOp1_nothing (hop : d.opcode = .assertEq)
    (h : dst = none ∨ d.resLogic ≠ .op1 ∧ op0 = none ∨ d.resLogic = .unconstrained ∨
      d.resLogic = .mul ∧ op0 = some (.field (felt 0))) : deduceOp1 d dst op0 = .ok (none, none) := by
  rcases h with rfl | ⟨hr, rfl⟩ | hr | ⟨hr, rfl⟩
  · cases hr : d.resLogic <;> simp only [deduceOp1, hop, hr]
  · cases h : d.resLogic with
    | op1 => exact absurd h hr
    | add => simp only [deduceOp1, hop, h]
    | mul => simp only [deduceOp1, hop, h]
    | unconstrained => simp only [deduceOp1, hop, h]
  · simp only [deduceOp1, hop, hr]
  · cases dst <;> simp only [deduceOp1, hop, hr, if_true]

end Deduction

/-! The four ways through the cascade: nothing deduced, op0 deduced, op1 deduced, both operands there. -/

/-- Both operands there: res is computed, and dst takes it if it is Empty. -/
theorem resolve_bothKnown {c : Config} {a b : Word} {r : Option Word} (ha : Memory.get s.mem x.op0 = some a)
    (hb : Memory.get s.mem x.op1 = some b) (hr : computeRes c d.resLogic a b = .ok r) :
    resolve c d x (readOperands s x) s = resolveDst d x { readOperands s x with res := r } s := by
  have hforward : forwardRes c d.resLogic (Memory.get s.mem x.op0) (Memory.get s.mem x.op1) = .ok r := by
    rw [ha, hb, forwardRes_some, hr]
  exact resolve_of_res_ok (resolveOp0_known ha) (resolveOp1_known hb) (resolveRes_forward rfl hforward)

/-- op0 deduced from dst: its write-back decides. -/
theorem resolve_op0Deduced {c : Config} {v a b : Word} (hv : Memory.get s.mem x.dst = some v)
    (ha : Memory.get s.mem x.op0 = none) (hb : Memory.get s.mem x.op1 = some b)
    (hd : deduceOp0 c d s.pc (some v) (some b) = .ok (some a, some v)) :
    resolve c d x (readOperands s x) s = (writeBack s x.op0 (some a)).map fun t =>
      ({ dst := some v, op0 := some a, op1 := some b, res := some v }, t) := by
  have hstage : resolveOp0 c d x (readOperands s x) s = (writeBack s x.op0 (some a)).map fun t =>
      ({ dst := some v, op0 := some a, op1 := some b, res := some v }, t) := by
    rw [resolveOp0_deduced ha (by simpa only [readOperands, hv, hb] using hd)]
    simp only [readOperands, hv, hb]
  cases hw : writeBack s x.op0 (some a) with
  | error e =>
    rw [hw] at hstage
    exact resolve_of_op0_error hstage
  | ok t =>
    rw [hw] at hstage
    rw [resolve_of_res_ok hstage (resolveOp1_known rfl) (resolveRes_known rfl), resolveDst_known rfl]
    rfl

/-- op1 deduced from dst: its write-back decides. -/
theorem resolve_op1Deduced {c : Config} {v b : Word} {op0 : Option Word} (hop : d.opcode = .assertEq)
    (hv : Memory.get s.mem x.dst = some v) (ha : Memory.get s.mem x.op0 = op0) (hb : Memory.get s.mem x.op1 = none)
    (hd : deduceOp1 d (some v) op0 = .ok (some b, some v)) :
    resolve c d x (readOperands s x) s = (writeBack s x.op1 (some b)).map fun t =>
      ({ dst := some v, op0 := op0, op1 := some b, res := some v }, t) := by
  have hfirst : resolveOp0 c d x (readOperands s x) s = .ok (readOperands s x, s) :=
    resolveOp0_nothing rfl fun _ => deduceOp0_nothing hop (.inr (.inl hb))
  have hstage : resolveOp1 d x (readOperands s x) s = (writeBack s x.op1 (some b)).map fun t =>
      ({ dst := some v, op0 := op0, op1 := some b, res := some v }, t) := by
    rw [resolveOp1_deduced hb (by simpa only [readOperands, hv, ha] using hd)]
    simp only [readOperands, hv, ha, Option.none_or]
  cases hw : writeBack s x.op1 (some b) with
  | error e =>
    rw [hw] at hstage
    exact resolve_of_op1_error hfirst hstage
  | ok t =>
    rw [hw] at hstage
    rw [resolve_of_res_ok hfirst hstage (resolveRes_known rfl), resolveDst_known rfl]
    rfl

theorem assertOpcode_assertEq {c : Config} {l : Locals} (hop : d.opcode = .assertEq) :
    assertOpcode c d s l = assertEqual l := by
  simp only [assertOpcode, hop]

/-- Where no operand is deduced and no res computed, the step ends in UnconstrainedRes and nothing is written (R131). -/
theorem sequence_of_no_res (hop : d.opcode = .assertEq) (hx : operandAddresses Config.standard d.toFields s = .ok x)
    (hop0 : Memory.get s.mem x.op0 = none →
      deduceOp0 Config.standard d s.pc (Memory.get s.mem x.dst) (Memory.get s.mem x.op1) = .ok (none, none))
    (hop1 : Memory.get s.mem x.op1 = none →
      deduceOp1 d (Memory.get s.mem x.dst) (Memory.get s.mem x.op0) = .ok (none, none))
    (hr : forwardRes Config.standard d.resLogic (Memory.get s.mem x.op0) (Memory.get s.mem x.op1) = .ok none) :
    Machine.sequence Config.standard d s = .error (.raised .unconstrainedRes s) := by
  have hresolve := resolve_of_res_ok (x := x) (resolveOp0_nothing rfl hop0) (resolveOp1_nothing hop1)
    (resolveRes_forward (l := readOperands s x) rfl hr)
  have hassert : ∀ l : Locals, l.res = none → assertOpcode Config.standard d s l = .error .unconstrainedRes :=
    fun l hl => by rw [assertOpcode_assertEq hop, assertEqual, hl]
  cases hd : Memory.get s.mem x.dst with
  | some v =>
    rw [resolveDst_known hd] at hresolve
    exact sequence_of_assert_error hx hresolve (hassert _ rfl)
  | none =>
    rw [resolveDst_deduced hd, hop] at hresolve
    exact sequence_of_assert_error hx hresolve (hassert _ rfl)

/-- The cell an AssertEq writes is Empty and allocated (R127). -/
theorem aeqSettles_cell {f : Fields} {v b : Word} {cell : Cell} (h : AeqSettles f s x v b (some cell)) :
    Memory.get s.mem cell.1 = none ∧ cell.1.seg < s.nseg := by
  cases h with
  | assign _ _ hv hseg _ _ _ => exact ⟨hv, hseg⟩
  | op0Add _ _ _ _ ha hseg _ _ => exact ⟨ha, hseg⟩
  | op0Mul _ _ _ _ ha hseg _ _ _ => exact ⟨ha, hseg⟩
  | op1Op1 _ _ hb hseg => exact ⟨hb, hseg⟩
  | op1Add _ _ _ _ _ hb hseg _ => exact ⟨hb, hseg⟩
  | op1Mul _ _ _ _ _ hb hseg _ _ => exact ⟨hb, hseg⟩

/-- The locals an AssertEq ends its cascade with: dst and res are one word, and op0 is defined unless Op1 has no use for
it. -/
def SettledLocals (d : Decoded) (s : State) (x : Addrs) (v b : Word) (l : Locals) : Prop :=
  l.dst = some v ∧ l.op1 = some b ∧ l.res = some v ∧
    (l.op0 = none ↔ d.resLogic = .op1 ∧ Memory.get s.mem x.op0 = none)

/-- Where the operands settle with a cell to write, the write-back of that cell decides. The segments are left open: `n`
is whatever number of them lets the operands settle. -/
theorem resolve_aeqWrites {n : Nat} {v b : Word} {cell : Cell} (hop : d.opcode = .assertEq)
    (h : AeqSettles d.toFields { s with nseg := n } x v b (some cell)) : ∃ l, SettledLocals d s x v b l ∧
      resolve Config.standard d x (readOperands s x) s =
        (writeBack s cell.1 (some cell.2)).map fun t => (l, t) := by
  cases h with
  | assign a _ hv hseg ha hb hr =>
    have hop0 : Memory.get s.mem x.op0 = some a := ha
    have hop1 : Memory.get s.mem x.op1 = some b := hb
    refine ⟨⟨some v, some a, some b, some v⟩, ⟨rfl, rfl, rfl, by simp [hop0]⟩, ?_⟩
    rw [resolve_bothKnown hop0 hop1 hr, resolveDst_deduced hv, hop]
    simp only [readOperands, hop0, hop1]
    rfl
  | op0Add a _ hr hv ha hseg hb hd =>
    refine ⟨⟨some v, some a, some b, some v⟩, ⟨rfl, rfl, rfl, by simp [hr]⟩, resolve_op0Deduced hv ha hb ?_⟩
    rw [deduceOp0_add hop hr, hd]
    rfl
  | op0Mul a _ hr hv ha hseg hb hne hd =>
    refine ⟨⟨some v, some a, some b, some v⟩, ⟨rfl, rfl, rfl, by simp [hr]⟩, resolve_op0Deduced hv ha hb ?_⟩
    rw [deduceOp0_mul hop hr hne, hd]
    rfl
  | op1Op1 hr hv hb hseg =>
    exact ⟨⟨some v, Memory.get s.mem x.op0, some v, some v⟩, ⟨rfl, rfl, rfl, by simp [hr]⟩,
      resolve_op1Deduced hop hv rfl hb (deduceOp1_op1 hop hr)⟩
  | op1Add a _ hr hv ha hb hseg hd =>
    refine ⟨⟨some v, some a, some b, some v⟩, ⟨rfl, rfl, rfl, by simp [hr]⟩, resolve_op1Deduced hop hv ha hb ?_⟩
    rw [deduceOp1_add hop hr, hd]
    rfl
  | op1Mul a _ hr hv ha hb hseg hne hd =>
    refine ⟨⟨some v, some a, some b, some v⟩, ⟨rfl, rfl, rfl, by simp [hr]⟩, resolve_op1Deduced hop hv ha hb ?_⟩
    rw [deduceOp1_mul hop hr hne, hd]
    rfl

/-- Settled operands pass the cascade, with the one cell written (R127). -/
theorem resolve_aeqSettles {v b : Word} {fill : Option Cell} (hop : d.opcode = .assertEq)
    (h : AeqSettles d.toFields s x v b fill) : ∃ l, SettledLocals d s x v b l ∧
      resolve Config.standard d x (readOperands s x) s = .ok (l, { s with mem := Memory.withCell s.mem fill }) := by
  cases fill with
  | none =>
    cases h with
    | check a _ hv ha hb hr =>
      refine ⟨{ readOperands s x with res := some v }, ⟨hv, hb, rfl, by simp [readOperands, ha]⟩, ?_⟩
      rw [resolve_bothKnown ha hb hr, resolveDst_known hv]
      rfl
  | some cell =>
    obtain ⟨hget, hseg⟩ := aeqSettles_cell h
    obtain ⟨l, hl, hresolve⟩ := resolve_aeqWrites (n := s.nseg) hop h
    refine ⟨l, hl, ?_⟩
    rw [hresolve, writeBack_of_insert_ok (insert_empty _ hseg hget)]
    rfl

/-- Settled locals pass the assertion of AssertEq (R131). -/
theorem assertOpcode_settled {c : Config} {v b : Word} {l : Locals} (hop : d.opcode = .assertEq)
    (hl : SettledLocals d s x v b l) : assertOpcode c d s l = .ok () := by
  obtain ⟨hdst, -, hres, -⟩ := hl
  rw [assertOpcode_assertEq hop, assertEqual, hres]
  exact if_pos hdst

/-- Each way of `AeqFaults` ends the step with its error, and nothing is written. -/
theorem sequence_of_aeqFaults {e : ErrorKind} (hop : d.opcode = .assertEq)
    (hx : operandAddresses Config.standard d.toFields s = .ok x) (h : AeqFaults d.toFields s x e) :
    Machine.sequence Config.standard d s = .error (.raised e s) := by
  cases h with
  | differs v a b w hv ha hb hr hne =>
    have hresolve := resolve_bothKnown ha hb hr
    rw [resolveDst_known hv] at hresolve
    refine sequence_of_assert_error hx hresolve ?_
    rw [assertOpcode_assertEq hop]
    exact if_neg fun h => hne (Option.some.inj (hv.symm.trans h))
  | res a b _ ha hb hr =>
    have hforward : forwardRes Config.standard d.resLogic (Memory.get s.mem x.op0) (Memory.get s.mem x.op1) =
        .error e := by rw [ha, hb, forwardRes_some, hr]
    exact sequence_of_resolve_error hx (resolve_of_res_error (resolveOp0_known ha) (resolveOp1_known hb)
      (resolveRes_error rfl hforward))
  | noDst hv hmissing =>
    refine sequence_of_no_res hop hx (fun _ => deduceOp0_nothing hop (.inl hv))
      (fun _ => deduceOp1_nothing hop (.inl hv)) ?_
    rcases hmissing with h | h <;> rw [h]
    · exact forwardRes_none_left _ _ _
    · exact forwardRes_none_right _ _ _
  | noOperands hr ha hb =>
    refine sequence_of_no_res hop hx (fun _ => deduceOp0_nothing hop (.inr (.inl hb)))
      (fun _ => deduceOp1_nothing hop (.inr (.inl ⟨hr, ha⟩))) ?_
    rw [ha, forwardRes_none_left]
  | noOp0 b hr ha hb =>
    refine sequence_of_no_res hop hx (fun _ => deduceOp0_nothing hop (.inr (.inr (.inl hr))))
      (fun h => by rw [hb] at h; cases h) ?_
    rw [ha, forwardRes_none_left]
  | zeroOp1 hr ha hb =>
    refine sequence_of_no_res hop hx (fun _ => deduceOp0_nothing hop (.inr (.inr (.inr (.inr ⟨hr, hb⟩)))))
      (fun h => by rw [hb] at h; cases h) ?_
    rw [ha, forwardRes_none_left]
  | zeroOp0 hr hb ha =>
    refine sequence_of_no_res hop hx (fun h => by rw [ha] at h; cases h)
      (fun _ => deduceOp1_nothing hop (.inr (.inr (.inr ⟨hr, ha⟩)))) ?_
    rw [hb, forwardRes_none_right]
  | unconstrained hr =>
    refine sequence_of_no_res hop hx (fun _ => deduceOp0_nothing hop (.inr (.inr (.inr (.inl hr)))))
      (fun _ => deduceOp1_nothing hop (.inr (.inr (.inl hr)))) ?_
    rw [hr]
    cases Memory.get s.mem x.op0 <;> cases Memory.get s.mem x.op1 <;> rfl
  | deduction v k _ hv hknown hd =>
    refine sequence_of_resolve_error hx ?_
    rcases hknown with ⟨ha, hb⟩ | ⟨ha, hb⟩
    · refine resolve_of_op0_error (resolveOp0_deduce_error ha ?_)
      simp only [readOperands, hv, hb]
      rcases hd with ⟨hr, hd⟩ | ⟨hr, hne, hd⟩
      · rw [deduceOp0_add hop hr, hd]
        rfl
      · rw [deduceOp0_mul hop hr hne, hd]
        rfl
    · refine resolve_of_op1_error (resolveOp0_known ha) (resolveOp1_deduce_error hb ?_)
      simp only [readOperands, hv, ha]
      rcases hd with ⟨hr, hd⟩ | ⟨hr, hne, hd⟩
      · rw [deduceOp1_add hop hr, hd]
        rfl
      · rw [deduceOp1_mul hop hr hne, hd]
        rfl
  | unallocated v b cell hsettles hseg =>
    obtain ⟨l, -, hresolve⟩ := resolve_aeqWrites hop hsettles
    rw [writeBack_of_insert_error (insert_unallocated _ hseg)] at hresolve
    exact sequence_of_resolve_error hx hresolve

/-- The operands of an AssertEq settle, or it faults in one of the ways of `AeqFaults`. -/
def AeqDecided (f : Fields) (s : State) (x : Addrs) : Prop :=
  (∃ v b fill, AeqSettles f s x v b fill) ∨ ∃ e, AeqFaults f s x e

section Decided

variable {f : Fields} {v a b : Word}

/-- Where a cell to write is found, its segment decides. -/
theorem aeqDecided_of_cell (cell : Cell)
    (h : ∀ n, cell.1.seg < n → AeqSettles f { s with nseg := n } x v b (some cell)) : AeqDecided f s x := by
  rcases Nat.lt_or_ge cell.1.seg s.nseg with hseg | hseg
  · exact .inl ⟨v, b, some cell, h s.nseg hseg⟩
  · exact .inr ⟨_, .unallocated v b cell (h _ (Nat.lt_succ_self _)) hseg⟩

/-- Only Unconstrained computes no res (R119). -/
theorem computeRes_none {c : Config} {r : ResLogic} (h : computeRes c r a b = .ok none) : r = .unconstrained := by
  cases r with
  | unconstrained => rfl
  | op1 => cases h
  | add =>
    obtain ⟨_, -, h⟩ := except_map_ok.1 h
    cases h
  | mul =>
    obtain ⟨_, -, h⟩ := except_map_ok.1 h
    cases h

theorem aeqDecided_of_bothKnown (ha : Memory.get s.mem x.op0 = some a) (hb : Memory.get s.mem x.op1 = some b) :
    AeqDecided f s x := by
  rcases hr : computeRes Config.standard f.resLogic a b with e | _ | w
  · exact .inr ⟨e, .res a b e ha hb hr⟩
  · exact .inr ⟨_, .unconstrained (computeRes_none hr)⟩
  cases hv : Memory.get s.mem x.dst with
  | none => exact aeqDecided_of_cell (x.dst, w) fun n hseg => .assign w a b hv hseg ha hb hr
  | some v =>
    by_cases hvw : v = w
    · subst hvw
      exact .inl ⟨v, b, none, .check v a b hv ha hb hr⟩
    · exact .inr ⟨_, .differs v a b w hv ha hb hr hvw⟩

theorem aeqDecided_of_op1Empty (ha : Memory.get s.mem x.op0 = some a) (hb : Memory.get s.mem x.op1 = none) :
    AeqDecided f s x := by
  cases hv : Memory.get s.mem x.dst with
  | none => exact .inr ⟨_, .noDst hv (.inr hb)⟩
  | some v =>
  cases hl : f.resLogic with
  | op1 => exact aeqDecided_of_cell (x.op1, v) fun n hseg => .op1Op1 v hl hv hb hseg
  | unconstrained => exact .inr ⟨_, .unconstrained hl⟩
  | add =>
    cases hd : wsub v a with
    | error e => exact .inr ⟨e, .deduction v a e hv (.inr ⟨ha, hb⟩) (.inl ⟨hl, hd⟩)⟩
    | ok b => exact aeqDecided_of_cell (x.op1, b) fun n hseg => .op1Add v a b hl hv ha hb hseg hd
  | mul =>
    by_cases hzero : a = .field (felt 0)
    · subst hzero
      exact .inr ⟨_, .zeroOp0 hl hb ha⟩
    cases hd : wdiv v a with
    | error e => exact .inr ⟨e, .deduction v a e hv (.inr ⟨ha, hb⟩) (.inr ⟨hl, hzero, hd⟩)⟩
    | ok b => exact aeqDecided_of_cell (x.op1, b) fun n hseg => .op1Mul v a b hl hv ha hb hseg hzero hd

theorem aeqDecided_of_op0Empty (ha : Memory.get s.mem x.op0 = none) (hb : Memory.get s.mem x.op1 = some b) :
    AeqDecided f s x := by
  cases hv : Memory.get s.mem x.dst with
  | none => exact .inr ⟨_, .noDst hv (.inl ha)⟩
  | some v =>
  cases hl : f.resLogic with
  | op1 => exact .inr ⟨_, .noOp0 b hl ha hb⟩
  | unconstrained => exact .inr ⟨_, .unconstrained hl⟩
  | add =>
    cases hd : wsub v b with
    | error e => exact .inr ⟨e, .deduction v b e hv (.inl ⟨ha, hb⟩) (.inl ⟨hl, hd⟩)⟩
    | ok a => exact aeqDecided_of_cell (x.op0, a) fun n hseg => .op0Add v a b hl hv ha hseg hb hd
  | mul =>
    by_cases hzero : b = .field (felt 0)
    · subst hzero
      exact .inr ⟨_, .zeroOp1 hl ha hb⟩
    cases hd : wdiv v b with
    | error e => exact .inr ⟨e, .deduction v b e hv (.inl ⟨ha, hb⟩) (.inr ⟨hl, hzero, hd⟩)⟩
    | ok a => exact aeqDecided_of_cell (x.op0, a) fun n hseg => .op0Mul v a b hl hv ha hseg hb hzero hd

theorem aeqDecided_of_bothEmpty (ha : Memory.get s.mem x.op0 = none) (hb : Memory.get s.mem x.op1 = none) :
    AeqDecided f s x := by
  cases hv : Memory.get s.mem x.dst with
  | none => exact .inr ⟨_, .noDst hv (.inl ha)⟩
  | some v =>
    by_cases hl : f.resLogic = .op1
    · exact aeqDecided_of_cell (x.op1, v) fun n hseg => .op1Op1 v hl hv hb hseg
    · exact .inr ⟨_, .noOperands hl ha hb⟩

end Decided

/-- Said once: which of its two operands an AssertEq reads decides how it settles or faults (R127). -/
theorem aeqSettles_or_aeqFaults (f : Fields) (s : State) (x : Addrs) : AeqDecided f s x := by
  cases ha : Memory.get s.mem x.op0 <;> cases hb : Memory.get s.mem x.op1
  · exact aeqDecided_of_bothEmpty ha hb
  · exact aeqDecided_of_op0Empty ha hb
  · exact aeqDecided_of_op1Empty ha hb
  · exact aeqDecided_of_bothKnown ha hb

end AssertEq

end Sys2Proof.Proofs.Cascade
end

section
/-! PROOFS. The sixteen instructions (45_instructions.md R150 to R165): an instruction whose addresses exist reaches the
register updates or faults before them; from there its three next values decide. -/

open Sys2Proof Sys2Proof.Machine

namespace Sys2Proof.Proofs.Instructions

open Sys2Proof.Proofs.Operands Sys2Proof.Proofs.Cascade Sys2Proof.Proofs.AssertUpdate

/-! The register updates as a whole (R136 to R148). -/

section RegisterUpdates

variable {d : Decoded} {s u t : State} {l : Locals}

theorem registerUpdates_eq_ok {pc ap fp : Ptr} (hpc : nextPc Config.standard d s l = .ok pc)
    (hap : nextAp Config.standard d.apUpdate s l.res = .ok ap)
    (hfp : nextFp Config.standard d.fpUpdate s l.dst = .ok fp) :
    registerUpdates d s u l = .ok (commit u pc ap fp) := by
  simp only [registerUpdates, hpc, hap, hfp, orAbort_ok, bind, Except.bind]

theorem registerUpdates_ok (h : registerUpdates d s u l = .ok t) :
    ∃ pc ap fp, nextPc Config.standard d s l = .ok pc ∧ nextAp Config.standard d.apUpdate s l.res = .ok ap ∧
      nextFp Config.standard d.fpUpdate s l.dst = .ok fp ∧ t = commit u pc ap fp := by
  obtain ⟨pc, hpc, h⟩ := except_bind_ok.1 h
  obtain ⟨ap, hap, h⟩ := except_bind_ok.1 h
  obtain ⟨fp, hfp, h⟩ := except_bind_ok.1 h
  cases h
  exact ⟨pc, ap, fp, orAbort_eq_ok.1 hpc, orAbort_eq_ok.1 hap, orAbort_eq_ok.1 hfp, rfl⟩

/-- One of the three next values is the error `e`; an earlier one is looked at first (D13). -/
inductive UpdateFaults (d : Decoded) (s : State) (l : Locals) (e : ErrorKind) : Prop where
  | pc : nextPc Config.standard d s l = .error e → UpdateFaults d s l e
  | ap (pc : Ptr) : nextPc Config.standard d s l = .ok pc → nextAp Config.standard d.apUpdate s l.res = .error e →
      UpdateFaults d s l e
  | fp (pc ap : Ptr) : nextPc Config.standard d s l = .ok pc → nextAp Config.standard d.apUpdate s l.res = .ok ap →
      nextFp Config.standard d.fpUpdate s l.dst = .error e → UpdateFaults d s l e

theorem registerUpdates_eq_error {e : ErrorKind} (h : UpdateFaults d s l e) :
    registerUpdates d s u l = .error (.raised e u) := by
  cases h with
  | pc hpc => simp only [registerUpdates, hpc, orAbort_error, bind, Except.bind]
  | ap _ hpc hap => simp only [registerUpdates, hpc, hap, orAbort_ok, orAbort_error, bind, Except.bind]
  | fp _ _ hpc hap hfp =>
    simp only [registerUpdates, hpc, hap, hfp, orAbort_ok, orAbort_error, bind, Except.bind]

theorem registerUpdates_error {f : Fault} (h : registerUpdates d s u l = .error f) :
    ∃ e, UpdateFaults d s l e ∧ f = .raised e u := by
  rcases except_bind_error.1 h with h | ⟨pc, hpc, h⟩
  · obtain ⟨e, he, rfl⟩ := orAbort_eq_error.1 h
    exact ⟨e, .pc he, rfl⟩
  rcases except_bind_error.1 h with h | ⟨ap, hap, h⟩
  · obtain ⟨e, he, rfl⟩ := orAbort_eq_error.1 h
    exact ⟨e, .ap pc (orAbort_eq_ok.1 hpc) he, rfl⟩
  rcases except_bind_error.1 h with h | ⟨fp, -, h⟩
  · obtain ⟨e, he, rfl⟩ := orAbort_eq_error.1 h
    exact ⟨e, .fp pc ap (orAbort_eq_ok.1 hpc) (orAbort_eq_ok.1 hap) he, rfl⟩
  · cases h

end RegisterUpdates

/-! Reaching the register updates, or faulting before them. -/

/-- The ways an instruction whose addresses exist faults before the register updates, with the memory it leaves. -/
inductive FaultsEarly (i : Instr) (s : State) (x : Addrs) : ErrorKind → Memory → Prop where
  /-- NoOp and Ret: res is an error. -/
  | plain (e : ErrorKind) : i.opcode = .noOp ∨ i.opcode = .ret →
      forwardRes Config.standard i.fields.resLogic (Memory.get s.mem x.op0) (Memory.get s.mem x.op1) = .error e →
      FaultsEarly i s x e s.mem
  | call (e : ErrorKind) (m : Memory) : i.opcode = .call → CallFaults i.fields s x e m → FaultsEarly i s x e m
  | assertEq (e : ErrorKind) : i.opcode = .assertEq → AeqFaults i.fields s x e → FaultsEarly i s x e s.mem

section Instruction

variable {i : Instr} {s t : State} {x : Addrs} {dst op1 res : Option Word} {m : Memory}

theorem exec_eq_next : exec i s = .next t ↔ Machine.sequence Config.standard i.decoded s = .ok t := by
  rw [exec_eq_runDecoded, runDecoded_next]

theorem exec_eq_fault {f : Fault} :
    exec i s = .fault f ↔ Machine.sequence Config.standard i.decoded s = .error f := by
  rw [exec_eq_runDecoded, runDecoded_fault]

theorem reachesUpdate_addresses (h : ReachesUpdate i s x dst op1 res m) :
    operandAddresses Config.standard i.fields s = .ok x := by
  cases h with
  | plain _ _ hx _ => exact hx
  | call _ _ hready _ =>
    obtain ⟨hx, -⟩ := hready
    exact hx
  | assertEq _ _ _ _ hx _ => exact hx

/-- An instruction that reaches the register updates ends as they do, on the memory with its write-backs done. -/
theorem sequence_of_reachesUpdate (h : ReachesUpdate i s x dst op1 res m) :
    Machine.sequence Config.standard i.decoded s = registerUpdates i.decoded s { s with mem := m }
      { dst := dst, op0 := none, op1 := op1, res := res } := by
  have hx := reachesUpdate_addresses h
  cases h with
  | plain _ hop _ hr =>
    have hop : i.decoded.opcode = .noOp ∨ i.decoded.opcode = .ret := hop
    exact (sequence_of_assert_ok hx (resolve_plain hop hr) (assertOpcode_plain hop)).trans
      (registerUpdates_op0 _ _ _ _ _ _ _ _)
  | call _ hop hready hr =>
    have hop : i.decoded.opcode = .call := hop
    refine (sequence_of_assert_ok hx (resolve_callReady hop hready hr) ?_).trans (registerUpdates_op0 _ _ _ _ _ _ _ _)
    rw [assertOpcode_call hop, if_neg (fun h => h rfl), if_neg (fun h => h rfl)]
  | assertEq v b fill hop _ hsettles =>
    have hop : i.decoded.opcode = .assertEq := hop
    obtain ⟨⟨dst, op0, op1, res⟩, hl, hresolve⟩ := resolve_aeqSettles hop hsettles
    rw [sequence_of_assert_ok hx hresolve (assertOpcode_settled hop hl)]
    obtain ⟨rfl, rfl, rfl, -⟩ := hl
    exact registerUpdates_op0 _ _ _ _ _ _ _ _

theorem exec_of_faultsEarly {e : ErrorKind} (hx : operandAddresses Config.standard i.fields s = .ok x)
    (h : FaultsEarly i s x e m) : exec i s = .fault (.raised e { s with mem := m }) := by
  refine exec_eq_fault.2 ?_
  cases h with
  | plain hop hr => exact sequence_of_resolve_error hx (resolve_plain_error (d := i.decoded) hop hr)
  | call _ hop hf => exact sequence_of_callFaults (d := i.decoded) hop hx hf
  | assertEq hop hf => exact sequence_of_aeqFaults (d := i.decoded) hop hx hf

/-- Said once: with its addresses formed, an instruction reaches the register updates or faults before them. -/
theorem reachesUpdate_or_faultsEarly (hx : operandAddresses Config.standard i.fields s = .ok x) :
    (∃ dst op1 res m, ReachesUpdate i s x dst op1 res m) ∨ ∃ e m, FaultsEarly i s x e m := by
  have hplain : i.opcode = .noOp ∨ i.opcode = .ret →
      (∃ dst op1 res m, ReachesUpdate i s x dst op1 res m) ∨ ∃ e m, FaultsEarly i s x e m := by
    intro hop
    cases hr : forwardRes Config.standard i.fields.resLogic (Memory.get s.mem x.op0) (Memory.get s.mem x.op1) with
    | ok r => exact .inl ⟨_, _, _, _, .plain r hop hx hr⟩
    | error e => exact .inr ⟨e, _, .plain e hop hr⟩
  cases hop : i.opcode with
  | noOp => exact hplain (.inl hop)
  | ret => exact hplain (.inr hop)
  | call =>
    rcases callReady_or_callFaults i.fields s hx with ⟨r, hready, hr⟩ | ⟨e, m, hf⟩
    · exact .inl ⟨_, _, _, _, .call r hop hready hr⟩
    · exact .inr ⟨e, m, .call e m hop hf⟩
  | assertEq =>
    rcases aeqSettles_or_aeqFaults i.fields s x with ⟨v, b, fill, hsettles⟩ | ⟨e, hf⟩
    · exact .inl ⟨_, _, _, _, .assertEq v b fill hop hx hsettles⟩
    · exact .inr ⟨e, _, .assertEq e hop hf⟩

/-- An instruction that reaches the register updates and has its three next values completes with them. -/
theorem exec_of_reachesUpdate {pc ap fp : Ptr} (h : ReachesUpdate i s x dst op1 res m)
    (hpc : nextPc Config.standard i.decoded s { dst := dst, op0 := none, op1 := op1, res := res } = .ok pc)
    (hap : nextAp Config.standard i.fields.apUpdate s res = .ok ap)
    (hfp : nextFp Config.standard (fpUpdateOf i.opcode) s dst = .ok fp) :
    exec i s = .next { s with pc := pc, ap := ap, fp := fp, mem := m, steps := s.steps + 1 } := by
  rw [exec_eq_next, sequence_of_reachesUpdate h]
  exact registerUpdates_eq_ok hpc hap hfp

/-- Said once: an instruction completes only from the register updates, with the three next values. -/
theorem reachesUpdate_of_exec_next (h : exec i s = .next t) :
    ∃ x dst op1 res m pc ap fp, ReachesUpdate i s x dst op1 res m ∧
      nextPc Config.standard i.decoded s { dst := dst, op0 := none, op1 := op1, res := res } = .ok pc ∧
      nextAp Config.standard i.fields.apUpdate s res = .ok ap ∧
      nextFp Config.standard (fpUpdateOf i.opcode) s dst = .ok fp ∧ t = commit { s with mem := m } pc ap fp := by
  have hseq := exec_eq_next.1 h
  obtain ⟨x, -, -, -, -, -, hx, -⟩ := sequence_ok hseq
  rcases reachesUpdate_or_faultsEarly hx with ⟨dst, op1, res, m, hreach⟩ | ⟨e, m, hf⟩
  · rw [sequence_of_reachesUpdate hreach] at hseq
    obtain ⟨pc, ap, fp, hpc, hap, hfp, rfl⟩ := registerUpdates_ok hseq
    exact ⟨x, dst, op1, res, m, pc, ap, fp, hreach, hpc, hap, hfp, rfl⟩
  · rw [exec_of_faultsEarly hx hf] at h
    cases h

/-- Said once: an instruction faults in the address stage, before the register updates, or at them. -/
theorem exec_fault_cases {e : ErrorKind} (h : exec i s = .fault (.raised e t)) :
    (operandAddresses Config.standard i.fields s = .error e ∧ t = s) ∨
      ∃ x, operandAddresses Config.standard i.fields s = .ok x ∧
        ((∃ m, FaultsEarly i s x e m ∧ t = { s with mem := m }) ∨
          ∃ dst op1 res m, ReachesUpdate i s x dst op1 res m ∧ t = { s with mem := m } ∧
            UpdateFaults i.decoded s { dst := dst, op0 := none, op1 := op1, res := res } e) := by
  cases hx : operandAddresses Config.standard i.fields s with
  | error e' =>
    rw [exec_of_addresses_error hx] at h
    cases h
    exact .inl ⟨rfl, rfl⟩
  | ok x =>
    refine .inr ⟨x, rfl, ?_⟩
    rcases reachesUpdate_or_faultsEarly hx with ⟨dst, op1, res, m, hreach⟩ | ⟨e', m, hf⟩
    · have hseq := exec_eq_fault.1 h
      rw [sequence_of_reachesUpdate hreach] at hseq
      obtain ⟨e', hupdate, heq⟩ := registerUpdates_error hseq
      cases heq
      exact .inr ⟨dst, op1, res, m, hreach, rfl, hupdate⟩
    · rw [exec_of_faultsEarly hx hf] at h
      cases h
      exact .inl ⟨m, hf, rfl⟩

end Instruction

/-! NoOp (R150 to R153). -/

/-- Settles O29: NOP.REG reaches the register updates with what it reads, and Regular is the next pc. -/
theorem nopRegCompletes : Obligations.NopRegCompletes :=
  fun _ s _ r _ hx hr hap => exec_of_reachesUpdate (.plain r (.inl rfl) hx hr) (nextPc_regular rfl s _) hap rfl

/-- Settles O30: a Ptr res is the next pc. -/
theorem nopJmpCompletes : Obligations.NopJmpCompletes :=
  fun _ s _ _ _ hx hr hap => exec_of_reachesUpdate (.plain _ (.inl rfl) hx hr) (nextPc_jump rfl s _) hap rfl

/-- Settles O31: the next pc is the sum of pc and a Field res. -/
theorem nopJrelCompletes : Obligations.NopJrelCompletes :=
  fun _ s _ _ _ hx hr hap => exec_of_reachesUpdate (.plain _ (.inl rfl) hx hr) (nextPc_jumpRel rfl s _) hap rfl

/-- Settles O32: the zero test of dst chooses between the two transfers. -/
theorem nopJnzCompletes : Obligations.NopJnzCompletes := by
  intro f s x v r ap hx hv hr hap
  have hreach := ReachesUpdate.plain (i := .nopJnz f) r (.inl rfl) hx hr
  refine ⟨fun hz => exec_of_reachesUpdate hreach (nextPc_jnz_zero rfl hv hz s) hap rfl,
    fun e hz hop1 => exec_of_reachesUpdate hreach ?_ hap rfl⟩
  rw [nextPc_jnz_taken rfl hv hz, hop1]

/-! Call (R154 to R157). -/

/-- Settles O33: CALL.REG reaches the register updates with its frame written, and fp becomes ap + 2. -/
theorem callRegCompletes : Obligations.CallRegCompletes :=
  fun _ s _ r _ hready hr hap =>
    exec_of_reachesUpdate (.call r rfl hready hr) (nextPc_regular rfl s _) hap (ptrAdd_standard s.ap 2)

/-- Settles O34: a Ptr res is the next pc, and the frame is that of O33. -/
theorem callJmpCompletes : Obligations.CallJmpCompletes :=
  fun _ s _ _ _ hready hr hap =>
    exec_of_reachesUpdate (.call _ rfl hready hr) (nextPc_jump rfl s _) hap (ptrAdd_standard s.ap 2)

/-- Settles O35: the next pc is the sum of pc and a Field res, and the frame is that of O33. -/
theorem callJrelCompletes : Obligations.CallJrelCompletes :=
  fun _ s _ _ _ hready hr hap =>
    exec_of_reachesUpdate (.call _ rfl hready hr) (nextPc_jumpRel rfl s _) hap (ptrAdd_standard s.ap 2)

/-- A Ptr is zero for Jnz exactly when it is `Ptr(0,0)` (R140). -/
theorem isZero_ptr_eq_false {p : Ptr} (h : p ≠ ⟨0, 0⟩) : isZero (.ptr p) = false :=
  decide_eq_false h

/-- Settles O36: the dst that is tested is the old fp. -/
theorem callJnzCompletes : Obligations.CallJnzCompletes := by
  intro f s x r ap hready hr hap
  have hreach := ReachesUpdate.call (i := .callJnz f) r rfl hready hr
  refine ⟨fun hz => exec_of_reachesUpdate hreach (nextPc_jnz_zero rfl rfl ((isZero_ptr_iff _).2 hz) s) hap
    (ptrAdd_standard s.ap 2), fun e hne hop1 => exec_of_reachesUpdate hreach ?_ hap (ptrAdd_standard s.ap 2)⟩
  rw [nextPc_jnz_taken rfl rfl (isZero_ptr_eq_false hne), hop1]

/-! Ret (R158 to R161). -/

/-- A Ret that reads a Ptr at dst restores it (R147). -/
theorem nextFp_ret {s : State} {a q : Ptr} (h : Memory.get s.mem a = some (.ptr q)) :
    nextFp Config.standard (fpUpdateOf .ret) s (Memory.get s.mem a) = .ok q := by
  rw [h]
  rfl

/-- Settles O37: RET.REG reaches the register updates with what it reads, and dst is the next fp. -/
theorem retRegCompletes : Obligations.RetRegCompletes :=
  fun _ s _ r _ _ hx hq hr hap =>
    exec_of_reachesUpdate (.plain r (.inr rfl) hx hr) (nextPc_regular rfl s _) hap (nextFp_ret hq)

/-- Settles O38: a Ptr res is the next pc, and the fp is that of O37. -/
theorem retJmpCompletes : Obligations.RetJmpCompletes :=
  fun _ s _ _ _ _ hx hq hr hap =>
    exec_of_reachesUpdate (.plain _ (.inr rfl) hx hr) (nextPc_jump rfl s _) hap (nextFp_ret hq)

/-- Settles O39: the next pc is the sum of pc and a Field res, and the fp is that of O37. -/
theorem retJrelCompletes : Obligations.RetJrelCompletes :=
  fun _ s _ _ _ _ hx hq hr hap =>
    exec_of_reachesUpdate (.plain _ (.inr rfl) hx hr) (nextPc_jumpRel rfl s _) hap (nextFp_ret hq)

/-- Settles O40: the dst that is tested is the restored fp. -/
theorem retJnzCompletes : Obligations.RetJnzCompletes := by
  intro f s x r ap q hx hq hr hap
  have hreach := ReachesUpdate.plain (i := .retJnz f) r (.inr rfl) hx hr
  have hfp := nextFp_ret hq
  refine ⟨fun hz => exec_of_reachesUpdate hreach (nextPc_jnz_zero rfl hq ((isZero_ptr_iff _).2 hz) s) hap hfp,
    fun e hne hop1 => exec_of_reachesUpdate hreach ?_ hap hfp⟩
  rw [nextPc_jnz_taken rfl hq (isZero_ptr_eq_false hne), hop1]

/-! AssertEq (R162 to R165). -/

/-- Settles O41: AEQ.REG reaches the register updates with its operands settled. -/
theorem aeqRegCompletes : Obligations.AeqRegCompletes :=
  fun _ s _ v b fill _ hx hsettles hap =>
    exec_of_reachesUpdate (.assertEq v b fill rfl hx hsettles) (nextPc_regular rfl s _) hap rfl

/-- Settles O42: the settled value is res, and a Ptr is the next pc. -/
theorem aeqJmpCompletes : Obligations.AeqJmpCompletes :=
  fun _ s _ _ b fill _ hx hsettles hap =>
    exec_of_reachesUpdate (.assertEq _ b fill rfl hx hsettles) (nextPc_jump rfl s _) hap rfl

/-- Settles O43: the settled value is res, and a Field is added to pc. -/
theorem aeqJrelCompletes : Obligations.AeqJrelCompletes :=
  fun _ s _ _ b fill _ hx hsettles hap =>
    exec_of_reachesUpdate (.assertEq _ b fill rfl hx hsettles) (nextPc_jumpRel rfl s _) hap rfl

/-- Settles O44: the dst that is tested is the settled value, and op1 is the one given or deduced. -/
theorem aeqJnzCompletes : Obligations.AeqJnzCompletes := by
  intro f s x v b fill ap hx hsettles hap
  have hreach := ReachesUpdate.assertEq (i := .aeqJnz f) v b fill rfl hx hsettles
  refine ⟨fun hz => exec_of_reachesUpdate hreach (nextPc_jnz_zero rfl rfl hz s) hap rfl, fun e hz hb => ?_⟩
  subst hb
  exact exec_of_reachesUpdate hreach (nextPc_jnz_taken rfl rfl hz s) hap rfl

end Sys2Proof.Proofs.Instructions
end

section
/-! PROOFS. What a completed instruction writes and leaves unchanged (44_assert_update.md R145 to R149;
70_reset_and_hazards.md R201, R202, R208). -/

open Sys2Proof Sys2Proof.Machine

namespace Sys2Proof.Proofs.Frames

open Sys2Proof.Proofs.Operands Sys2Proof.Proofs.Cascade Sys2Proof.Proofs.Instructions

/-! The memory at the register updates, opcode by opcode. -/

section Reached

variable {i : Instr} {s : State} {x : Addrs} {dst op1 res : Option Word} {m : Memory}

/-- NoOp and Ret: what is read, and nothing written. -/
theorem reaches_plain (hop : i.opcode = .noOp ∨ i.opcode = .ret) (h : ReachesUpdate i s x dst op1 res m) :
    dst = Memory.get s.mem x.dst ∧ m = s.mem := by
  cases h with
  | plain => exact ⟨rfl, rfl⟩
  | call _ hcall => simp [hcall] at hop
  | assertEq _ _ _ haeq => simp [haeq] at hop

/-- Call: dst is the old fp, and the frame is written. -/
theorem reaches_call (hop : i.opcode = .call) (h : ReachesUpdate i s x dst op1 res m) :
    dst = some (.ptr s.fp) ∧ CallReady i.fields s x ∧ m = callMemory i.fields s x := by
  cases h with
  | plain _ hplain => simp [hop] at hplain
  | call _ _ hready => exact ⟨rfl, hready, rfl⟩
  | assertEq _ _ _ haeq => simp [hop] at haeq

/-- AssertEq: dst and res are one word, and the cell of the settled operands is written. -/
theorem reaches_assertEq (hop : i.opcode = .assertEq) (h : ReachesUpdate i s x dst op1 res m) :
    ∃ v b fill, dst = some v ∧ res = some v ∧ AeqSettles i.fields s x v b fill ∧ m = Memory.withCell s.mem fill := by
  cases h with
  | plain _ hplain => simp [hop] at hplain
  | call _ hcall => simp [hop] at hcall
  | assertEq v b fill _ _ hsettles => exact ⟨v, b, fill, rfl, rfl, hsettles, rfl⟩

end Reached

/-! The frame of a Call. -/

section CallMemory

variable {f : Fields} {s : State} {x : Addrs}

/-- A Call that is ready leaves the return address at op0. -/
theorem callMemory_op0 (h : CallReady f s x) :
    Memory.get (callMemory f s x) x.op0 = some (.ptr (pastInstr f s)) := by
  obtain ⟨-, hop0, -⟩ := h
  refine grows_fill _ _ _ _ _ (get_fill_self fun v hv => ?_)
  rcases hop0 with hget | ⟨hget, -⟩ <;> rw [hget] at hv <;> cases hv
  rfl

/-- A Call that is ready leaves the old fp at dst. -/
theorem callMemory_dst (h : CallReady f s x) : Memory.get (callMemory f s x) x.dst = some (.ptr s.fp) :=
  get_fill_self (callReady_dst h)

theorem callMemory_other {b : Ptr} (hd : b ≠ x.dst) (h0 : b ≠ x.op0) :
    Memory.get (callMemory f s x) b = Memory.get s.mem b := by
  rw [callMemory, get_fill_other _ _ hd, get_fill_other _ _ h0]

end CallMemory

/-! The cell an AssertEq writes. -/

section AeqMemory

variable {f : Fields} {s : State} {x : Addrs} {v b : Word} {fill : Option Cell}

/-- The cell written is the first Empty one of dst, op1 and op0 (R127). -/
theorem aeqTarget_of_settles (h : AeqSettles f s x v b fill) : aeqTarget s x = fill.map Prod.fst := by
  cases h with
  | check _ _ hv ha hb _ => simp [aeqTarget, hv, ha, hb]
  | assign _ _ hv _ _ _ _ => simp [aeqTarget, hv]
  | op0Add _ _ _ hv ha _ hb _ => simp [aeqTarget, hv, ha, hb]
  | op0Mul _ _ _ hv ha _ hb _ _ => simp [aeqTarget, hv, ha, hb]
  | op1Op1 _ hv hb _ => simp [aeqTarget, hv, hb]
  | op1Add _ _ _ hv _ hb _ _ => simp [aeqTarget, hv, hb]
  | op1Mul _ _ _ hv _ hb _ _ _ => simp [aeqTarget, hv, hb]

theorem get_withCell_other (m : Memory) {a : Ptr} (h : fill.map Prod.fst ≠ some a) :
    Memory.get (Memory.withCell m fill) a = Memory.get m a := by
  cases fill with
  | none => rfl
  | some cell => exact get_put_other m cell.2 fun heq => h (congrArg some heq.symm)

/-- Settled operands write an Empty cell, so the memory grows. -/
theorem grows_withCell (h : AeqSettles f s x v b fill) : Memory.grows s.mem (Memory.withCell s.mem fill) := by
  cases fill with
  | none => exact grows_refl _
  | some cell => exact grows_put (aeqSettles_cell h).1 _

/-- After the write-back the dst cell holds the settled value (R208). -/
theorem get_withCell_dst (h : AeqSettles f s x v b fill) :
    Memory.get (Memory.withCell s.mem fill) x.dst = some v := by
  have hgrows := grows_withCell h
  cases h with
  | assign _ _ _ _ _ _ _ => exact get_put_self _ _ _
  | check _ _ hv _ _ _ => exact hv
  | op0Add _ _ _ hv _ _ _ _ => exact hgrows _ _ hv
  | op0Mul _ _ _ hv _ _ _ _ _ => exact hgrows _ _ hv
  | op1Op1 _ hv _ _ => exact hgrows _ _ hv
  | op1Add _ _ _ hv _ _ _ _ => exact hgrows _ _ hv
  | op1Mul _ _ _ hv _ _ _ _ _ => exact hgrows _ _ hv

end AeqMemory

/-! The statements on the frames. -/

theorem nextFp_regular {s : State} {dst : Option Word} {fp : Ptr} (h : nextFp Config.standard .regular s dst = .ok fp) :
    fp = s.fp := (Except.ok.inj h).symm

/-- Settles O45: a NoOp that completes wrote nothing, and its fp_update is Regular. -/
theorem noOpFrame : Obligations.NoOpFrame := by
  intro i s t hop h
  obtain ⟨x, dst, op1, res, m, pc, ap, fp, hreach, -, -, hfp, rfl⟩ := reachesUpdate_of_exec_next h
  obtain ⟨-, rfl⟩ := reaches_plain (.inl hop) hreach
  rw [hop] at hfp
  exact ⟨nextFp_regular hfp, rfl, rfl, rfl, fun _ => rfl⟩

/-- Settles O46: a Ret that completes wrote nothing, and its fp is the Ptr it read at dst. -/
theorem retFrame : Obligations.RetFrame := by
  intro i s t hop h
  obtain ⟨x, dst, op1, res, m, pc, ap, fp, hreach, -, -, hfp, rfl⟩ := reachesUpdate_of_exec_next h
  obtain ⟨hd, -⟩ := operandAddresses_ok (reachesUpdate_addresses hreach)
  obtain ⟨rfl, rfl⟩ := reaches_plain (.inr hop) hreach
  refine ⟨⟨x.dst, hd, ?_⟩, rfl, rfl, rfl, fun _ => rfl⟩
  rw [hop] at hfp
  rcases hcell : Memory.get s.mem x.dst with _ | e | q <;> rw [hcell] at hfp <;> cases hfp
  rfl

/-- Settles O47: a Call that completes wrote its frame and nothing else. -/
theorem callFrame : Obligations.CallFrame := by
  intro i s t hop h
  obtain ⟨x, dst, op1, res, m, pc, ap, fp, hreach, -, -, hfp, rfl⟩ := reachesUpdate_of_exec_next h
  obtain ⟨hd, ha, -⟩ := operandAddresses_ok (reachesUpdate_addresses hreach)
  obtain ⟨-, hready, rfl⟩ := reaches_call hop hreach
  rw [hop] at hfp
  obtain ⟨-, hfp⟩ := ptrAdd_ok hfp
  exact ⟨hfp, rfl, rfl, rfl, x.dst, x.op0, hd, ha, callMemory_op0 hready, callMemory_dst hready,
    fun b hd h0 => callMemory_other hd h0⟩

/-- Settles O48: an AssertEq that completes wrote the cell that its operands settle by, which is `aeqTarget`. -/
theorem aeqFrame : Obligations.AeqFrame := by
  intro i s t hop h
  obtain ⟨x, dst, op1, res, m, pc, ap, fp, hreach, -, -, hfp, rfl⟩ := reachesUpdate_of_exec_next h
  have hx := reachesUpdate_addresses hreach
  obtain ⟨v, b, fill, -, -, hsettles, rfl⟩ := reaches_assertEq hop hreach
  rw [hop] at hfp
  refine ⟨nextFp_regular hfp, rfl, rfl, rfl, x, hx, ⟨v, get_withCell_dst hsettles⟩, ?_, ?_⟩ <;>
    rw [aeqTarget_of_settles hsettles] <;> intro a ha
  · cases fill with
    | none => cases ha
    | some cell =>
      cases ha
      exact ⟨(aeqSettles_cell hsettles).1, cell.2, get_put_self _ _ _⟩
  · exact get_withCell_other s.mem ha

/-- Settles O49: what reached the register updates, and the three next values there. -/
theorem completesOnlyByItsTransition : Obligations.CompletesOnlyByItsTransition := by
  intro i s t h
  obtain ⟨x, dst, op1, res, m, pc, ap, fp, hreach, hpc, hap, hfp, rfl⟩ := reachesUpdate_of_exec_next h
  refine ⟨x, dst, none, op1, res, m, hreach, rfl, hpc, hap, hfp, fun hop => ?_⟩
  obtain ⟨v, b, fill, -, hres, hsettles, rfl⟩ := reaches_assertEq hop hreach
  exact ⟨v, hres, get_withCell_dst hsettles⟩

/-! The registers move forward (R201, R202). -/

/-- A sum keeps the segment and does not move back. -/
theorem ptrAdd_forward {c : Config} {p q : Ptr} {n : Nat} (h : ptrAdd c p n = .ok q) :
    q.seg = p.seg ∧ p.off ≤ q.off := by
  obtain ⟨-, rfl⟩ := ptrAdd_ok h
  exact ⟨rfl, Nat.le_add_right _ _⟩

theorem nextAp_forward {c : Config} {a : ApUpdate} {s : State} {res : Option Word} {ap : Ptr}
    (h : nextAp c a s res = .ok ap) : ap.seg = s.ap.seg ∧ s.ap.off ≤ ap.off := by
  unfold nextAp at h
  split at h
  · cases h
    exact ⟨rfl, le_rfl⟩
  · split at h
    · cases h
    · cases h
    · exact ptrAdd_forward h
  · exact ptrAdd_forward h
  · exact ptrAdd_forward h

theorem nextPc_forward {c : Config} {d : Decoded} {s : State} {l : Locals} {pc : Ptr} (hd : d.pcUpdate ≠ .jump)
    (h : nextPc c d s l = .ok pc) : pc.seg = s.pc.seg ∧ s.pc.off ≤ pc.off := by
  unfold nextPc at h
  split at h
  · exact ptrAdd_forward h
  · next hjump => exact absurd hjump hd
  · split at h
    · exact ptrAdd_forward h
    · cases h
    · cases h
  · split at h
    · cases h
    · split at h
      · exact ptrAdd_forward h
      · split at h
        · exact ptrAdd_forward h
        · cases h
        · cases h

/-- Settles O50: every next value but a Jump's pc and a Ret's fp is a sum from its register. -/
theorem registersMoveForward : Obligations.RegistersMoveForward := by
  intro i s t h
  obtain ⟨x, dst, op1, res, m, pc, ap, fp, -, hpc, hap, hfp, rfl⟩ := reachesUpdate_of_exec_next h
  obtain ⟨hseg, hoff⟩ := nextAp_forward hap
  refine ⟨hseg, hoff, fun hjump => nextPc_forward hjump hpc, fun hop => ?_, fun hop => ?_⟩
  · rw [hop] at hfp
    exact (ptrAdd_forward hfp).1
  · rcases hop with hop | hop <;> rw [hop] at hfp <;> exact nextFp_regular hfp

end Sys2Proof.Proofs.Frames
end

section
/-! PROOFS. Where an instruction faults, with which error, and what it leaves (43_step_resolution.md R124 to R126;
44_assert_update.md R131 to R147; 60_exceptions.md R176, R187; 70_reset_and_hazards.md R198). -/

open Sys2Proof Sys2Proof.Machine

namespace Sys2Proof.Proofs.Faults

open Sys2Proof.Proofs.Operands Sys2Proof.Proofs.Cascade Sys2Proof.Proofs.Instructions Sys2Proof.Proofs.Frames
  Sys2Proof.Proofs.Decoder

/-! The statements that list the ways of faulting: each clause is one constructor. -/

/-- Settles O55: there is no res, whatever the operands are. -/
theorem aeqJnzUnconstrainedAlwaysFails : Obligations.AeqJnzUnconstrainedAlwaysFails :=
  fun _ _ _ hr hx => exec_of_faultsEarly hx (.assertEq _ rfl (.unconstrained hr))

/-- Settles O56: its clauses are the ways of `AeqFaults`. -/
theorem assertEqFaults : Obligations.AssertEqFaults := by
  intro i s x hop hx
  have hfault : ∀ {e : ErrorKind}, AeqFaults i.fields s x e → exec i s = .fault (.raised e s) :=
    fun h => exec_of_faultsEarly hx (.assertEq _ hop h)
  exact ⟨fun v a b w hv ha hb hr hne => hfault (.differs v a b w hv ha hb hr hne),
    fun a b e ha hb hr => hfault (.res a b e ha hb hr),
    fun hv hmissing => hfault (.noDst hv hmissing),
    fun hr ha hb => hfault (.noOperands hr ha hb),
    fun b hr ha hb => hfault (.noOp0 b hr ha hb),
    fun hr ha hb => hfault (.zeroOp1 hr ha hb),
    fun hr hb ha => hfault (.zeroOp0 hr hb ha),
    fun hr => hfault (.unconstrained hr),
    fun v k e hv hknown hd => hfault (.deduction v k e hv hknown hd),
    fun v b cell hsettles hseg => hfault (.unallocated v b cell hsettles hseg)⟩

/-- Settles O57: its clauses are the one way of NoOp and Ret, and the ways of `CallFaults` but that of one Empty cell.
-/
theorem noOpRetCallFaults : Obligations.NoOpRetCallFaults := by
  intro i s x hx
  refine ⟨fun hop e hr => exec_of_faultsEarly hx (.plain e hop hr), fun hop => ?_⟩
  have hfault : ∀ {e : ErrorKind} {m : Memory}, CallFaults i.fields s x e m →
      exec i s = .fault (.raised e { s with mem := m }) := fun h => exec_of_faultsEarly hx (.call _ _ hop h)
  exact ⟨fun hget hseg => hfault (.op0Unallocated hget hseg), fun w e hw hr => hfault (.res w e hw hr),
    fun w r hw hr hget hseg => hfault (.dstUnallocated w r hw hr hget hseg),
    fun v r hget hne hdst hr => hfault (.badOp0 v r hget hne hdst hr),
    fun v r hop0 hget hne hr => hfault (.badDst v r hop0 hget hne hr)⟩

/-- An instruction that faults at the register updates leaves its write-backs done (R126, R176). -/
theorem exec_of_updateFaults {i : Instr} {s : State} {x : Addrs} {dst op1 res : Option Word} {m : Memory}
    {e : ErrorKind} (hreach : ReachesUpdate i s x dst op1 res m)
    (h : UpdateFaults i.decoded s { dst := dst, op0 := none, op1 := op1, res := res } e) :
    exec i s = .fault (.raised e { s with mem := m }) := by
  rw [exec_eq_fault, sequence_of_reachesUpdate hreach]
  exact registerUpdates_eq_error h

/-- Settles O58: each clause is one of the three next values, the ones before it being formed. -/
theorem registerUpdateFaultsKeepTheWrites : Obligations.RegisterUpdateFaultsKeepTheWrites := by
  intro i s x dst op1 res m hreach
  refine ⟨fun hu hres => exec_of_updateFaults hreach (.pc ?jump),
    fun hu hres => exec_of_updateFaults hreach (.pc ?jumpRel),
    fun hu hd => exec_of_updateFaults hreach (.pc (nextPc_jnz_absent hu hd s)),
    fun v hu hd hz hop1 => exec_of_updateFaults hreach (.pc ?jnz), fun op0 p hpc => ?_⟩
  case jump =>
    rw [nextPc_jump hu]
    rcases res with _ | e | q
    · rfl
    · rfl
    · exact absurd rfl (hres q)
  case jumpRel =>
    rw [nextPc_jumpRel hu]
    rcases res with _ | e | q
    · rfl
    · exact absurd rfl (hres e)
    · rfl
  case jnz =>
    rw [nextPc_jnz_taken hu hd hz]
    rcases op1 with _ | e | q
    · rfl
    · exact absurd rfl (hop1 e)
    · rfl
  refine ⟨fun ha hres => exec_of_updateFaults hreach (.ap p hpc ?absent),
    fun q ha hres => exec_of_updateFaults hreach (.ap p hpc ?pointer),
    fun ap hap hop hdst => exec_of_updateFaults hreach (.fp p ap hpc hap ?fp)⟩
  case absent =>
    subst hres
    exact congrArg (nextAp Config.standard · s none) ha
  case pointer =>
    subst hres
    exact congrArg (nextAp Config.standard · s (some (.ptr q))) ha
  case fp =>
    refine (congrArg (fun o => nextFp Config.standard (fpUpdateOf o) s dst) hop).trans ?_
    rcases dst with _ | e | q
    · rfl
    · rfl
    · exact absurd rfl (hdst q)

/-! What a fault leaves (R126, R176, R178). -/

/-- The local op0 of a Call is one word. -/
theorem callOp0_unique {f : Fields} {s : State} {x : Addrs} {v w : Word} (hv : callOp0 f s x v)
    (hw : callOp0 f s x w) : v = w := by
  rcases hv with hv | ⟨hn, -, rfl⟩ <;> rcases hw with hw | ⟨hn', -, rfl⟩
  · exact Option.some.inj (hv.symm.trans hw)
  · rw [hn'] at hv
    cases hv
  · rw [hn] at hw
    cases hw
  · rfl

theorem callOp0_of_empty {f : Fields} {s : State} {x : Addrs} {w : Word} (hw : callOp0 f s x w)
    (hn : Memory.get s.mem x.op0 = none) : x.op0.seg < s.nseg ∧ w = .ptr (pastInstr f s) := by
  rcases hw with hw | ⟨-, hseg, rfl⟩
  · rw [hn] at hw
    cases hw
  · exact ⟨hseg, rfl⟩

section CallLeaves

variable {f : Fields} {s : State} {x : Addrs} {e : ErrorKind} {m : Memory}

/-- Filling an Empty cell is read back. -/
theorem get_fill_empty {mem : Memory} {a : Ptr} (h : Memory.get mem a = none) (w : Word) :
    Memory.get (Memory.fill mem a w) a = some w := by
  rw [fill_empty h, get_put_self]

/-- A Call that faults before the register updates leaves the return address it put at op0. -/
theorem callFaults_op0 (h : CallFaults f s x e m) (hn : Memory.get s.mem x.op0 = none) (hseg : x.op0.seg < s.nseg) :
    Memory.get m x.op0 = some (.ptr (pastInstr f s)) := by
  cases h with
  | op0Unallocated _ hseg' => omega
  | res w _ hw _ =>
    obtain ⟨-, rfl⟩ := callOp0_of_empty hw hn
    exact get_fill_empty hn _
  | dstUnallocated w _ hw _ _ _ =>
    obtain ⟨-, rfl⟩ := callOp0_of_empty hw hn
    exact get_fill_empty hn _
  | oneCell _ _ _ _ _ _ => exact get_put_self _ _ _
  | badOp0 v _ hget _ _ _ =>
    rw [hn] at hget
    cases hget
  | badDst v _ _ _ _ _ => exact get_fill_empty hn _

/-- A Call that faults before the register updates, but after its res was computed, leaves the fp it put at dst. -/
theorem callFaults_dst {w : Word} {r : Option Word} (h : CallFaults f s x e m) (hw : callOp0 f s x w)
    (hn : Memory.get s.mem x.dst = none) (hseg : x.dst.seg < s.nseg) (hne : x.dst ≠ x.op0)
    (hr : forwardRes Config.standard f.resLogic (some w) (Memory.get s.mem x.op1) = .ok r) :
    Memory.get m x.dst = some (.ptr s.fp) := by
  cases h with
  | op0Unallocated hget hseg' =>
    have := (callOp0_of_empty hw hget).1
    omega
  | res w' _ hw' hr' =>
    rw [callOp0_unique hw' hw, hr] at hr'
    cases hr'
  | dstUnallocated _ _ _ _ _ hseg' => omega
  | oneCell _ heq _ _ _ _ => exact absurd heq hne
  | badOp0 _ _ _ _ _ _ => exact get_fill_empty hn _
  | badDst v _ _ hget _ _ =>
    rw [hn] at hget
    cases hget

end CallLeaves

/-- Settles O51: what the write-backs keep, and what each way of faulting has written. -/
theorem faultLeavesRegistersAndKeepsWrites : Obligations.FaultLeavesRegistersAndKeepsWrites := by
  refine ⟨fun s t e h => ?step, fun i s t e hop h => ?plain, fun i s t e x dst op1 res m h hreach => ?update,
    fun i s t e x hop h hx => ?call⟩
  case step =>
    rw [← stepUnder_standard] at h
    rcases stepUnder_cases Config.standard s with
      ⟨-, h'⟩ | ⟨-, ⟨i, x, u, pc, ap, fp, -, -, hk, h'⟩ | ⟨e', h'⟩ | ⟨i, x, e', u, hf, hx, hk, h'⟩⟩ <;>
      rw [h'] at h <;> cases h
    · exact ⟨sameRegs_refl s, grows_refl _, .inl rfl⟩
    · obtain ⟨hregs, hgrows, -, hframe⟩ := hk
      exact ⟨hregs, hgrows, .inr ⟨i, x, hf, hx, hframe⟩⟩
  case plain =>
    rcases exec_fault_cases h with ⟨-, rfl⟩ | ⟨x, -, ⟨m, hf, rfl⟩ | ⟨dst, op1, res, m, hreach, rfl, -⟩⟩
    · rfl
    · cases hf with
      | plain => rfl
      | call _ hcall => simp [hcall] at hop
      | assertEq => rfl
    · obtain ⟨-, rfl⟩ := reaches_plain hop hreach
      rfl
  case update =>
    rw [exec_eq_fault, sequence_of_reachesUpdate hreach] at h
    obtain ⟨_, -, hf⟩ := registerUpdates_error h
    cases hf
    rfl
  case call =>
    rcases exec_fault_cases h with ⟨he, -⟩ | ⟨x', hx', hcases⟩
    · rw [hx] at he
      cases he
    rw [hx] at hx'
    cases hx'
    rcases hcases with ⟨m, hf, rfl⟩ | ⟨dst, op1, res, m, hreach, rfl, -⟩
    · cases hf with
      | plain hplain => simp [hop] at hplain
      | assertEq haeq => simp [hop] at haeq
      | call _ _ hf =>
        exact ⟨callFaults_op0 hf, fun w r hw hn hseg hne hr => callFaults_dst hf hw hn hseg hne hr⟩
    · obtain ⟨-, hready, rfl⟩ := reaches_call hop hreach
      exact ⟨fun _ _ => callMemory_op0 hready, fun _ _ _ _ _ _ _ => callMemory_dst hready⟩

/-! Which errors there are (R187). -/

/-- With unbounded offsets res can only meet a wrong variant. -/
theorem forwardRes_error {r : ResLogic} {op0 op1 : Option Word} {e : ErrorKind}
    (h : forwardRes Config.standard r op0 op1 = .error e) : e = .typeMismatch := by
  unfold forwardRes at h
  split at h
  · unfold computeRes at h
    split at h
    · cases h
    · rcases wadd_error (except_map_error.1 h) with he | ⟨-, n, hn⟩
      · exact he
      · cases hn
    · exact wmul_error (except_map_error.1 h)
    · cases h
  · cases h

/-- The errors of a Call before the register updates; WriteOnce is that of a Call with one Empty cell for both. -/
theorem callFaults_error {f : Fields} {s : State} {x : Addrs} {e : ErrorKind} {m : Memory} (h : CallFaults f s x e m) :
    e ∈ [.typeMismatch, .segmentOutOfBounds, .writeOnce, .invalidOp0ForCall, .invalidDstForCall] := by
  cases h with
  | res _ _ _ hr => simp [forwardRes_error hr]
  | _ => simp

/-- The errors of an AssertEq before the register updates; a division by zero is swallowed (R124). -/
theorem aeqFaults_error {f : Fields} {s : State} {x : Addrs} {e : ErrorKind} (h : AeqFaults f s x e) :
    e ∈ [.typeMismatch, .offsetUnderflow, .unconstrainedRes, .segmentOutOfBounds, .segmentMismatch,
      .diffAssertValues] := by
  cases h with
  | res a b _ _ _ hr => simp [forwardRes_error (op0 := some a) (op1 := some b) hr]
  | deduction v k _ _ _ hd =>
    rcases hd with ⟨-, hd⟩ | ⟨-, hne, hd⟩
    · rcases wsub_error hd with rfl | rfl | rfl <;> simp
    · rcases wdiv_error hd with rfl | ⟨-, hk⟩
      · simp
      · exact absurd hk hne
  | _ => simp

theorem nextAp_error {a : ApUpdate} {s : State} {res : Option Word} {e : ErrorKind}
    (h : nextAp Config.standard a s res = .error e) : e = .unconstrainedRes ∨ e = .typeMismatch := by
  unfold nextAp at h
  split at h
  · cases h
  · split at h
    · cases h
      exact .inl rfl
    · cases h
      exact .inr rfl
    · rw [ptrAdd_standard] at h
      cases h
  · rw [ptrAdd_standard] at h
    cases h
  · rw [ptrAdd_standard] at h
    cases h

/-- The next fp fails only in a Ret. -/
theorem nextFp_error {o : Opcode} {s : State} {dst : Option Word} {e : ErrorKind}
    (h : nextFp Config.standard (fpUpdateOf o) s dst = .error e) : e = .invalidFpUpdate ∧ o = .ret := by
  cases o with
  | noOp => cases h
  | assertEq => cases h
  | call =>
    rw [fpUpdateOf, nextFp, ptrAdd_standard] at h
    cases h
  | ret =>
    rcases dst with _ | w | q <;> cases h
    · exact ⟨rfl, rfl⟩
    · exact ⟨rfl, rfl⟩

/-- The next pc fails by its selector; only a Jnz whose dst is absent is unconstrained in it. -/
theorem nextPc_error {d : Decoded} {s : State} {l : Locals} {e : ErrorKind}
    (h : nextPc Config.standard d s l = .error e) :
    d.pcUpdate = .jump ∧ e = .invalidJumpTarget ∨ d.pcUpdate = .jumpRel ∧ e = .invalidJumpRelTarget ∨
      d.pcUpdate = .jnz ∧ (e = .unconstrainedJnzDst ∧ l.dst = none ∨ e = .invalidJnzOp1) := by
  cases hu : d.pcUpdate with
  | regular =>
    rw [nextPc_regular hu] at h
    cases h
  | jump =>
    rw [nextPc_jump hu] at h
    split at h <;> cases h
    exact .inl ⟨rfl, rfl⟩
  | jumpRel =>
    rw [nextPc_jumpRel hu] at h
    split at h <;> cases h
    exact .inr (.inl ⟨rfl, rfl⟩)
  | jnz =>
    refine .inr (.inr ⟨rfl, ?_⟩)
    cases hd : l.dst with
    | none =>
      rw [nextPc_jnz_absent hu hd] at h
      cases h
      exact .inl ⟨rfl, rfl⟩
    | some v =>
      cases hz : isZero v with
      | true =>
        rw [nextPc_jnz_zero hu hd hz] at h
        cases h
      | false =>
        rw [nextPc_jnz_taken hu hd hz] at h
        split at h <;> cases h
        exact .inr rfl

/-- The errors of the address stage and of every opcode's res and ap are in every row of the table (R187). -/
theorem mem_possibleErrors_of_common {e : ErrorKind} (o : Opcode) (u : PcUpdate)
    (h : e ∈ [.offsetUnderflow, .typeMismatch, .invalidImmOffset, .unconstrainedRes]) : e ∈ possibleErrors o u :=
  List.mem_append_left _ (List.mem_append_left _ h)

/-- Before the register updates, an instruction ends in the errors of its opcode. -/
theorem mem_possibleErrors_of_faultsEarly {i : Instr} {s : State} {x : Addrs} {e : ErrorKind} {m : Memory}
    (h : FaultsEarly i s x e m) : e ∈ possibleErrors i.opcode i.pcUpdate := by
  cases h with
  | plain _ hr => exact mem_possibleErrors_of_common _ _ (by simp [forwardRes_error hr])
  | call _ hop hc =>
    have hmem := callFaults_error hc
    simp only [possibleErrors, hop, List.mem_append, List.mem_cons, List.not_mem_nil, or_false] at hmem ⊢
    tauto
  | assertEq hop ha =>
    have hmem := aeqFaults_error ha
    simp only [possibleErrors, hop, List.mem_append, List.mem_cons, List.not_mem_nil, or_false] at hmem ⊢
    tauto

/-- Only a NoOp or a Ret gets to the register updates without dst: a Call and an AssertEq have deduced it. -/
theorem reaches_without_dst {i : Instr} {s : State} {x : Addrs} {op1 res : Option Word} {m : Memory}
    (h : ReachesUpdate i s x none op1 res m) : i.opcode = .noOp ∨ i.opcode = .ret := by
  generalize hd : (none : Option Word) = dst at h
  cases h with
  | plain _ hop _ _ => exact hop
  | call => cases hd
  | assertEq => cases hd

/-- At the register updates, an instruction ends in the errors of its pc update, of ap, and of a Ret's fp. -/
theorem mem_possibleErrors_of_updateFaults {i : Instr} {s : State} {x : Addrs} {dst op1 res : Option Word}
    {m : Memory} {e : ErrorKind} (hreach : ReachesUpdate i s x dst op1 res m)
    (h : UpdateFaults i.decoded s { dst := dst, op0 := none, op1 := op1, res := res } e) :
    e ∈ possibleErrors i.opcode i.pcUpdate := by
  cases h with
  | ap _ _ hap => rcases nextAp_error hap with rfl | rfl <;> exact mem_possibleErrors_of_common _ _ (by simp)
  | fp _ _ _ _ hfp =>
    obtain ⟨rfl, hop⟩ := nextFp_error hfp
    have hop : i.opcode = .ret := hop
    simp [possibleErrors, hop]
  | pc hpc =>
    have hcases := nextPc_error hpc
    change i.pcUpdate = .jump ∧ _ ∨ i.pcUpdate = .jumpRel ∧ _ ∨ i.pcUpdate = .jnz ∧ (_ ∧ dst = none ∨ _) at hcases
    rcases hcases with ⟨hu, rfl⟩ | ⟨hu, rfl⟩ | ⟨hu, ⟨rfl, rfl⟩ | rfl⟩
    · simp [possibleErrors, hu]
    · simp [possibleErrors, hu]
    · rcases reaches_without_dst hreach with hop | hop <;> simp [possibleErrors, hu, hop]
    · cases hop : i.opcode <;> simp [possibleErrors, hu]

/-- Settles O52: address stage, cascade and assertion, register updates, each with its errors. -/
theorem errorsAreThoseOfTheTable : Obligations.ErrorsAreThoseOfTheTable := by
  intro i s t e h
  rcases exec_fault_cases h with ⟨he, -⟩ | ⟨x, -, ⟨m, hf, -⟩ | ⟨dst, op1, res, m, hreach, -, hu⟩⟩
  · rcases operandAddresses_error he with rfl | rfl | rfl | ⟨-, n, hn⟩
    · exact mem_possibleErrors_of_common _ _ (by simp)
    · exact mem_possibleErrors_of_common _ _ (by simp)
    · exact mem_possibleErrors_of_common _ _ (by simp)
    · cases hn
  · exact mem_possibleErrors_of_faultsEarly hf
  · exact mem_possibleErrors_of_updateFaults hreach hu

/-! Fetch errors (R61, R111). -/

/-- A word that does not decode has one of the six decode errors (R61). -/
theorem decode_error {w : BitVec 64} {e : ErrorKind} (h : decode w = .error e) :
    e ∈ [.highBitSet, .invalidOp1Src, .invalidResLogic, .invalidPcUpdate, .invalidApUpdate, .invalidOpcode] := by
  unfold decode at h
  split at h
  · cases h
    simp
  rcases except_bind_error.1 h with h | ⟨_, -, h⟩
  · rcases decodeOp1Src_cases (bits w 52 50) with ⟨-, v, hv⟩ | ⟨-, hv⟩ <;> rw [hv] at h <;> cases h
    simp
  rcases except_bind_error.1 h with h | ⟨_, -, h⟩
  · rcases decodeRawRes_cases (bits w 54 53) with ⟨-, v, hv⟩ | ⟨-, hv⟩ <;> rw [hv] at h <;> cases h
    simp
  rcases except_bind_error.1 h with h | ⟨_, -, h⟩
  · rcases decodePcUpdate_cases (bits w 57 55) with ⟨-, v, hv⟩ | ⟨-, hv⟩ <;> rw [hv] at h <;> cases h
    simp
  rcases except_bind_error.1 h with h | ⟨_, -, h⟩
  · rcases decodeRawAp_cases (bits w 59 58) with ⟨-, v, hv⟩ | ⟨-, hv⟩ <;> rw [hv] at h <;> cases h
    simp
  rcases except_bind_error.1 h with h | ⟨_, -, h⟩
  · rcases decodeOpcode_cases (bits w 62 60) with ⟨-, v, hv⟩ | ⟨-, hv⟩ <;> rw [hv] at h <;> cases h
    simp
  · cases h

/-- The errors of the fetch: the two of the cell and those of the decoder (R111). -/
theorem fetch_error {s : State} {e : ErrorKind} (h : fetch s = .error e) :
    e ∈ [.endOfInstructions, .instructionEncodingError, .highBitSet, .invalidOp1Src, .invalidResLogic,
      .invalidPcUpdate, .invalidApUpdate, .invalidOpcode] := by
  cases hcell : Memory.get s.mem s.pc with
  | none =>
    rw [fetch_empty hcell] at h
    cases h
    simp
  | some v =>
    rw [fetch_filled hcell] at h
    cases v with
    | ptr p =>
      cases h
      simp
    | field n =>
      rcases Nat.lt_or_ge n.val (2 ^ 64) with hlt | hge
      · rw [decodeCell_field hlt] at h
        exact List.mem_cons_of_mem _ (List.mem_cons_of_mem _ (decode_error h))
      · rw [decodeCell_wide hge] at h
        cases h
        simp

/-! WriteOnce (R198). -/

/-- No register update ends in WriteOnce. -/
theorem not_updateFaults_writeOnce {d : Decoded} {s : State} {l : Locals} : ¬ UpdateFaults d s l .writeOnce := by
  intro h
  cases h with
  | pc hpc => rcases nextPc_error hpc with ⟨-, h⟩ | ⟨-, h⟩ | ⟨-, ⟨h, -⟩ | h⟩ <;> cases h
  | ap _ _ hap => rcases nextAp_error hap with h | h <;> cases h
  | fp _ _ _ _ hfp =>
    unfold nextFp at hfp
    split at hfp
    · cases hfp
    · rw [ptrAdd_standard] at hfp
      cases hfp
    · split at hfp <;> cases hfp

/-- An instruction that ends in WriteOnce is a Call whose dst and op0 are one Empty cell that is to take two words. -/
theorem exec_writeOnce {i : Instr} {s t : State} (h : exec i s = .fault (.raised .writeOnce t)) :
    ∃ x r, i.opcode = .call ∧ operandAddresses Config.standard i.fields s = .ok x ∧ x.dst = x.op0 ∧
      Memory.get s.mem x.op0 = none ∧ x.op0.seg < s.nseg ∧ pastInstr i.fields s ≠ s.fp ∧
      forwardRes Config.standard i.fields.resLogic (some (.ptr (pastInstr i.fields s))) (Memory.get s.mem x.op1)
        = .ok r ∧ t = { s with mem := Memory.put s.mem x.op0 (.ptr (pastInstr i.fields s)) } := by
  rcases exec_fault_cases h with ⟨he, -⟩ | ⟨x, hx, ⟨m, hf, rfl⟩ | ⟨dst, op1, res, m, -, -, hu⟩⟩
  · rcases operandAddresses_error he with h | h | h | ⟨h, -⟩ <;> cases h
  · cases hf with
    | plain _ hr => cases forwardRes_error hr
    | assertEq _ ha => simpa using aeqFaults_error ha
    | call _ hop hc =>
      cases hc with
      | res _ _ _ hr => cases forwardRes_error hr
      | oneCell r heq hn hseg hne hr => exact ⟨x, r, hop, hx, heq, hn, hseg, hne, hr, rfl⟩
  · exact absurd hu not_updateFaults_writeOnce

/-- Settles O54: only a Call whose dst and op0 are one cell meets an unequal word in a cell it found Empty. -/
theorem writeOnceOnlyFromAnAliasedCall : Obligations.WriteOnceOnlyFromAnAliasedCall := by
  intro s t
  constructor
  · intro h
    rcases Bool.eq_false_or_eq_true s.launched with hl | hl
    swap
    · rw [step_not_launched hl] at h
      cases h
    cases hf : fetch s with
    | error e =>
      rw [step_of_fetch_error hl hf] at h
      cases h
      simpa using fetch_error hf
    | ok i =>
      rw [step_of_fetch hl hf] at h
      obtain ⟨x, r, hop, hx, heq, hn, hseg, hne, hr, ht⟩ := exec_writeOnce h
      exact ⟨hl, i, x, r, rfl, hop, hx, heq, hn, hseg, hne, hr, ht⟩
  · rintro ⟨hl, i, x, r, hf, hop, hx, heq, hn, hseg, hne, hr, rfl⟩
    rw [step_of_fetch hl hf]
    exact exec_of_faultsEarly hx (.call _ _ hop (.oneCell r heq hn hseg hne hr))

end Sys2Proof.Proofs.Faults
end

section
/-! PROOFS. The configurations compared (00_scope.md R8): what STRICT_OPERANDS changes (43_step_resolution.md R123;
D15), and that no configuration lets DivisionByZero end a step (R125). -/

open Sys2Proof Sys2Proof.Machine

namespace Sys2Proof.Proofs.Configurations

open Sys2Proof.Proofs.Bound Sys2Proof.Proofs.Operands Sys2Proof.Proofs.Cascade Sys2Proof.Proofs.Instructions
  Sys2Proof.Proofs.Faults

/-- The configuration without the strict check. -/
def lenient (c : Config) : Config := { c with strictOperands := false }

section Strict

variable {c : Config} {d : Decoded} {s t u : State} {x : Addrs} {l : Locals}

/-- The strict check passes exactly where dst, op0 and op1 are defined (R123). -/
theorem strictCheck_ok_iff (hc : c.strictOperands = true) :
    strictCheck c l = .ok () ↔ l.dst ≠ none ∧ l.op0 ≠ none ∧ l.op1 ≠ none := by
  obtain ⟨dst, op0, op1, res⟩ := l
  cases dst <;> cases op0 <;> cases op1 <;> simp [strictCheck, hc]

theorem strictCheck_error {e : ErrorKind} (h : strictCheck c l = .error e) : e = .undefinedOperand := by
  unfold strictCheck at h
  split at h <;> cases h
  rfl

/-- Said once: a step that completes without the strict check, taken apart, and what the strict check makes of it. -/
theorem sequence_strict (h : Machine.sequence (lenient c) d s = .ok t) :
    ∃ x l u, operandAddresses c d.toFields s = .ok x ∧ resolve (lenient c) d x (readOperands s x) s = .ok (l, u) ∧
      u.mem = t.mem ∧ (strictCheck c l = .ok () ∧ Machine.sequence c d s = .ok t ∨
        strictCheck c l ≠ .ok () ∧ Machine.sequence c d s = .error (.raised .undefinedOperand u)) := by
  obtain ⟨x, l, u, pc, ap, fp, hx, hr, ha, hpc, hap, hfp, -, rfl⟩ := sequence_ok h
  have hr' : resolve c d x (readOperands s x) s = .ok (l, u) := hr
  refine ⟨x, l, u, hx, hr, rfl, ?_⟩
  cases hs : strictCheck c l with
  | ok v => exact .inl ⟨rfl, sequence_eq_ok hx hr' ha hpc hap hfp hs⟩
  | error e =>
    obtain rfl := strictCheck_error hs
    refine .inr ⟨by simp, ?_⟩
    have hx' : operandAddresses c d.toFields s = .ok x := hx
    have ha' : assertOpcode c d s l = .ok () := ha
    have hpc' : nextPc c d s l = .ok pc := hpc
    have hap' : nextAp c d.apUpdate s l.res = .ok ap := hap
    have hfp' : nextFp c d.fpUpdate s l.dst = .ok fp := hfp
    simp only [Machine.sequence, hx', hr', ha', hpc', hap', hfp', hs, orAbort_ok, orAbort_error, bind, Except.bind]

/-- The strict check is the only stage that looks at STRICT_OPERANDS. -/
theorem sequence_agrees_lenient (c : Config) (d : Decoded) (s : State) :
    Agrees (FaultIn (· = .undefinedOperand)) (Machine.sequence c d s) (Machine.sequence (lenient c) d s) :=
  Agrees.bind (.of_eq rfl) fun _ _ => Agrees.bind (.of_eq rfl) fun r _ => Agrees.bind (.of_eq rfl) fun _ _ =>
    Agrees.bind (.of_eq rfl) fun _ _ => Agrees.bind (.of_eq rfl) fun _ _ => Agrees.bind (.of_eq rfl) fun _ _ => by
      refine Agrees.bind (Agrees.orAbort r.2 ?_) fun _ _ => .refl _
      cases hs : strictCheck c r.1 with
      | ok v => exact .refl _
      | error e => exact .inr ⟨e, rfl, strictCheck_error hs⟩

end Strict

/-! From any configuration to the standard one. -/

section Standard

variable {c : Config} {d : Decoded} {s t u : State} {x : Addrs} {l : Locals}

/-- A comparison whose first side succeeds is an equation. -/
theorem ok_of_agrees {ε α : Type} {bad : ε → Prop} {y z : Except ε α} {a : α} (h : Agrees bad y z) (hy : y = .ok a) :
    z = .ok a := by
  rcases h with rfl | ⟨e, he, -⟩
  · exact hy
  · rw [hy] at he
    cases he

/-- A fault of any configuration is one of the standard configuration, or one that its parameters add (R8). -/
theorem runDecoded_fault_standard {e : ErrorKind} (h : runDecoded c d s = .fault (.raised e t)) :
    runDecoded Config.standard d s = .fault (.raised e t) ∨ e = .undefinedOperand ∨ e = .capacityExceeded := by
  rcases sequence_agrees_lenient c d s with hl | ⟨_, hf, e', u, rfl, rfl⟩
  · have hlenient : runDecoded (lenient c) d s = .fault (.raised e t) := (congrArg toOutcome hl).symm.trans h
    rcases runDecoded_agrees (c := lenient c) (c' := Config.standard) 0 d s rfl rfl with hs | ⟨u, hf, -⟩
    · exact .inl (hs.symm.trans hlenient)
    · rw [hf] at hlenient
      cases hlenient
      exact .inr (.inr rfl)
  · rw [runDecoded_fault, hf] at h
    cases h
    exact .inr (.inl rfl)

/-- Settles O53: by O52 no instruction ends in it at the standard configuration, and the parameters add other errors. -/
theorem divisionByZeroNeverEndsAStep : Obligations.DivisionByZeroNeverEndsAStep := by
  intro c s t h
  cases hl : s.launched with
  | false =>
    rw [stepUnder_not_launched c hl] at h
    cases h
  | true =>
    rw [stepUnder, whenLaunched_true s hl] at h
    cases hf : fetch s with
    | error e =>
      rw [hf] at h
      cases h
      simpa using fetch_error hf
    | ok i =>
      rw [hf] at h
      rcases runDecoded_fault_standard h with hs | he | he
      · rw [← exec_eq_runDecoded] at hs
        have hmem := errorsAreThoseOfTheTable i s t _ hs
        cases hop : i.opcode <;> cases hu : i.pcUpdate <;> simp [possibleErrors, hop, hu] at hmem
      · cases he
      · cases he

/-! Which operands are defined at the commit (R115 to R123, R127). -/

/-- In a step that completes, the locals are all defined exactly when `operandsDefined` says so. -/
theorem locals_defined_iff (hx : operandAddresses Config.standard d.toFields s = .ok x)
    (hr : resolve Config.standard d x (readOperands s x) s = .ok (l, u))
    (h : Machine.sequence Config.standard d s = .ok t) :
    (l.dst ≠ none ∧ l.op0 ≠ none ∧ l.op1 ≠ none) ↔ operandsDefined d s x := by
  have hplain : d.opcode = .noOp ∨ d.opcode = .ret → ∃ r, l = { readOperands s x with res := r } := by
    intro hop
    cases hf : forwardRes Config.standard d.resLogic (Memory.get s.mem x.op0) (Memory.get s.mem x.op1) with
    | ok r =>
      rw [resolve_plain hop hf] at hr
      cases hr
      exact ⟨r, rfl⟩
    | error e =>
      rw [resolve_plain_error hop hf] at hr
      cases hr
  cases hop : d.opcode with
  | noOp =>
    obtain ⟨r, rfl⟩ := hplain (.inl hop)
    simp only [operandsDefined, hop, readOperands]
  | ret =>
    obtain ⟨r, rfl⟩ := hplain (.inr hop)
    simp only [operandsDefined, hop, readOperands]
  | call =>
    rcases callReady_or_callFaults d.toFields s hx with ⟨r, hready, hf⟩ | ⟨e, m, hf⟩
    · rw [resolve_callReady hop hready hf] at hr
      cases hr
      simp [operandsDefined, hop]
    · rw [sequence_of_callFaults hop hx hf] at h
      cases h
  | assertEq =>
    rcases aeqSettles_or_aeqFaults d.toFields s x with ⟨v, b, fill, hsettles⟩ | ⟨e, hf⟩
    · obtain ⟨l', ⟨hdst, hop1, -, hop0⟩, hresolve⟩ := resolve_aeqSettles hop hsettles
      rw [hresolve] at hr
      cases hr
      simp [operandsDefined, hop, hdst, hop1, hop0]
    · rw [sequence_of_aeqFaults hop hx hf] at h
      cases h

/-- The same for any configuration without the strict check. -/
theorem locals_defined_iff_lenient (hx : operandAddresses c d.toFields s = .ok x)
    (hr : resolve (lenient c) d x (readOperands s x) s = .ok (l, u)) (h : Machine.sequence (lenient c) d s = .ok t) :
    (l.dst ≠ none ∧ l.op0 ≠ none ∧ l.op1 ≠ none) ↔ operandsDefined d s x :=
  locals_defined_iff (ok_of_agrees (operandAddresses_agrees (k := 0) rfl _) hx)
    (ok_of_agrees (resolve_agrees (c := lenient c) (k := 0) rfl) hr)
    (ok_of_agrees (sequence_agrees (c := lenient c) (k := 0) rfl rfl) h)

end Standard

/-- A step completes under the strict check exactly when it does without it and its operands are defined. -/
theorem runDecoded_strict_next_iff {c : Config} {d : Decoded} {s t : State} {x : Addrs} (hc : c.strictOperands = true)
    (hx : operandAddresses c d.toFields s = .ok x) :
    runDecoded c d s = .next t ↔ runDecoded (lenient c) d s = .next t ∧ operandsDefined d s x := by
  rw [runDecoded_next, runDecoded_next]
  constructor
  · intro h
    have hlenient := ok_of_agrees (sequence_agrees_lenient c d s) h
    obtain ⟨x', l, u, hx', hr, -, ⟨hs, -⟩ | ⟨-, hf⟩⟩ := sequence_strict hlenient
    · rw [hx] at hx'
      cases hx'
      exact ⟨hlenient, (locals_defined_iff_lenient hx hr hlenient).1 ((strictCheck_ok_iff hc).1 hs)⟩
    · rw [hf] at h
      cases h
  · rintro ⟨hlenient, hdef⟩
    obtain ⟨x', l, u, hx', hr, -, ⟨-, hseq⟩ | ⟨hs, -⟩⟩ := sequence_strict hlenient
    · exact hseq
    · rw [hx] at hx'
      cases hx'
      exact absurd ((strictCheck_ok_iff hc).2 ((locals_defined_iff_lenient hx hr hlenient).2 hdef)) hs

/-- A step that completes without the strict check completes under it, or ends in its fault. -/
theorem runDecoded_strict_cases {c : Config} {d : Decoded} {s t : State} (h : runDecoded (lenient c) d s = .next t) :
    runDecoded c d s = .next t ∨
      ∃ u, runDecoded c d s = .fault (.raised .undefinedOperand u) ∧ sameRegs s u ∧ u.mem = t.mem := by
  obtain ⟨x, l, u, -, hr, hmem, ⟨-, hseq⟩ | ⟨-, hf⟩⟩ := sequence_strict (runDecoded_next.1 h)
  · exact .inl (runDecoded_next.2 hseq)
  · exact .inr ⟨u, runDecoded_fault.2 hf, (resolve_Kept hr).1, hmem⟩

theorem runDecoded_lenient_next {c : Config} {d : Decoded} {s t : State} (h : runDecoded c d s = .next t) :
    runDecoded (lenient c) d s = .next t :=
  runDecoded_next.2 (ok_of_agrees (sequence_agrees_lenient c d s) (runDecoded_next.1 h))

/-- Settles O59: the strict check comes last, and asks for the three operands. -/
theorem strictOperandsOnlyAddsOneFault : Obligations.StrictOperandsOnlyAddsOneFault := by
  intro mo ms d s
  refine ⟨fun t h => runDecoded_lenient_next (c := ⟨mo, ms, true⟩) h,
    fun t h => runDecoded_strict_cases (c := ⟨mo, ms, true⟩) h, fun t x h hx hop => ?_,
    fun t x hx => runDecoded_strict_next_iff (c := ⟨mo, ms, true⟩) rfl hx⟩
  obtain ⟨-, hdef⟩ := (runDecoded_strict_next_iff rfl hx).1 h
  rcases hop with hop | hop <;> simpa only [operandsDefined, hop] using hdef

end Sys2Proof.Proofs.Configurations
end
